-- ==== Sys2Proof/Word.lean ====
section
/-! DEFINITION. The widths of the FCU's registers and memory bytes (10_state.md R21, R46). -/

namespace Sys2Proof

/-- A byte of a memory, an 8-bit register or the IMM8 field. -/
abbrev Byte := BitVec 8

/-- A 16-bit register or frame field. -/
abbrev Half := BitVec 16

/-- A 32-bit register, frame field or command word. -/
abbrev Word := BitVec 32

end Sys2Proof
end

