-- ==== Sys2Proof/Config.lean ====
section
/-! DEFINITION. What an elaboration of the FCU fixes (00_scope.md R7) and the one family of free values. -/

namespace Sys2Proof

/-- The elaboration-time parameters of R7, under the spec's names. `RB_CAP` is derived (R8). -/
structure Params where
  /-- `RB_CAP_REQ` -/
  rbCapReq    : Nat
  /-- `SRC_SIZE` -/
  srcSize     : Nat
  /-- `DST_SIZE` -/
  dstSize     : Nat
  /-- `CR_SLOTS` -/
  crSlots     : Nat
  /-- `CR_MAX_TOTAL` -/
  crMaxTotal  : Nat
  /-- `CR_TIMED`: true for the timed variant (1) -/
  crTimed     : Bool
  /-- `CR_IDLE_TICKS` -/
  crIdleTicks : Nat
deriving DecidableEq, Repr

/-- DESIGN CHOICE (log 2): the spec leaves the parameters open; `State.reset` takes the values that
95_test_vectors.md "Conventions" assumes where a vector names none. -/
def Config.params : Params where
  rbCapReq    := 64
  srcSize     := 4096
  dstSize     := 4096
  crSlots     := 2
  crMaxTotal  := 1024
  crTimed     := true
  crIdleTicks := 3

/-- The bytes that PC.DECODE leaves in DST after PL_MALFORMED (41 R122, 93 I12): nothing is known of
them. The number is that of `State.freeCtr`, a fresh one for every byte (log 5). -/
opaque Config.freeByte : Nat → Byte

end Sys2Proof
end

