-- ==== Sys2Proof/Syntax.lean ====
section
/-! DEFINITION. The commands (30_encoding.md R69), the CSRs (10_state.md R21), the actions the outside
agents can take on the FCU (60_exceptions.md R193) and the lines of the spec's assembly language (30 R71, R72). -/

namespace Sys2Proof

/-- The 18 commands of R69, in the opcode map's order. Operands other than RB.SKIPUNTIL's sentinel
come from registers (R70). -/
inductive Instr where
  /-- NOP, R170 -/
  | nop
  /-- RB.WRITE, R101 -/
  | rbWrite
  /-- RB.READ, R102 -/
  | rbRead
  /-- RB.PEEK, R103 -/
  | rbPeek
  /-- RB.PEEKB, R104 -/
  | rbPeekb
  /-- RB.PEEKHDR, R105 -/
  | rbPeekhdr
  /-- RB.SKIPUNTIL with the sentinel IMM8, R106 -/
  | rbSkipuntil (v : Byte)
  /-- RB.CLEAR, R107 -/
  | rbClear
  /-- PC.ENCODE, R121 -/
  | pcEncode
  /-- PC.DECODE, R122 -/
  | pcDecode
  /-- PC.HCS, R123 -/
  | pcHcs
  /-- FC.BUILD, R131 -/
  | fcBuild
  /-- FC.SEND, R132 -/
  | fcSend
  /-- FC.TRYPARSE, R134 -/
  | fcTryparse
  /-- FC.RECV, R135 -/
  | fcRecv
  /-- CR.RECV, R157 -/
  | crRecv
  /-- CR.TICK, R159 -/
  | crTick
  /-- CR.EVICTCONN, R160 -/
  | crEvictconn
deriving DecidableEq, Repr

/-- The registers of R21, in the order of their addresses. -/
inductive Csr where
  | cmd | status | connId | pktCtr
  | arg0 | arg1 | arg2 | arg3 | arg4 | arg5 | arg6 | arg7
  | res0 | res1 | res2 | res3
  | hdrFlags | hdrId | hdrLen | hdrCksum | hdrCalc
  | txFlags | txId | txReqid | txPktid | txOffset | txTotal | txUlen | txMaxpl
  | rxFlags | rxId | rxReqid | rxPktid | rxOffset | rxTotal | rxUlen | rxLen | rxPcsCalc | rxPcsRcvd
  | rbRd | rbCnt | rbCapr | crUsed | crEvicts
  | cfgCr | cfgMaxtot | cfgIdle | cfgSrc | cfgDst
deriving DecidableEq, Repr

/-- One atomic action of the host, the tick source or the reset source (R193). -/
inductive HostAction where
  /-- `CsrWrite(addr, v)`; a write to CMD performs command `v` (R20, R22) -/
  | csrWrite (addr : Nat) (v : Word)
  /-- `CsrRead(addr)` (R20) -/
  | csrRead (addr : Nat)
  /-- `SrcWrite(addr, b)`; the port takes `b mod 256` (R57) -/
  | srcWrite (addr b : Nat)
  /-- `SrcRead(addr)` (R40) -/
  | srcRead (addr : Nat)
  /-- `DstRead(addr)` (R41) -/
  | dstRead (addr : Nat)
  /-- the tick input (R44) -/
  | tick
  /-- the reset input (R45) -/
  | reset
deriving DecidableEq, Repr

/-- The assembly lines of R71 and the pseudo-instructions of R72 that make the host act on the FCU.
Labels, `IF` and `GOTO` are the host's own (R171, log 15). -/
inductive AsmLine where
  /-- `MNEMONIC`, or `RB.SKIPUNTIL #v` -/
  | command (i : Instr)
  /-- `SET NAME, v` -/
  | set (reg : Csr) (v : Word)
  /-- `LOAD a, b0 b1 ...` -/
  | load (a : Nat) (bytes : List Byte)
  /-- `TICK` -/
  | tick
  /-- `ARGS v0, v1, ...` -/
  | args (vs : List Word)
  /-- `RESYNC` -/
  | resync
  /-- `DISCONNECT c` -/
  | disconnect (c : Word)
  /-- `DELIVER a, b0 b1 ...` -/
  | deliver (a : Word) (bytes : List Byte)
deriving DecidableEq, Repr

end Sys2Proof
end

