-- ==== Sys2Proof/WellFormed.lean ====
section
/-! DEFINITION. What is well formed: elaboration parameters (00_scope.md R7), command words (30_encoding.md R68),
instructions, and assembly lines (30 R71, R72). -/

namespace Sys2Proof

/-- The constraints of R7; an elaboration outside them gives no FCU. -/
def Params.wellFormed (p : Params) : Bool :=
  decide (1 ≤ p.rbCapReq ∧ p.rbCapReq ≤ 2 ^ 30)
    && decide (1 ≤ p.srcSize ∧ p.srcSize ≤ 2 ^ 32 - 1)
    && decide (1 ≤ p.dstSize ∧ p.dstSize ≤ 2 ^ 32 - 1)
    && decide (1 ≤ p.crSlots ∧ p.crSlots ≤ 65535)
    && decide (1 ≤ p.crMaxTotal ∧ p.crMaxTotal ≤ 2 ^ 32 - 1)
    && decide (1 ≤ p.crIdleTicks ∧ p.crIdleTicks ≤ 2 ^ 32 - 1)

/-- The 18 assigned opcodes of R69. -/
def assignedOpcodes : List Byte :=
  [0x00, 0x01, 0x02, 0x03, 0x04, 0x05, 0x06, 0x07, 0x10, 0x11, 0x12, 0x20, 0x21, 0x22, 0x23, 0x30, 0x31, 0x32]

/-- R68: a word is legal if and only if its opcode is assigned, `w[31:16] = 0`, and IMM8 is 0 or the
opcode is RB.SKIPUNTIL's. -/
def legalWord (w : Word) : Bool :=
  assignedOpcodes.contains (w.extractLsb' 0 8)
    && w.extractLsb' 16 16 == 0#16
    && (w.extractLsb' 8 8 == 0#8 || w.extractLsb' 0 8 == 0x06#8)

/-- An instruction's one field is a byte, and R67 admits every byte as the sentinel, so nothing of an
instruction is left to check: the ill-formed cases of the command set are ill-formed words. -/
def Instr.wellFormed : Instr → Bool
  | .nop => true
  | .rbWrite => true
  | .rbRead => true
  | .rbPeek => true
  | .rbPeekb => true
  | .rbPeekhdr => true
  | .rbSkipuntil _ => true
  | .rbClear => true
  | .pcEncode => true
  | .pcDecode => true
  | .pcHcs => true
  | .fcBuild => true
  | .fcSend => true
  | .fcTryparse => true
  | .fcRecv => true
  | .crRecv => true
  | .crTick => true
  | .crEvictconn => true

/-- The registers of R21 with access RW other than CMD, whose write is the command line itself. -/
def Csr.settable : Csr → Bool
  | .connId | .pktCtr => true
  | .arg0 | .arg1 | .arg2 | .arg3 | .arg4 | .arg5 | .arg6 | .arg7 => true
  | .txFlags | .txId | .txReqid | .txPktid | .txOffset | .txTotal | .txUlen | .txMaxpl => true
  | .cmd | .status | .res0 | .res1 | .res2 | .res3 => false
  | .hdrFlags | .hdrId | .hdrLen | .hdrCksum | .hdrCalc => false
  | .rxFlags | .rxId | .rxReqid | .rxPktid | .rxOffset | .rxTotal | .rxUlen | .rxLen | .rxPcsCalc | .rxPcsRcvd => false
  | .rbRd | .rbCnt | .rbCapr | .crUsed | .crEvicts => false
  | .cfgCr | .cfgMaxtot | .cfgIdle | .cfgSrc | .cfgDst => false

/-- R71 lets `SET` name a RW register; `ARGS` has at most the eight ARG registers to set. -/
def AsmLine.wellFormed : AsmLine → Bool
  | .command i => i.wellFormed
  | .set reg _ => reg.settable
  | .load _ _ => true
  | .tick => true
  | .args vs => decide (vs.length ≤ 8)
  | .resync => true
  | .disconnect _ => true
  | .deliver _ _ => true

end Sys2Proof
end

