-- ==== Sys2Proof/Decode.lean ====
section
/-! DEFINITION. The decoder of command words (30_encoding.md R65 to R69), total and rejecting by name, the encoder,
and each constructor's word written out from the opcode map. -/

namespace Sys2Proof

/-- Why a word is not legal (R68). The FCU reports every one of these as ILLEGAL_CMD; the names are the
decoder's own, and the first that applies, in this order, is given (log 18). -/
inductive Illegal where
  /-- `w[31:16]` is not 0 -/
  | reservedBits
  /-- OP is none of the 18 assigned opcodes -/
  | unassignedOpcode
  /-- IMM8 is not 0 and OP is not RB.SKIPUNTIL's -/
  | immediate
deriving DecidableEq, Repr

/-- `OP = w[7:0]` (R65). -/
def opField (w : Word) : Byte := w.extractLsb' 0 8

/-- `IMM8 = w[15:8]` (R65, R67). -/
def immField (w : Word) : Byte := w.extractLsb' 8 8

/-- `w[31:16]`, which must be 0 (R65). -/
def reservedField (w : Word) : Half := w.extractLsb' 16 16

/-- The command an opcode selects (R69), given the immediate. -/
def opcodeInstr (op imm : Byte) : Option Instr :=
  match op.toNat with
  | 0x00 => some .nop
  | 0x01 => some .rbWrite
  | 0x02 => some .rbRead
  | 0x03 => some .rbPeek
  | 0x04 => some .rbPeekb
  | 0x05 => some .rbPeekhdr
  | 0x06 => some (.rbSkipuntil imm)
  | 0x07 => some .rbClear
  | 0x10 => some .pcEncode
  | 0x11 => some .pcDecode
  | 0x12 => some .pcHcs
  | 0x20 => some .fcBuild
  | 0x21 => some .fcSend
  | 0x22 => some .fcTryparse
  | 0x23 => some .fcRecv
  | 0x30 => some .crRecv
  | 0x31 => some .crTick
  | 0x32 => some .crEvictconn
  | _ => none

/-- R68: the command of a legal word, or why the word is not legal. -/
def decode (w : Word) : Except Illegal Instr :=
  if reservedField w ≠ 0#16 then .error .reservedBits
  else
    match opcodeInstr (opField w) (immField w) with
    | none => .error .unassignedOpcode
    | some i => if immField w ≠ 0#8 ∧ opField w ≠ 0x06#8 then .error .immediate else .ok i

/-- The opcode map of R69, read from the mnemonic. -/
def Instr.opcode : Instr → Byte
  | .nop => 0x00
  | .rbWrite => 0x01
  | .rbRead => 0x02
  | .rbPeek => 0x03
  | .rbPeekb => 0x04
  | .rbPeekhdr => 0x05
  | .rbSkipuntil _ => 0x06
  | .rbClear => 0x07
  | .pcEncode => 0x10
  | .pcDecode => 0x11
  | .pcHcs => 0x12
  | .fcBuild => 0x20
  | .fcSend => 0x21
  | .fcTryparse => 0x22
  | .fcRecv => 0x23
  | .crRecv => 0x30
  | .crTick => 0x31
  | .crEvictconn => 0x32

/-- IMM8 of the command's word: the sentinel for RB.SKIPUNTIL, else 0 (R67). -/
def Instr.imm : Instr → Byte
  | .rbSkipuntil v => v
  | .nop | .rbWrite | .rbRead | .rbPeek | .rbPeekb | .rbPeekhdr | .rbClear => 0
  | .pcEncode | .pcDecode | .pcHcs => 0
  | .fcBuild | .fcSend | .fcTryparse | .fcRecv => 0
  | .crRecv | .crTick | .crEvictconn => 0

/-- The command word of an instruction: reserved bits 0, then IMM8, then OP (R65). -/
def encode (i : Instr) : Word := 0#16 ++ i.imm ++ i.opcode

/-- The instruction the decoder reads from an opcode-table row's word. The FCU stores no instruction: a
command is the 32-bit value of a CMD write (20 R61), so the table's bits are the word's bits (log 10). -/
def decodeTableWord (_nbits w : Nat) : Option Instr :=
  if w < 2 ^ 32 then
    match decode (BitVec.ofNat 32 w) with
    | .ok i => some i
    | .error _ => none
  else none

/-! The words of R69, written out from the opcode map; R106 gives RB.SKIPUNTIL's as `0x06 + 256 * v`. -/

theorem decode_nop : decode 0x00000000 = .ok .nop := by decide
theorem decode_rbWrite : decode 0x00000001 = .ok .rbWrite := by decide
theorem decode_rbRead : decode 0x00000002 = .ok .rbRead := by decide
theorem decode_rbPeek : decode 0x00000003 = .ok .rbPeek := by decide
theorem decode_rbPeekb : decode 0x00000004 = .ok .rbPeekb := by decide
theorem decode_rbPeekhdr : decode 0x00000005 = .ok .rbPeekhdr := by decide
theorem decode_rbSkipuntil_99 : decode 0x00009906 = .ok (.rbSkipuntil 0x99) := by decide
theorem decode_rbSkipuntil_00 : decode 0x00000006 = .ok (.rbSkipuntil 0x00) := by decide
theorem decode_rbClear : decode 0x00000007 = .ok .rbClear := by decide
theorem decode_pcEncode : decode 0x00000010 = .ok .pcEncode := by decide
theorem decode_pcDecode : decode 0x00000011 = .ok .pcDecode := by decide
theorem decode_pcHcs : decode 0x00000012 = .ok .pcHcs := by decide
theorem decode_fcBuild : decode 0x00000020 = .ok .fcBuild := by decide
theorem decode_fcSend : decode 0x00000021 = .ok .fcSend := by decide
theorem decode_fcTryparse : decode 0x00000022 = .ok .fcTryparse := by decide
theorem decode_fcRecv : decode 0x00000023 = .ok .fcRecv := by decide
theorem decode_crRecv : decode 0x00000030 = .ok .crRecv := by decide
theorem decode_crTick : decode 0x00000031 = .ok .crTick := by decide
theorem decode_crEvictconn : decode 0x00000032 = .ok .crEvictconn := by decide

end Sys2Proof
end

