-- ==== Sys2Proof/Machine/State.lean ====
section
/-! DEFINITION. The FCU's architectural state (10_state.md), its reset value (R49), and how a run can stop. -/

namespace Sys2Proof.Machine

/-- The status codes of 60 R181, under their names. Codes 0x0E to 0xFF are reserved and never
written, so the type has none of them (93 I7, log 17). -/
inductive Status where
  | ok | needMore | hdrCorrupt | plMalformed | plChecksum | chunkViolation | allocFail
  | outOfRange | illegalCmd | illegalArg | tooLong | chunkAccepted | assembled | notFound
deriving DecidableEq, Repr

/-- The byte memories of 20 R50. -/
inductive Space where
  | src | dst | ring | slotData
deriving DecidableEq, Repr

/-- Why a run stops. -/
inductive Fault where
  /-- A command or a host port reads a byte of `space` at `addr` that nothing has written. For SRC and DST
  this is 10 R42's fault of the run (92 D33): raised by RB.WRITE, PC.ENCODE, PC.DECODE, FC.BUILD, FC.SEND,
  CR.RECV, SrcRead and DstRead. For RING and slot data it is raised only in states no run reaches (log 13),
  by the RB and FC commands and by the reassembler core. Safe: the model stops where hardware would go on. -/
  | unwritten (space : Space) (addr : Nat)
deriving DecidableEq, Repr

/-- Why an instruction has no meaning. -/
inductive Refusal where
  /-- The dispatcher has no meaning for the instruction yet. Safe. No arm raises it: all 18 are modelled. -/
  | notModelled (mnemonic : String)
deriving DecidableEq, Repr

/-- A byte memory: the written bytes, by strictly rising address. A byte not listed is unwritten and holds
no value (10 R42), so no listed entry can equal what an unlisted address reads as. -/
abbrev Memory := List Host.Cell

/-- ARG0 to ARG7 (R24). -/
structure Args where
  a0 : Word
  a1 : Word
  a2 : Word
  a3 : Word
  a4 : Word
  a5 : Word
  a6 : Word
  a7 : Word
deriving DecidableEq, Repr

/-- RES0 to RES3 (R25). -/
structure Results where
  r0 : Word
  r1 : Word
  r2 : Word
  r3 : Word
deriving DecidableEq, Repr

/-- HDR_FLAGS, HDR_ID, HDR_LEN, HDR_CKSUM and HDR_CALC (R28). -/
structure HdrRegs where
  flags : Byte
  id    : Half
  len   : Half
  cksum : Half
  computed : Half
deriving DecidableEq, Repr

/-- TX_FLAGS, TX_ID, TX_REQID, TX_PKTID, TX_OFFSET, TX_TOTAL, TX_ULEN (R29) and TX_MAXPL (R30). -/
structure TxRegs where
  flags  : Byte
  id     : Half
  reqid  : Half
  pktid  : Word
  offset : Word
  total  : Word
  ulen   : Word
  maxpl  : Word
deriving DecidableEq, Repr

/-- The RX registers (R31). -/
structure RxRegs where
  flags   : Byte
  id      : Half
  reqid   : Half
  pktid   : Word
  offset  : Word
  total   : Word
  ulen    : Word
  len     : Word
  pcsCalc : Half
  pcsRcvd : Half
deriving DecidableEq, Repr

/-- The ring unit's state (R38): RING, the consumption index and the byte count. -/
structure Ring where
  mem : Memory
  rd  : Nat
  cnt : Nat
deriving DecidableEq, Repr

/-- One reassembly slot (R46). `fill` lists, rising, the indices `j` with `FILL[j] = 1`. -/
structure Slot where
  valid : Bool
  conn  : Half
  pid   : Word
  total : Word
  rem   : Word
  fill  : List Nat
  data  : Memory
  idle  : Word
deriving DecidableEq, Repr

/-- The whole machine: the FCU's state under the spec's names, the parameters it was elaborated with,
and, last, the model's own three fields. RB_RD, RB_CNT, RB_CAPR, CR_USED and the CFG registers are views
(R32 to R34) and are computed when they are read. -/
structure State where
  /-- the elaboration parameters (00 R7); nothing changes them (70 R201) -/
  params   : Params
  /-- CMD (R22) -/
  cmd      : Word
  /-- STATUS (R23) -/
  status   : Status
  /-- CONN_ID (R26) -/
  connId   : Half
  /-- PKT_CTR (R27) -/
  pktCtr   : Word
  /-- ARG0 to ARG7 (R24) -/
  args     : Args
  /-- RES0 to RES3 (R25) -/
  res      : Results
  /-- the HDR registers (R28) -/
  hdr      : HdrRegs
  /-- the TX registers (R29, R30) -/
  tx       : TxRegs
  /-- the RX registers (R31) -/
  rx       : RxRegs
  /-- the ring (R38) -/
  ring     : Ring
  /-- SRC (R40) -/
  src      : Memory
  /-- DST (R41) -/
  dst      : Memory
  /-- the reassembly slots (R46), slot 0 first -/
  slots    : List Slot
  /-- CR_EVICTS (R33) -/
  crEvicts : Word
  /-- MODEL: the actions of the host, tick source and reset source still to come, the next first (log 1) -/
  inputs   : List HostAction
  /-- MODEL: the value the last host read returned (log 8) -/
  readData : Word
  /-- MODEL: the number of free bytes drawn so far, which numbers the next one (log 5) -/
  freeCtr  : Nat
deriving DecidableEq, Repr

/-- A slot after reset: `VALID = 0` (R49). DESIGN CHOICE (log 3): the other fields, which R49 leaves
unwritten and which nothing reads while `VALID = 0`, are 0 and empty. -/
def Slot.reset : Slot where
  valid := false
  conn  := 0
  pid   := 0
  total := 0
  rem   := 0
  fill  := []
  data  := []
  idle  := 0

/-- R49, for an FCU elaborated with `p`: every register at R21's reset value, an empty ring, every slot
invalid, every byte unwritten. DESIGN CHOICE (logs 1, 5, 8): no action is pending and the model's two other
fields are 0. -/
def State.resetWith (p : Params) : State where
  params   := p
  cmd      := 0
  status   := .ok
  connId   := 0
  pktCtr   := 0
  args     := ⟨0, 0, 0, 0, 0, 0, 0, 0⟩
  res      := ⟨0, 0, 0, 0⟩
  hdr      := ⟨0, 0, 0, 0, 0⟩
  tx       := ⟨0, 0, 0, 0, 0, 0, 0, 0⟩
  rx       := ⟨0, 0, 0, 0, 0, 0, 0, 0, 0, 0⟩
  ring     := ⟨[], 0, 0⟩
  src      := []
  dst      := []
  slots    := List.replicate p.crSlots Slot.reset
  crEvicts := 0
  inputs   := []
  readData := 0
  freeCtr  := 0

/-- R7: an elaboration with `p` gives an FCU in its reset state, or none if `p` violates a constraint. -/
def State.elaborate (p : Params) : Option State :=
  if p.wellFormed then some (State.resetWith p) else none

/-- The machine right after reset, for the parameters of `Config.params` (log 2). -/
def State.reset : State := State.resetWith Config.params

end Sys2Proof.Machine
end

