-- ==== Sys2Proof/Machine/Ops.lean ====
section
/-! DEFINITION. The named operations every command is built from: byte memories, the ring, the slot table,
register writes, and the ends of a command (`raise` and the commit). -/

namespace Sys2Proof.Machine

/-! ## Byte memories (10 R40 to R42, 20 R50) -/

/-- The byte at `a`, or none if it is unwritten. -/
def Memory.read : Memory → Nat → Option Byte
  | [], _ => none
  | (k, b) :: m, a => if k = a then some b else Memory.read m a

/-- The bytes `bs` as cells from address `a` on. -/
def cellsFrom (a : Nat) : List Byte → Memory
  | [] => []
  | b :: bs => (a, b) :: cellsFrom (a + 1) bs

/-- `MemWrite(space, a, |bs|, bs)` (00 R10): the cells below the range, the range, the cells above it. -/
def Memory.writeBytes (m : Memory) (a : Nat) (bs : List Byte) : Memory :=
  m.filter (fun c => c.1 < a) ++ cellsFrom a bs ++ m.filter (fun c => a + bs.length ≤ c.1)

/-- A write of one byte. -/
def Memory.write (m : Memory) (a : Nat) (b : Byte) : Memory := m.writeBytes a [b]

/-- `MemRead(space, a, n)` (00 R10), or none if a byte of the range is unwritten. The cells rise, so one
walk along them finds the range. -/
def Memory.readBytes : Memory → Nat → Nat → Option (List Byte)
  | _, _, 0 => some []
  | [], _, _ + 1 => none
  | (k, b) :: m, a, n + 1 =>
    if k < a then Memory.readBytes m a (n + 1)
    else if k = a then (Memory.readBytes m (a + 1) n).map (b :: ·)
    else none

/-- The canonical form: addresses strictly rising. (No listed cell equals what an unlisted address reads
as, which is no value at all.) -/
abbrev Memory.wf (m : Memory) : Prop := m.Pairwise (fun x y => x.1 < y.1)

/-- The first address from `a` on that is unwritten: what a faulting read of a range reports. -/
def Memory.firstUnwritten (m : Memory) (a : Nat) : Nat → Nat
  | 0 => a
  | n + 1 => if (m.read a).isNone then a else Memory.firstUnwritten m (a + 1) n

/-- A read of a range of a memory by the FCU or the host: its bytes, or 10 R42's fault of the run. -/
def Memory.fetch (m : Memory) (space : Space) (a n : Nat) : Except Fault (List Byte) :=
  match m.readBytes a n with
  | some bs => .ok bs
  | none => .error (.unwritten space (m.firstUnwritten a n))

/-- `MemRead(SRC, a, n)` by a command. -/
def State.srcBytes (s : State) (a n : Nat) : Except Fault (List Byte) := s.src.fetch .src a n

/-- `inSRC(a, n)` (40 R100), in unbounded arithmetic. -/
abbrev inSrc (s : State) (a n : Nat) : Prop := a + n ≤ s.params.srcSize

/-- `inDST(d, n)` (40 R100), in unbounded arithmetic. -/
abbrev inDst (s : State) (d n : Nat) : Prop := d + n ≤ s.params.dstSize

/-! ## Register writes, each through one operation -/

def State.withStatus (st : Status) (s : State) : State := { s with status := st }
def State.withCmd (w : Word) (s : State) : State := { s with cmd := w }
def State.withPktCtr (w : Word) (s : State) : State := { s with pktCtr := w }
/-- `RES0 <- n`; every value a rule writes is below 2^32 (43 R151, 41 R121, 42 R132 bound them). -/
def State.withRes0 (n : Nat) (s : State) : State := { s with res := { s.res with r0 := BitVec.ofNat 32 n } }
/-- `RES1 <- n` -/
def State.withRes1 (n : Nat) (s : State) : State := { s with res := { s.res with r1 := BitVec.ofNat 32 n } }
/-- `RES2 <- n` -/
def State.withRes2 (n : Nat) (s : State) : State := { s with res := { s.res with r2 := BitVec.ofNat 32 n } }
def State.withHdr (h : HdrRegs) (s : State) : State := { s with hdr := h }
def State.withRx (r : RxRegs) (s : State) : State := { s with rx := r }
def State.withRing (r : Ring) (s : State) : State := { s with ring := r }
def State.withSrc (m : Memory) (s : State) : State := { s with src := m }
def State.withDst (m : Memory) (s : State) : State := { s with dst := m }
def State.withSlots (l : List Slot) (s : State) : State := { s with slots := l }
def State.withEvicts (w : Word) (s : State) : State := { s with crEvicts := w }
def State.withInputs (l : List HostAction) (s : State) : State := { s with inputs := l }
def State.withReadData (w : Word) (s : State) : State := { s with readData := w }
def State.withFreeCtr (n : Nat) (s : State) : State := { s with freeCtr := n }

/-! ## The ends of a command (00 R10, 60 R187) -/

/-- `raise st`: the command ends and commits nothing but STATUS. -/
def State.raise (st : Status) (s : State) : Except Fault State := .ok (s.withStatus st)

/-- The commit (60 R187): the command's computed state is the next state, with STATUS written last; a
fault of the run stops it. -/
def commit (r : Except Fault State) : Host.Outcome State Fault Refusal :=
  match r with
  | .ok t => .next t
  | .error f => .fault f

/-! ## The ring (10 R38, R39, 40 R100, R110) -/

/-- The least power of two from `c` on that is at least `req`, within `fuel` doublings. -/
def leastPow2 : Nat → Nat → Nat → Nat
  | 0, c, _ => c
  | fuel + 1, c, req => if req ≤ c then c else leastPow2 fuel (2 * c) req

/-- `RB_CAP` (00 R8). `RB_CAP_REQ <= 2^30` (R7), so 30 doublings of 1 reach it. -/
def ringCap (p : Params) : Nat := leastPow2 30 1 p.rbCapReq

/-- The index in RING of the `i`-th byte from the oldest. -/
def ringIndex (s : State) (i : Nat) : Nat := (s.ring.rd + i) % ringCap s.params

/-- `ringByte(i)` (10 R39). -/
def ringByte (s : State) (i : Nat) : Except Fault Byte :=
  match s.ring.mem.read (ringIndex s i) with
  | some b => .ok b
  | none => .error (.unwritten .ring (ringIndex s i))

/-- `ringBytes(i, n)` (10 R39). -/
def ringBytes (s : State) (i : Nat) : Nat → Except Fault (List Byte)
  | 0 => .ok []
  | n + 1 => do
    let b ← ringByte s i
    let bs ← ringBytes s (i + 1) n
    .ok (b :: bs)

/-- `RING[(at + i) mod RB_CAP] <- bs[i]` for each `i`, in order (40 R101). -/
def ringStore (cap : Nat) (m : Memory) (at' : Nat) : List Byte → Memory
  | [] => m
  | b :: bs => ringStore cap (m.write (at' % cap) b) (at' + 1) bs

/-- The bytes `bs` join the ring behind the newest: `RING` and `cnt` change, `rd` does not (40 R101). -/
def State.ringAppend (bs : List Byte) (s : State) : State :=
  s.withRing { s.ring with
    mem := ringStore (ringCap s.params) s.ring.mem (s.ring.rd + s.ring.cnt) bs
    cnt := s.ring.cnt + bs.length }

/-- `ADVANCE(k)` (40 R100): the `k` oldest bytes are consumed. -/
def State.advance (k : Nat) (s : State) : State :=
  s.withRing { s.ring with rd := (s.ring.rd + k) % ringCap s.params, cnt := s.ring.cnt - k }

/-- The search of `SCAN` (40 R110): the first of the `n` positions from `i` on that holds `v`. -/
def scanFrom (s : State) (v : Byte) (i : Nat) : Nat → Except Fault (Option Nat)
  | 0 => .ok none
  | n + 1 => do
    let b ← ringByte s i
    if b = v then .ok (some i) else scanFrom s v (i + 1) n

/-- `SCAN(skip, v)` (40 R110): whether `v` was found, and how many bytes its `ADVANCE` consumes. -/
def scan (s : State) (skip : Nat) (v : Byte) : Except Fault (Bool × Nat) := do
  match ← scanFrom s v skip (s.ring.cnt - skip) with
  | some i => .ok (true, i + 1)
  | none => .ok (false, s.ring.cnt)

/-! ## The slot table (10 R46, R48) -/

/-- The index of the slot of the key, if a valid slot has it (10 R48). -/
def findSlot (slots : List Slot) (conn : Half) (pid : Word) : Option Nat :=
  slots.findIdx? (fun sl => sl.valid && sl.conn == conn && sl.pid == pid)

/-- The lowest invalid slot, if there is one (10 R48). -/
def freeSlot (slots : List Slot) : Option Nat := slots.findIdx? (fun sl => !sl.valid)

/-- `S[k]`. -/
def slotAt (slots : List Slot) (k : Nat) : Slot := slots[k]?.getD Slot.reset

/-- `S[k].VALID <- 0`: the slot is released, whatever else it holds. -/
def Slot.release (sl : Slot) : Slot := { sl with valid := false }

/-- `R(CR_USED)`: the number of valid slots (10 R33). -/
def slotsUsed (slots : List Slot) : Nat := slots.countP (fun sl => sl.valid)

/-- `FILL[j] = 1` for some `j` in `off .. off+n-1` (43 R151). -/
def fillOverlaps (fill : List Nat) (off n : Nat) : Bool :=
  fill.any (fun j => decide (off ≤ j) && decide (j < off + n))

/-- `FILL[j] <- 1` for every `j` in `off .. off+n-1` (43 R155); the list stays rising. -/
def fillRange (fill : List Nat) (off n : Nat) : List Nat :=
  fill.filter (fun j => j < off) ++ List.range' off n ++ fill.filter (fun j => off + n ≤ j)

/-! ## The free values (93 I12) -/

/-- `n` bytes of which nothing is known, numbered from `c` on (log 5). -/
def freeBytes (c : Nat) : Nat → List Byte
  | 0 => []
  | n + 1 => Config.freeByte c :: freeBytes (c + 1) n

end Sys2Proof.Machine
end

