-- ==== Sys2Proof/Machine/Flags.lean ====
section
/-! DEFINITION. The status codes' numbers (60_exceptions.md R181), STATUS being the FCU's only condition code
(10 R36), and the fields of a frame's flag byte (30_encoding.md R75). -/

namespace Sys2Proof.Machine

/-- The code of a status (60 R181). -/
def Status.code : Status → Byte
  | .ok => 0x00
  | .needMore => 0x01
  | .hdrCorrupt => 0x02
  | .plMalformed => 0x03
  | .plChecksum => 0x04
  | .chunkViolation => 0x05
  | .allocFail => 0x06
  | .outOfRange => 0x07
  | .illegalCmd => 0x08
  | .illegalArg => 0x09
  | .tooLong => 0x0A
  | .chunkAccepted => 0x0B
  | .assembled => 0x0C
  | .notFound => 0x0D

/-- `flags[1:0]`, RSP and REQ together: not 0 when the frame carries a request id (30 R75, R77). -/
def flagCorr (flags : Byte) : BitVec 2 := flags.extractLsb' 0 2
/-- `flags[2]`, CHK: the frame is a chunk (30 R75). -/
def flagChk (flags : Byte) : Bool := flags.getLsbD 2
/-- `flags[4:3]`, CMODE: not 0 when the frame carries an uncompressed length (30 R75, R76). -/
def flagCmode (flags : Byte) : BitVec 2 := flags.extractLsb' 3 2
/-- `flags[7:5]`, ENC, carried and never acted on (30 R75, R86). -/
def flagEnc (flags : Byte) : BitVec 3 := flags.extractLsb' 5 3

/-- The flag byte with CHK set, for a byte whose CHK is 0: `fl + 4` (42 R132). -/
def withChk (flags : Byte) : Byte := flags + 4

/-- `metaLen(flags)` (00 R16). -/
def metaLen (flags : Byte) : Nat :=
  (if flagCorr flags ≠ 0#2 then 2 else 0)
    + (if flagChk flags then 12 else 0)
    + (if flagCmode flags ≠ 0#2 then 4 else 0)

end Sys2Proof.Machine
end

