-- ==== Sys2Proof/Machine/Operands.lean ====
section
/-! DEFINITION. Operand assembly (30_encoding.md R70, R87): each operand a command takes from the ARG
registers, at its full 32 bits or at the bit range R70 writes, as a natural number or a field. -/

namespace Sys2Proof.Machine

/-- ARG0, full width: an SRC address, a DST address, an offset or a skip (R70). -/
abbrev opArg0 (s : State) : Nat := s.args.a0.toNat
/-- ARG1, full width: a byte count or a length (R70). -/
abbrev opArg1 (s : State) : Nat := s.args.a1.toNat
/-- ARG2, full width: a DST address or a skip (R70). -/
abbrev opArg2 (s : State) : Nat := s.args.a2.toNat
/-- ARG3, full width: CR.RECV's packetID (R70). -/
abbrev opPid (s : State) : Word := s.args.a3
/-- ARG4, full width: CR.RECV's chunk offset (R70). -/
abbrev opOffset (s : State) : Nat := s.args.a4.toNat
/-- ARG5, full width: CR.RECV's total length (R70). -/
abbrev opTotal (s : State) : Nat := s.args.a5.toNat
/-- `ARG6[15:0]`: CR.RECV's connection (R70). -/
abbrev opRecvConn (s : State) : Half := s.args.a6.extractLsb' 0 16
/-- `ARG0[15:0]`: CR.EVICTCONN's connection (R70). -/
abbrev opEvictConn (s : State) : Half := s.args.a0.extractLsb' 0 16
/-- `ARG0[7:0]`: PC.HCS's flag byte (R70). -/
abbrev opHcsFlags (s : State) : Byte := s.args.a0.extractLsb' 0 8
/-- `ARG1[15:0]`: PC.HCS's id (R70). -/
abbrev opHcsId (s : State) : Half := s.args.a1.extractLsb' 0 16
/-- `ARG2[15:0]`: PC.HCS's length (R70). -/
abbrev opHcsLen (s : State) : Half := s.args.a2.extractLsb' 0 16

end Sys2Proof.Machine
end

