-- ==== Sys2Proof/Machine/Csr.lean ====
section
/-! DEFINITION. The CSR map (10_state.md R20 to R34): addresses, widths, access, what the host reads and what a
host write keeps. -/

namespace Sys2Proof.Machine

/-- A row of R21: address, register, width in bits, and whether the host may write it. -/
structure CsrRow where
  addr : Nat
  reg  : Csr
  bits : Nat
  rw   : Bool
deriving DecidableEq, Repr

/-- R21, addresses 0x000 to 0x02C. -/
def csrRowsArgs : List CsrRow :=
  [⟨0x000, .cmd, 32, true⟩, ⟨0x004, .status, 8, false⟩, ⟨0x008, .connId, 16, true⟩, ⟨0x00C, .pktCtr, 32, true⟩,
   ⟨0x010, .arg0, 32, true⟩, ⟨0x014, .arg1, 32, true⟩, ⟨0x018, .arg2, 32, true⟩, ⟨0x01C, .arg3, 32, true⟩,
   ⟨0x020, .arg4, 32, true⟩, ⟨0x024, .arg5, 32, true⟩, ⟨0x028, .arg6, 32, true⟩, ⟨0x02C, .arg7, 32, true⟩]

/-- R21, addresses 0x030 to 0x050. -/
def csrRowsResults : List CsrRow :=
  [⟨0x030, .res0, 32, false⟩, ⟨0x034, .res1, 32, false⟩, ⟨0x038, .res2, 32, false⟩, ⟨0x03C, .res3, 32, false⟩,
   ⟨0x040, .hdrFlags, 8, false⟩, ⟨0x044, .hdrId, 16, false⟩, ⟨0x048, .hdrLen, 16, false⟩,
   ⟨0x04C, .hdrCksum, 16, false⟩, ⟨0x050, .hdrCalc, 16, false⟩]

/-- R21, addresses 0x060 to 0x0A4. -/
def csrRowsFrames : List CsrRow :=
  [⟨0x060, .txFlags, 8, true⟩, ⟨0x064, .txId, 16, true⟩, ⟨0x068, .txReqid, 16, true⟩, ⟨0x06C, .txPktid, 32, true⟩,
   ⟨0x070, .txOffset, 32, true⟩, ⟨0x074, .txTotal, 32, true⟩, ⟨0x078, .txUlen, 32, true⟩,
   ⟨0x07C, .txMaxpl, 32, true⟩,
   ⟨0x080, .rxFlags, 8, false⟩, ⟨0x084, .rxId, 16, false⟩, ⟨0x088, .rxReqid, 16, false⟩,
   ⟨0x08C, .rxPktid, 32, false⟩, ⟨0x090, .rxOffset, 32, false⟩, ⟨0x094, .rxTotal, 32, false⟩,
   ⟨0x098, .rxUlen, 32, false⟩, ⟨0x09C, .rxLen, 32, false⟩, ⟨0x0A0, .rxPcsCalc, 16, false⟩,
   ⟨0x0A4, .rxPcsRcvd, 16, false⟩]

/-- R21, addresses 0x0C0 to 0x0E4. -/
def csrRowsViews : List CsrRow :=
  [⟨0x0C0, .rbRd, 32, false⟩, ⟨0x0C4, .rbCnt, 32, false⟩, ⟨0x0C8, .rbCapr, 32, false⟩, ⟨0x0CC, .crUsed, 32, false⟩,
   ⟨0x0D0, .crEvicts, 32, false⟩, ⟨0x0D4, .cfgCr, 32, false⟩, ⟨0x0D8, .cfgMaxtot, 32, false⟩,
   ⟨0x0DC, .cfgIdle, 32, false⟩, ⟨0x0E0, .cfgSrc, 32, false⟩, ⟨0x0E4, .cfgDst, 32, false⟩]

/-- The CSR map of R21. No other address holds a register. -/
def csrMap : List CsrRow := csrRowsArgs ++ csrRowsResults ++ csrRowsFrames ++ csrRowsViews

/-- The address of a register (R21). -/
def csrAddr (r : Csr) : Nat :=
  match csrMap.find? (fun row => row.reg == r) with
  | some row => row.addr
  | none => 0

/-- The register at a host address: the address is rounded down to a multiple of 4 (R20). -/
def csrAt (addr : Nat) : Option Csr :=
  (csrMap.find? (fun row => row.addr == addr / 4 * 4)).map (·.reg)

/-- `R(NAME)` as the host reads it, zero-extended to 32 bits (R20, R22 to R34). -/
def readCsr (s : State) : Csr → Word
  | .cmd => s.cmd
  | .status => s.status.code.setWidth 32
  | .connId => s.connId.setWidth 32
  | .pktCtr => s.pktCtr
  | .arg0 => s.args.a0
  | .arg1 => s.args.a1
  | .arg2 => s.args.a2
  | .arg3 => s.args.a3
  | .arg4 => s.args.a4
  | .arg5 => s.args.a5
  | .arg6 => s.args.a6
  | .arg7 => s.args.a7
  | .res0 => s.res.r0
  | .res1 => s.res.r1
  | .res2 => s.res.r2
  | .res3 => s.res.r3
  | .hdrFlags => s.hdr.flags.setWidth 32
  | .hdrId => s.hdr.id.setWidth 32
  | .hdrLen => s.hdr.len.setWidth 32
  | .hdrCksum => s.hdr.cksum.setWidth 32
  | .hdrCalc => s.hdr.computed.setWidth 32
  | .txFlags => s.tx.flags.setWidth 32
  | .txId => s.tx.id.setWidth 32
  | .txReqid => s.tx.reqid.setWidth 32
  | .txPktid => s.tx.pktid
  | .txOffset => s.tx.offset
  | .txTotal => s.tx.total
  | .txUlen => s.tx.ulen
  | .txMaxpl => s.tx.maxpl
  | .rxFlags => s.rx.flags.setWidth 32
  | .rxId => s.rx.id.setWidth 32
  | .rxReqid => s.rx.reqid.setWidth 32
  | .rxPktid => s.rx.pktid
  | .rxOffset => s.rx.offset
  | .rxTotal => s.rx.total
  | .rxUlen => s.rx.ulen
  | .rxLen => s.rx.len
  | .rxPcsCalc => s.rx.pcsCalc.setWidth 32
  | .rxPcsRcvd => s.rx.pcsRcvd.setWidth 32
  | .rbRd => BitVec.ofNat 32 s.ring.rd
  | .rbCnt => BitVec.ofNat 32 s.ring.cnt
  | .rbCapr => BitVec.ofNat 32 (ringCap s.params)
  | .crUsed => BitVec.ofNat 32 (slotsUsed s.slots)
  | .crEvicts => s.crEvicts
  | .cfgCr => BitVec.ofNat 32 (s.params.crSlots + 65536 * (if s.params.crTimed then 1 else 0))
  | .cfgMaxtot => BitVec.ofNat 32 s.params.crMaxTotal
  | .cfgIdle => BitVec.ofNat 32 s.params.crIdleTicks
  | .cfgSrc => BitVec.ofNat 32 s.params.srcSize
  | .cfgDst => BitVec.ofNat 32 s.params.dstSize

/-- A host write of a register other than CMD: a RW register keeps its own bits, a RO register does not
change (R20). CMD is stored by the command port (R22). -/
def writeCsr (r : Csr) (v : Word) (s : State) : State :=
  match r with
  | .connId => { s with connId := v.setWidth 16 }
  | .pktCtr => { s with pktCtr := v }
  | .arg0 => { s with args := { s.args with a0 := v } }
  | .arg1 => { s with args := { s.args with a1 := v } }
  | .arg2 => { s with args := { s.args with a2 := v } }
  | .arg3 => { s with args := { s.args with a3 := v } }
  | .arg4 => { s with args := { s.args with a4 := v } }
  | .arg5 => { s with args := { s.args with a5 := v } }
  | .arg6 => { s with args := { s.args with a6 := v } }
  | .arg7 => { s with args := { s.args with a7 := v } }
  | .txFlags => { s with tx := { s.tx with flags := v.setWidth 8 } }
  | .txId => { s with tx := { s.tx with id := v.setWidth 16 } }
  | .txReqid => { s with tx := { s.tx with reqid := v.setWidth 16 } }
  | .txPktid => { s with tx := { s.tx with pktid := v } }
  | .txOffset => { s with tx := { s.tx with offset := v } }
  | .txTotal => { s with tx := { s.tx with total := v } }
  | .txUlen => { s with tx := { s.tx with ulen := v } }
  | .txMaxpl => { s with tx := { s.tx with maxpl := v } }
  | .cmd | .status | .res0 | .res1 | .res2 | .res3 => s
  | .hdrFlags | .hdrId | .hdrLen | .hdrCksum | .hdrCalc => s
  | .rxFlags | .rxId | .rxReqid | .rxPktid | .rxOffset | .rxTotal | .rxUlen | .rxLen | .rxPcsCalc | .rxPcsRcvd => s
  | .rbRd | .rbCnt | .rbCapr | .crUsed | .crEvicts => s
  | .cfgCr | .cfgMaxtot | .cfgIdle | .cfgSrc | .cfgDst => s

end Sys2Proof.Machine
end

