-- ==== Sys2Proof/Machine/Control.lean ====
section
/-! DEFINITION. NOP (44_control.md R170). -/

namespace Sys2Proof.Machine

/-- NOP (R170) does nothing but report success. -/
def execNop (s : State) : Host.Outcome State Fault Refusal := commit (.ok (s.withStatus .ok))

end Sys2Proof.Machine
end

