-- ==== Sys2Proof/Machine/Codec.lean ====
section
/-! DEFINITION. The primitive functions of 00_scope.md (R7, R11 to R19) and the frame functions of 30_encoding.md
(R77, R88 to R90), over byte sequences. -/

namespace Sys2Proof.Machine

/-! ## The fixed constants of 00 R7 -/

abbrev hdrSize : Nat := 7
abbrev maxDataLen : Nat := 65535
abbrev minDataLen : Nat := 4
abbrev maxplLimit : Nat := 65257

/-! ## Little-endian fields (00 R11) -/

/-- `le16(v)` -/
def le16 (v : Nat) : List Byte := [BitVec.ofNat 8 v, BitVec.ofNat 8 (v / 256)]

/-- `le32(v)` -/
def le32 (v : Nat) : List Byte :=
  [BitVec.ofNat 8 v, BitVec.ofNat 8 (v / 256), BitVec.ofNat 8 (v / 65536), BitVec.ofNat 8 (v / 16777216)]

/-- `s[i]` as a number. Every use is at an index below `|s|`. -/
def byteAt (s : List Byte) (i : Nat) : Nat := (s.getD i 0).toNat

/-- `rd16(s, i)` -/
def rd16 (s : List Byte) (i : Nat) : Nat := byteAt s i + 256 * byteAt s (i + 1)

/-- `rd32(s, i)` -/
def rd32 (s : List Byte) (i : Nat) : Nat :=
  byteAt s i + 256 * byteAt s (i + 1) + 65536 * byteAt s (i + 2) + 16777216 * byteAt s (i + 3)

/-! ## Checksums (00 R12, R19) -/

/-- R12's loop over the rest of the sequence, from the sums `s1` and `s2`. -/
def f16From (s1 s2 : Nat) : List Byte → Nat
  | [] => s2 * 256 + s1
  | b :: bs => f16From ((s1 + b.toNat) % 255) ((s2 + (s1 + b.toNat) % 255) % 255) bs

/-- `F16(s)` (R12) -/
def f16 (s : List Byte) : Nat := f16From 0 0 s

/-- `HCS(flags, id, len)` (R19) -/
def hcs (flags : Byte) (id len : Half) : Nat := f16 (flags :: le16 id.toNat ++ le16 len.toNat)

/-! ## Byte stuffing (00 R13, R14) -/

/-- R13's loop over the rest of the data, with `g` the data bytes of the open group, so that
`code = |g| + 1`: a group is written, code byte first, when it closes (log 7). -/
def cobsFrom (g : List Byte) : List Byte → List Byte
  | [] => BitVec.ofNat 8 (g.length + 1) :: g
  | b :: d =>
    if b = 0#8 then (BitVec.ofNat 8 (g.length + 1) :: g) ++ cobsFrom [] d
    else if g.length + 2 = 0xFF then (0xFF#8 :: (g ++ [b])) ++ cobsFrom [] d
    else cobsFrom (g ++ [b]) d

/-- `COBS(d)` (R13) -/
def cobs (d : List Byte) : List Byte := cobsFrom [] d

/-- R14's loop over the rest of the region: `k` data bytes of the open group are still to come, and `z`
says that a zero is due before the next group, its code not having been 0xFF (log 7). -/
def uncobsFrom (k : Nat) (z : Bool) : List Byte → Option (List Byte)
  | [] => if k = 0 then some [] else none
  | b :: e =>
    if b = 0#8 then none
    else
      match k with
      | 0 => (uncobsFrom (b.toNat - 1) (b != 0xFF#8) e).map (fun out => if z then 0#8 :: out else out)
      | k + 1 => (uncobsFrom k z e).map (b :: ·)

/-- `UNCOBS(e)` (R14), with none for `BAD` -/
def uncobs (e : List Byte) : Option (List Byte) := uncobsFrom 0 false e

/-- `STUFF(content)` (R17) -/
def stuff (content : List Byte) : List Byte := cobs (content ++ le16 (f16 content)) ++ [0#8]

/-- What `UNSTUFF` returns when it does not return `BAD` (R18). -/
structure Unstuffed where
  content  : List Byte
  carried  : Nat
  computed : Nat
deriving DecidableEq, Repr

/-- The content and checksums of un-stuffed bytes of which at least 2 are left (R18). -/
def splitChecksum (r : List Byte) : Unstuffed where
  content  := r.take (r.length - 2)
  carried  := rd16 r (r.length - 2)
  computed := f16 (r.take (r.length - 2))

/-- `UNSTUFF(region)` (R18), with none for `BAD` -/
def unstuff (region : List Byte) : Option Unstuffed :=
  match uncobs region with
  | none => none
  | some r => if r.length < 2 then none else some (splitChecksum r)

/-! ## Frames (30 R77, R88 to R90) -/

/-- The metadata fields of a frame, each 0 when absent (30 R77, R89). -/
structure MetaFields where
  reqid  : Half
  pktid  : Word
  offset : Word
  total  : Word
  ulen   : Word
deriving DecidableEq, Repr

/-- `META(flags, reqid, pid, off, tot, ulen)` (30 R77) -/
def metaBytes (flags : Byte) (m : MetaFields) : List Byte :=
  (if flagCorr flags ≠ 0#2 then le16 m.reqid.toNat else [])
    ++ (if flagChk flags then le32 m.pktid.toNat ++ le32 m.offset.toNat ++ le32 m.total.toNat else [])
    ++ (if flagCmode flags ≠ 0#2 then le32 m.ulen.toNat else [])

/-- `PARSEHDR(h)` for 7 bytes `h` (30 R88), as the HDR registers hold it (10 R28). -/
def parseHdr (h : List Byte) : HdrRegs :=
  let flags := h.getD 0 0
  let id := BitVec.ofNat 16 (rd16 h 1)
  let len := BitVec.ofNat 16 (rd16 h 3)
  { flags := flags
    id := id
    len := len
    cksum := BitVec.ofNat 16 (rd16 h 5)
    computed := BitVec.ofNat 16 (hcs flags id len) }

/-- `PARSEMETA(flags, body)` (30 R89): the metadata and the payload. Every use has `|body| >= metaLen(flags)`. -/
def parseMeta (flags : Byte) (body : List Byte) : MetaFields × List Byte :=
  let i := if flagCorr flags ≠ 0#2 then 2 else 0
  let j := if flagChk flags then i + 12 else i
  let k := if flagCmode flags ≠ 0#2 then j + 4 else j
  ({ reqid := if flagCorr flags ≠ 0#2 then BitVec.ofNat 16 (rd16 body 0) else 0
     pktid := if flagChk flags then BitVec.ofNat 32 (rd32 body i) else 0
     offset := if flagChk flags then BitVec.ofNat 32 (rd32 body (i + 4)) else 0
     total := if flagChk flags then BitVec.ofNat 32 (rd32 body (i + 8)) else 0
     ulen := if flagCmode flags ≠ 0#2 then BitVec.ofNat 32 (rd32 body j) else 0 },
   body.drop k)

/-- What `BUILDFRAME` returns when the frame is not too long (30 R90). -/
structure BuiltFrame where
  bytes : List Byte
  pcs   : Nat
  hcs   : Nat
deriving DecidableEq, Repr

/-- `BUILDFRAME(flags, id, reqid, pid, off, tot, ulen, p)` (30 R90), with none for `TOO_LONG` -/
def buildFrame (flags : Byte) (id : Half) (m : MetaFields) (p : List Byte) : Option BuiltFrame :=
  let content := metaBytes flags m ++ p
  let region := stuff content
  if region.length > maxDataLen then none
  else
    let hcs := hcs flags id (BitVec.ofNat 16 region.length)
    some { bytes := flags :: le16 id.toNat ++ le16 region.length ++ le16 hcs ++ region
           pcs := f16 content
           hcs := hcs }

/-- The pieces of a payload of more than `M` bytes, each with its offset, `ceil(n / M)` of them in order
(42 R132). -/
def chunkPieces (M : Nat) (p : List Byte) : List (Nat × List Byte) :=
  (List.range ((p.length + M - 1) / M)).map (fun j => (j * M, (p.drop (j * M)).take M))

/-- The bytes of the frames, one after the other, or none if one of them is too long. -/
def joinFrames : List (Option BuiltFrame) → Option (List Byte)
  | [] => some []
  | none :: _ => none
  | some f :: fs => (joinFrames fs).map (f.bytes ++ ·)

end Sys2Proof.Machine
end

