-- ==== Sys2Proof/Machine/Reassembler.lean ====
section
/-! DEFINITION. The chunk reassembler (43_chunk_reassembler.md): the core CRCORE (R151), the idle tick (R158) and the
commands CR.RECV, CR.TICK and CR.EVICTCONN (R157, R159, R160). -/

namespace Sys2Proof.Machine

/-- What CRCORE returns (R151): OUT_OF_RANGE, having changed nothing, or a status, a value and what the
slots and DST become at the calling command's commit. -/
inductive CrResult where
  | outOfRange
  | done (status : Status) (value : Nat) (slots : List Slot) (dst : Memory)
deriving DecidableEq, Repr

/-- A slot as the first chunk of a key takes it (R151, R152): the key and the total, no byte filled. DATA
has no written byte, as 10 R47 requires of a valid slot (log 6). -/
def Slot.fresh (conn : Half) (pid : Word) (tot : Nat) : Slot where
  valid := true
  conn  := conn
  pid   := pid
  total := BitVec.ofNat 32 tot
  rem   := BitVec.ofNat 32 tot
  fill  := []
  data  := []
  idle  := 0

/-- The chunk recorded in a slot (R155): copied to DATA, marked in FILL, `REM <- rem`, `IDLE <- 0`. -/
def Slot.record (sl : Slot) (off : Nat) (data : List Byte) (rem : Nat) : Slot :=
  { sl with
    data := sl.data.writeBytes off data
    fill := fillRange sl.fill off data.length
    rem  := BitVec.ofNat 32 rem
    idle := 0 }

/-- The end of CRCORE for a chunk that is neither a violation nor refused (R151, R155, R156): `sl` is
slot `k` as found or freshly taken, `rem` the bytes missing once the chunk is recorded. -/
def crAccept (s : State) (k : Nat) (sl : Slot) (rem off tot : Nat) (data : List Byte) (d : Nat) :
    Except Fault CrResult :=
  if rem = 0 ∧ ¬ inDst s d tot then .ok .outOfRange
  else
    let sl' := sl.record off data rem
    if rem = 0 then do
      let bs ← sl'.data.fetch .slotData 0 tot
      .ok (.done .assembled tot (s.slots.set k sl'.release) (s.dst.writeBytes d bs))
    else .ok (.done .chunkAccepted rem (s.slots.set k sl') s.dst)

/-- `CRCORE(conn, pid, off, n, tot, data, d)` (R151), with `n = |data|`. -/
def crCore (s : State) (conn : Half) (pid : Word) (off tot : Nat) (data : List Byte) (d : Nat) :
    Except Fault CrResult :=
  let n := data.length
  match findSlot s.slots conn pid with
  | some k =>
    let sl := slotAt s.slots k
    if tot ≠ sl.total.toNat ∨ n = 0 ∨ off + n > tot ∨ fillOverlaps sl.fill off n = true then
      .ok (.done .chunkViolation 0 (s.slots.set k sl.release) s.dst)
    else crAccept s k sl (sl.rem.toNat - n) off tot data d
  | none =>
    if tot = 0 ∨ n = 0 ∨ off + n > tot then .ok (.done .chunkViolation 0 s.slots s.dst)
    else if tot > s.params.crMaxTotal then .ok (.done .allocFail 0 s.slots s.dst)
    else
      match freeSlot s.slots with
      | none => .ok (.done .allocFail 0 s.slots s.dst)
      | some k => crAccept s k (Slot.fresh conn pid tot) (tot - n) off tot data d

/-- One slot's share of a tick in the timed variant (R158). -/
def Slot.tick (idleTicks : Nat) (sl : Slot) : Slot :=
  if sl.valid then
    { sl with
      idle := BitVec.ofNat 32 (sl.idle.toNat + 1)
      valid := !decide (sl.idle.toNat + 1 ≥ idleTicks) }
  else sl

/-- A tick evicts this slot (R158). -/
def Slot.expires (idleTicks : Nat) (sl : Slot) : Bool :=
  sl.valid && decide (sl.idle.toNat + 1 ≥ idleTicks)

/-- The number of slots a tick evicts: the value `TICK()` returns (R158). -/
def tickEvicts (s : State) : Nat :=
  if s.params.crTimed then s.slots.countP (Slot.expires s.params.crIdleTicks) else 0

/-- What `TICK()` does to the state (R158). -/
def State.tickSlots (s : State) : State :=
  if s.params.crTimed then
    (s.withSlots (s.slots.map (Slot.tick s.params.crIdleTicks))).withEvicts
      (BitVec.ofNat 32 (s.crEvicts.toNat + tickEvicts s))
  else s

/-- CR.RECV (R157): one chunk, held in SRC, to the reassembler core. -/
def execCrRecv (s : State) : Host.Outcome State Fault Refusal :=
  let a := opArg0 s
  let n := opArg1 s
  let d := opArg2 s
  commit (if ¬ inSrc s a n then s.raise .outOfRange
    else do
      let data ← s.srcBytes a n
      match ← crCore s (opRecvConn s) (opPid s) (opOffset s) (opTotal s) data d with
      | .outOfRange => s.raise .outOfRange
      | .done st x slots dst => .ok ((((s.withSlots slots).withDst dst).withRes0 x).withStatus st))

/-- CR.TICK (R159): one tick as a command. -/
def execCrTick (s : State) : Host.Outcome State Fault Refusal :=
  commit (.ok ((s.tickSlots.withRes0 (tickEvicts s)).withStatus .ok))

/-- The slot is one of connection `c`'s (R160). -/
def Slot.ofConn (c : Half) (sl : Slot) : Bool := sl.valid && sl.conn == c

/-- CR.EVICTCONN (R160): discard every in-progress reassembly of one connection. -/
def execCrEvictconn (s : State) : Host.Outcome State Fault Refusal :=
  let c := opEvictConn s
  commit (.ok (((s.withSlots (s.slots.map (fun sl => if sl.ofConn c then sl.release else sl))).withRes0
    (s.slots.countP (Slot.ofConn c))).withStatus .ok))

end Sys2Proof.Machine
end

