-- ==== Sys2Proof/Machine/FrameCodec.lean ====
section
/-! DEFINITION. The frame codec's commands (42_frame_codec.md R131 to R137). -/

namespace Sys2Proof.Machine

/-- The metadata fields FC.BUILD takes from the TX registers (R131). -/
def txMeta (s : State) : MetaFields where
  reqid  := s.tx.reqid
  pktid  := s.tx.pktid
  offset := s.tx.offset
  total  := s.tx.total
  ulen   := s.tx.ulen

/-- FC.BUILD (R131): one frame around `SRC[a..a+n)`, every field from the TX registers. -/
def execFcBuild (s : State) : Host.Outcome State Fault Refusal :=
  let a := opArg0 s
  let n := opArg1 s
  let d := opArg2 s
  commit (if ¬ inSrc s a n then s.raise .outOfRange
    else do
      let p ← s.srcBytes a n
      match buildFrame s.tx.flags s.tx.id (txMeta s) p with
      | none => s.raise .tooLong
      | some f =>
        if ¬ inDst s d f.bytes.length then s.raise .outOfRange
        else .ok (((((s.withDst (s.dst.writeBytes d f.bytes)).withRes0 f.bytes.length).withRes1 f.pcs).withRes2
          f.hcs).withStatus .ok))

/-- The next packetID (10 R27, R132): `PKT_CTR + 1 mod 2^32`, or 1 if that is 0. -/
def nextPid (s : State) : Word := if s.pktCtr + 1 = 0 then 1 else s.pktCtr + 1

/-- FC.SEND's frames for the payload `p` (R132): one unchunked frame if it is no longer than TX_MAXPL,
else its chunks in order with the packetID `nextPid`. -/
def sendFrames (s : State) (p : List Byte) : List (Option BuiltFrame) :=
  let M := s.tx.maxpl.toNat
  if p.length ≤ M then
    [buildFrame s.tx.flags s.tx.id { reqid := s.tx.reqid, pktid := 0, offset := 0, total := 0, ulen := s.tx.ulen } p]
  else
    (chunkPieces M p).map (fun c =>
      buildFrame (withChk s.tx.flags) s.tx.id
        { reqid := s.tx.reqid
          pktid := nextPid s
          offset := BitVec.ofNat 32 c.1
          total := BitVec.ofNat 32 p.length
          ulen := s.tx.ulen } c.2)

/-- FC.SEND (R132): one frame, or a chunk sequence with a freshly allocated packetID. With TX_MAXPL at most
`MAXPL_LIMIT` no frame is too long (30 R83), so the arm that would raise TOO_LONG is not reached (log 9). -/
def execFcSend (s : State) : Host.Outcome State Fault Refusal :=
  let a := opArg0 s
  let n := opArg1 s
  let d := opArg2 s
  let M := s.tx.maxpl.toNat
  commit (if flagChk s.tx.flags = true ∨ M < 1 ∨ M > maxplLimit then s.raise .illegalArg
    else if ¬ inSrc s a n then s.raise .outOfRange
    else do
      let p ← s.srcBytes a n
      let frames := sendFrames s p
      match joinFrames frames with
      | none => s.raise .tooLong
      | some out =>
        if ¬ inDst s d out.length then s.raise .outOfRange
        else
          let pid := if n ≤ M then 0 else nextPid s
          .ok ((((((s.withDst (s.dst.writeBytes d out)).withPktCtr (if n ≤ M then s.pktCtr else pid)).withRes0
            out.length).withRes1 frames.length).withRes2 pid.toNat).withStatus .ok))

/-- What TRYPARSE returns (R133). -/
inductive Parse where
  | needMore | hdrCorrupt | frame
deriving DecidableEq, Repr

/-- The status that reports a TRYPARSE result (R134). -/
def Parse.status : Parse → Status
  | .needMore => .needMore
  | .hdrCorrupt => .hdrCorrupt
  | .frame => .ok

/-- `TRYPARSE()` (R133): its result, and what the HDR registers become. -/
def tryParse (s : State) : Except Fault (Parse × HdrRegs) :=
  if s.ring.cnt < hdrSize then .ok (.needMore, s.hdr)
  else do
    let h := parseHdr (← ringBytes s 0 hdrSize)
    let L := h.len.toNat
    if h.cksum ≠ h.computed then .ok (.hdrCorrupt, h)
    else if L < minDataLen ∨ hdrSize + L > ringCap s.params then .ok (.hdrCorrupt, h)
    else if s.ring.cnt < hdrSize + L then .ok (.needMore, h)
    else do
      let b ← ringByte s (hdrSize + L - 1)
      .ok (if b ≠ 0#8 then (.hdrCorrupt, h) else (.frame, h))

/-- FC.TRYPARSE (R134): run TRYPARSE and report it, consuming nothing. -/
def execFcTryparse (s : State) : Host.Outcome State Fault Refusal :=
  commit (do
    let (t, h) ← tryParse s
    let s1 := s.withHdr h
    .ok ((if t = .frame then s1.withRes0 (hdrSize + h.len.toNat) else s1).withStatus t.status))

/-- `FAIL(code)` (R135): resynchronise past the first 0x00 of the ring, or past everything, and stop. -/
def recvFail (code : Status) (s : State) : Except Fault State := do
  let (_, k) ← scan s 0 0#8
  .ok ((((s.advance k).withRes0 k).withRes1 0).withStatus code)

/-- The end of FC.RECV for a valid frame (R135): the RX registers, the consumption, RES0, RES1, STATUS. -/
def recvDone (s : State) (m : MetaFields) (plen : Nat) (u : Unstuffed) (v : Nat) (st : Status) : State :=
  let n := hdrSize + s.hdr.len.toNat
  (((((s.withRx { flags := s.hdr.flags, id := s.hdr.id, reqid := m.reqid, pktid := m.pktid, offset := m.offset,
                  total := m.total, ulen := m.ulen, len := BitVec.ofNat 32 plen,
                  pcsCalc := BitVec.ofNat 16 u.computed, pcsRcvd := BitVec.ofNat 16 u.carried }).advance n).withRes0
    n).withRes1 v).withStatus st)

/-- FC.RECV for a frame whose header, stuffing and checksums are valid (R135, R137). `s0` is the state the
command started in, which OUT_OF_RANGE keeps but for STATUS; `s` is `s0` with the frame's HDR registers. -/
def recvDeliver (s0 s : State) (u : Unstuffed) : Except Fault State :=
  let d := opArg0 s0
  let (m, p) := parseMeta s.hdr.flags u.content
  if flagChk s.hdr.flags then do
    match ← crCore s s.connId m.pktid m.offset.toNat m.total.toNat p d with
    | .outOfRange => s0.raise .outOfRange
    | .done st _ slots dst =>
      .ok (recvDone ((s.withSlots slots).withDst dst) m p.length u (if st = .assembled then m.total.toNat else 0) st)
  else if ¬ inDst s d p.length then s0.raise .outOfRange
  else .ok (recvDone (s.withDst (s.dst.writeBytes d p)) m p.length u p.length .ok)

/-- FC.RECV for the whole frame that TRYPARSE found at the front of the ring (R135). -/
def recvFrame (s0 s : State) : Except Fault State := do
  let region ← ringBytes s hdrSize (s.hdr.len.toNat - 1)
  match uncobs region with
  | none => recvFail .plMalformed s
  | some r =>
    if r.length < 2 + metaLen s.hdr.flags then recvFail .plMalformed s
    else
      let u := splitChecksum r
      if u.computed ≠ u.carried then
        recvFail .plChecksum (s.withRx { s.rx with
          pcsCalc := BitVec.ofNat 16 u.computed, pcsRcvd := BitVec.ofNat 16 u.carried })
      else recvDeliver s0 s u

/-- FC.RECV (R135): one pass of the receive loop. -/
def execFcRecv (s : State) : Host.Outcome State Fault Refusal :=
  commit (do
    let (t, h) ← tryParse s
    let s1 := s.withHdr h
    match t with
    | .needMore => .ok (((s1.withRes0 0).withRes1 0).withStatus .needMore)
    | .hdrCorrupt => recvFail .hdrCorrupt s1
    | .frame => recvFrame s s1)

end Sys2Proof.Machine
end

