-- ==== Sys2Proof/Machine/PayloadCodec.lean ====
section
/-! DEFINITION. The payload codec's commands (41_payload_codec.md R121 to R123). -/

namespace Sys2Proof.Machine

/-- PC.ENCODE (R121): stuff and checksum `SRC[a..a+n)` into DST, terminator included. -/
def execPcEncode (s : State) : Host.Outcome State Fault Refusal :=
  let a := opArg0 s
  let n := opArg1 s
  let d := opArg2 s
  commit (if ¬ inSrc s a n then s.raise .outOfRange
    else do
      let c ← s.srcBytes a n
      let e := stuff c
      if ¬ inDst s d e.length then s.raise .outOfRange
      else .ok ((((s.withDst (s.dst.writeBytes d e)).withRes0 e.length).withRes1 (f16 c)).withStatus .ok))

/-- PC.DECODE (R122): un-stuff `SRC[a..a+m)` into DST and report both checksums. After PL_MALFORMED the
`m` bytes of DST are free values, each written (93 I12, log 5). -/
def execPcDecode (s : State) : Host.Outcome State Fault Refusal :=
  let a := opArg0 s
  let m := opArg1 s
  let d := opArg2 s
  commit (if ¬ inSrc s a m ∨ ¬ inDst s d m then s.raise .outOfRange
    else do
      let region ← s.srcBytes a m
      match unstuff region with
      | none =>
        .ok ((((s.withDst (s.dst.writeBytes d (freeBytes s.freeCtr m))).withFreeCtr (s.freeCtr + m)).withRes0
          0).withStatus .plMalformed)
      | some u =>
        .ok (((((s.withDst (s.dst.writeBytes d u.content)).withRes0 u.content.length).withRes1
          u.computed).withRes2 u.carried).withStatus (if u.computed = u.carried then .ok else .plChecksum)))

/-- PC.HCS (R123): the header checksum of a flag byte, an id and a length. -/
def execPcHcs (s : State) : Host.Outcome State Fault Refusal :=
  commit (.ok ((s.withRes0 (hcs (opHcsFlags s) (opHcsId s) (opHcsLen s))).withStatus .ok))

end Sys2Proof.Machine
end

