-- ==== Sys2Proof/Machine/RingUnit.lean ====
section
/-! DEFINITION. The ring unit's commands (40_ringbuffer.md R101 to R107). -/

namespace Sys2Proof.Machine

/-- RB.WRITE (R101): append `SRC[a..a+n)` to the ring, as many bytes as fit. Only those bytes are read. -/
def execRbWrite (s : State) : Host.Outcome State Fault Refusal :=
  let a := opArg0 s
  let n := opArg1 s
  let k := min n (ringCap s.params - s.ring.cnt)
  commit (if ¬ inSrc s a n then s.raise .outOfRange
    else do
      let bs ← s.srcBytes a k
      .ok (((s.ringAppend bs).withRes0 k).withStatus .ok))

/-- RB.READ (R102): copy `n` bytes from `skip` on to DST and consume the `skip + n` oldest. -/
def execRbRead (s : State) : Host.Outcome State Fault Refusal :=
  let d := opArg0 s
  let n := opArg1 s
  let skip := opArg2 s
  commit (if ¬ inDst s d n then s.raise .outOfRange
    else if s.ring.cnt < skip + n then .ok ((s.withRes0 0).withStatus .needMore)
    else do
      let bs ← ringBytes s skip n
      .ok ((((s.withDst (s.dst.writeBytes d bs)).advance (skip + n)).withRes0 n).withStatus .ok))

/-- RB.PEEK (R103): RB.READ without the consumption. -/
def execRbPeek (s : State) : Host.Outcome State Fault Refusal :=
  let d := opArg0 s
  let n := opArg1 s
  let skip := opArg2 s
  commit (if ¬ inDst s d n then s.raise .outOfRange
    else if s.ring.cnt < skip + n then .ok ((s.withRes0 0).withStatus .needMore)
    else do
      let bs ← ringBytes s skip n
      .ok (((s.withDst (s.dst.writeBytes d bs)).withRes0 n).withStatus .ok))

/-- RB.PEEKB (R104): one unconsumed byte into RES0. -/
def execRbPeekb (s : State) : Host.Outcome State Fault Refusal :=
  let off := opArg0 s
  commit (if off ≥ s.ring.cnt then .ok ((s.withRes0 0).withStatus .needMore)
    else do
      let b ← ringByte s off
      .ok ((s.withRes0 b.toNat).withStatus .ok))

/-- RB.PEEKHDR (R105): the 7 bytes from `skip` on into the HDR registers, not validated. -/
def execRbPeekhdr (s : State) : Host.Outcome State Fault Refusal :=
  let skip := opArg0 s
  commit (if s.ring.cnt < skip + hdrSize then .ok (s.withStatus .needMore)
    else do
      let h ← ringBytes s skip hdrSize
      .ok ((s.withHdr (parseHdr h)).withStatus .ok))

/-- RB.SKIPUNTIL (R106): consume up to and including the first `v` at or after `skip`. -/
def execRbSkipuntil (v : Byte) (s : State) : Host.Outcome State Fault Refusal :=
  let skip := opArg0 s
  commit (do
    let (found, k) ← scan s skip v
    .ok ((((s.advance k).withRes0 k).withRes1 (if found then 1 else 0)).withStatus
      (if found then .ok else .notFound)))

/-- RB.CLEAR (R107): empty the ring; RING keeps its bytes. -/
def execRbClear (s : State) : Host.Outcome State Fault Refusal :=
  commit (.ok ((s.withRing { s.ring with rd := 0, cnt := 0 }).withStatus .ok))

end Sys2Proof.Machine
end

