-- ==== Sys2Proof/Machine/Dispatch.lean ====
section
/-! DEFINITION. The dispatcher: one arm per command of 30_encoding.md R69. -/

namespace Sys2Proof.Machine

def exec (i : Instr) (s : State) : Host.Outcome State Fault Refusal :=
  match i with
  | .nop => Sys2Proof.Machine.execNop s
  | .rbWrite => Sys2Proof.Machine.execRbWrite s
  | .rbRead => Sys2Proof.Machine.execRbRead s
  | .rbPeek => Sys2Proof.Machine.execRbPeek s
  | .rbPeekb => Sys2Proof.Machine.execRbPeekb s
  | .rbPeekhdr => Sys2Proof.Machine.execRbPeekhdr s
  | .rbSkipuntil v => Sys2Proof.Machine.execRbSkipuntil v s
  | .rbClear => Sys2Proof.Machine.execRbClear s
  | .pcEncode => Sys2Proof.Machine.execPcEncode s
  | .pcDecode => Sys2Proof.Machine.execPcDecode s
  | .pcHcs => Sys2Proof.Machine.execPcHcs s
  | .fcBuild => Sys2Proof.Machine.execFcBuild s
  | .fcSend => Sys2Proof.Machine.execFcSend s
  | .fcTryparse => Sys2Proof.Machine.execFcTryparse s
  | .fcRecv => Sys2Proof.Machine.execFcRecv s
  | .crRecv => Sys2Proof.Machine.execCrRecv s
  | .crTick => Sys2Proof.Machine.execCrTick s
  | .crEvictconn => Sys2Proof.Machine.execCrEvictconn s

end Sys2Proof.Machine
end

