-- ==== Sys2Proof/Machine/HostPort.lean ====
section
/-! DEFINITION. What each atomic action of the host, the tick source and the reset source does (60_exceptions.md
R193): the CSR port, the SRC and DST ports, the command port, Tick and Reset. -/

namespace Sys2Proof.Machine

/-- A CMD write of `w` (10 R22): `w` is stored, and the command is performed as one step; a word that is
not legal is refused with ILLEGAL_CMD and changes nothing else (60 R184). -/
def performCommand (w : Word) (s : State) : Host.Outcome State Fault Refusal :=
  match decode w with
  | .ok i => exec i (s.withCmd w)
  | .error _ => commit ((s.withCmd w).raise .illegalCmd)

/-- `CsrWrite(addr, v)` (10 R20): an address that holds no register ignores the write. -/
def hostCsrWrite (addr : Nat) (v : Word) (s : State) : Host.Outcome State Fault Refusal :=
  match csrAt addr with
  | none => .next s
  | some .cmd => performCommand v s
  | some r => .next (writeCsr r v s)

/-- `CsrRead(addr)` (10 R20): an address that holds no register reads 0. -/
def hostCsrRead (addr : Nat) (s : State) : Word :=
  match csrAt addr with
  | none => 0
  | some r => readCsr s r

/-- `SrcWrite(addr, b)` (10 R40, 20 R57): past the end, no effect; else the byte `b mod 256`. -/
def hostSrcWrite (addr b : Nat) (s : State) : State :=
  if addr < s.params.srcSize then s.withSrc (s.src.write addr (BitVec.ofNat 8 b)) else s

/-- A host read of a byte port (20 R57, 10 R42): 0 past the end, a fault if the byte is unwritten. -/
def hostByteRead (m : Memory) (space : Space) (size addr : Nat) (s : State) : Host.Outcome State Fault Refusal :=
  if addr < size then
    match m.read addr with
    | some b => .next (s.withReadData (b.setWidth 32))
    | none => .fault (.unwritten space addr)
  else .next (s.withReadData 0)

/-- `Reset` (70 R200, R201): 10 R49's state for the same parameters. What is the outside's stays: the
actions to come, the value the host read last, the count of free bytes drawn (log 14). -/
def State.afterReset (s : State) : State :=
  { State.resetWith s.params with inputs := s.inputs, readData := s.readData, freeCtr := s.freeCtr }

/-- One action, as one atomic step (60 R193). -/
def perform (a : HostAction) (s : State) : Host.Outcome State Fault Refusal :=
  match a with
  | .csrWrite addr v => hostCsrWrite addr v s
  | .csrRead addr => .next (s.withReadData (hostCsrRead addr s))
  | .srcWrite addr b => .next (hostSrcWrite addr b s)
  | .srcRead addr => hostByteRead s.src .src s.params.srcSize addr s
  | .dstRead addr => hostByteRead s.dst .dst s.params.dstSize addr s
  | .tick => .next s.tickSlots
  | .reset => .next s.afterReset

/-- The next action is taken and performed; while none is to come the FCU waits (70 R202). -/
def performNext (s : State) : Host.Outcome State Fault Refusal :=
  match s.inputs with
  | [] => .next s
  | a :: rest => perform a (s.withInputs rest)

end Sys2Proof.Machine
end

