-- ==== Sys2Proof/Machine/Step.lean ====
section
/-! DEFINITION. One step of the machine, and the placing of a command word where the next step takes it. -/

namespace Sys2Proof.Machine

/-- One step: the next action of the outside agents, as one indivisible step (20 R54, R58). -/
def step (s : State) : Host.Outcome State Fault Refusal := performNext s

/-- `s` with the host's write of the command word `w` to CMD as the next action, so that the next step
performs exactly that command (log 1). The FCU fetches nothing (10 R37). -/
def State.withFetchWord (s : State) (_nbits w : Nat) : State :=
  s.withInputs (.csrWrite 0x000 (BitVec.ofNat 32 w) :: s.inputs)

end Sys2Proof.Machine
end

