-- ==== Sys2Proof/Machine/Assembler.lean ====
section
/-! DEFINITION. The assembly lines and pseudo-instructions of 30_encoding.md R71 and R72, as the host actions each
one stands for. -/

namespace Sys2Proof.Machine

/-- `MNEMONIC`: the CMD write of the command's word (R71). -/
def asmCommand (i : Instr) : HostAction := .csrWrite (csrAddr .cmd) (encode i)

/-- `SET NAME, v` (R71) -/
def asmSet (r : Csr) (v : Word) : HostAction := .csrWrite (csrAddr r) v

/-- `LOAD a, b0 b1 ...`: `SrcWrite(a+i, bi)` in order (R71). -/
def asmLoad (a : Nat) : List Byte → List HostAction
  | [] => []
  | b :: bs => .srcWrite a b.toNat :: asmLoad (a + 1) bs

/-- The ARG registers in order. -/
def argRegs : List Csr := [.arg0, .arg1, .arg2, .arg3, .arg4, .arg5, .arg6, .arg7]

/-- The host actions of a line (R71, R72). -/
def asmExpand : AsmLine → List HostAction
  | .command i => [asmCommand i]
  | .set r v => [asmSet r v]
  | .load a bs => asmLoad a bs
  | .tick => [.tick]
  | .args vs => List.zipWith asmSet argRegs vs
  | .resync => [asmSet .arg0 0, asmCommand (.rbSkipuntil 0)]
  | .disconnect c => [asmCommand .rbClear, asmSet .arg0 c, asmCommand .crEvictconn]
  | .deliver a bs =>
    asmLoad a.toNat bs
      ++ [asmSet .arg0 a, asmSet .arg1 (BitVec.ofNat 32 bs.length), asmCommand .rbWrite]

/-- A program's actions, line after line (44 R172). -/
def assemble (lines : List AsmLine) : List HostAction := lines.flatMap asmExpand

end Sys2Proof.Machine
end

