-- ==== Sys2Proof/Safety.lean ====
section
/-! DEFINITION. The invariants of the spec (10_state.md R38, R42, R46, R47, 00_scope.md R7), and what counts as a
safe outcome of a step. -/

namespace Sys2Proof.Machine

/-- A memory of `size` bytes: in canonical form, with no address outside it (20 R50). -/
abbrev Memory.fits (m : Memory) (size : Nat) : Prop := m.wf ∧ ∀ c ∈ m, c.1 < size

/-- R38: `rd` and `cnt` in range, and every unconsumed byte written. -/
abbrev Ring.Inv (p : Params) (r : Ring) : Prop :=
  r.mem.fits (ringCap p) ∧ r.rd < ringCap p ∧ r.cnt ≤ ringCap p
    ∧ ∀ i < r.cnt, (r.mem.read ((r.rd + i) % ringCap p)).isSome = true

/-- R47 for the count and range of the filled bytes of a valid slot, and for which DATA bytes are written. -/
abbrev Slot.Filled (sl : Slot) : Prop :=
  sl.fill = sl.data.map Prod.fst ∧ (∀ j ∈ sl.fill, j < sl.total.toNat)
    ∧ sl.rem.toNat + sl.fill.length = sl.total.toNat ∧ 1 ≤ sl.rem.toNat

/-- R47 for the idle counter of a valid slot. -/
abbrev Slot.IdleOk (p : Params) (sl : Slot) : Prop :=
  if p.crTimed then sl.idle.toNat < p.crIdleTicks else sl.idle = 0#32

/-- R46 and R47 for one slot: DATA fits CR_MAX_TOTAL; a valid slot's total, fill and idle counter are in range. -/
abbrev Slot.Inv (p : Params) (sl : Slot) : Prop :=
  sl.data.fits p.crMaxTotal
    ∧ (sl.valid = true → sl.total.toNat ≤ p.crMaxTotal ∧ sl.Filled ∧ sl.IdleOk p)

/-- Two slots do not both hold the same key (R47). -/
abbrev Slot.KeysDiffer (x y : Slot) : Prop :=
  ¬ (x.valid = true ∧ y.valid = true ∧ x.conn = y.conn ∧ x.pid = y.pid)

/-- The slot table: CR_SLOTS slots, each in order, no key twice (R46, R47). -/
abbrev SlotsInv (p : Params) (slots : List Slot) : Prop :=
  slots.length = p.crSlots ∧ (∀ sl ∈ slots, sl.Inv p) ∧ slots.Pairwise Slot.KeysDiffer

/-- What every step keeps. -/
structure State.Inv (s : State) : Prop where
  params : s.params.wellFormed = true
  ring   : s.ring.Inv s.params
  src    : s.src.fits s.params.srcSize
  dst    : s.dst.fits s.params.dstSize
  slots  : SlotsInv s.params s.slots

/-- A safe outcome of a step: a next state, or the one fault of the run that the spec names, the read of an
unwritten SRC or DST byte (10 R42). -/
def SafeOutcome : Host.Outcome State Fault Refusal → Prop
  | .next _ => True
  | .fault (.unwritten .src _) => True
  | .fault (.unwritten .dst _) => True
  | .fault (.unwritten .ring _) => False
  | .fault (.unwritten .slotData _) => False
  | .refused _ => False

end Sys2Proof.Machine
end

