-- ==== Sys2Proof/Certificates/Slice0/Obligations.lean ====
section
/-! DEFINITION. The statements for the provers, from the numbered rules of spec/. Each docstring names its rules. A
next state is written `{ s with … }`: everything not named in it is unchanged, which is the statement's frame. -/

open Sys2Proof Sys2Proof.Machine

namespace Sys2Proof.Claims

/-! ## What the statements say about memories, the ring and the slots -/

/-- `SRC[a..a+|bs|)` holds the bytes `bs`. -/
abbrev SrcHolds (s : State) (a : Nat) (bs : List Byte) : Prop :=
  s.src.wf ∧ ∀ i (h : i < bs.length), s.src.read (a + i) = some bs[i]

/-- The memory `m'` is `m` with `bs` written from `d` on: those bytes, and every other byte as before. -/
abbrev Written (m : Memory) (d : Nat) (bs : List Byte) (m' : Memory) : Prop :=
  (∀ i (h : i < bs.length), m'.read (d + i) = some bs[i])
    ∧ ∀ x, x < d ∨ d + bs.length ≤ x → m'.read x = m.read x

/-- The ring's unconsumed bytes from position `i` on are `bs`, and perhaps more. -/
abbrev RingHolds (s : State) (i : Nat) (bs : List Byte) : Prop :=
  i + bs.length ≤ s.ring.cnt ∧ ∀ j (h : j < bs.length), ringByte s (i + j) = .ok bs[j]

/-- The ring after its `k` oldest bytes are consumed (40 R100). -/
def consumed (s : State) (k : Nat) : Ring :=
  { s.ring with rd := (s.ring.rd + k) % ringCap s.params, cnt := s.ring.cnt - k }

/-- `k` is the number of bytes through the first 0x00 of the ring, or all of them if it holds none (40 R110). -/
def ThroughFirstZero (s : State) (k : Nat) : Prop :=
  (∃ j < s.ring.cnt, k = j + 1 ∧ ringByte s j = .ok 0#8 ∧ ∀ j' < j, ringByte s j' ≠ .ok 0#8)
    ∨ (k = s.ring.cnt ∧ ∀ j < s.ring.cnt, ringByte s j ≠ .ok 0#8)

/-- The slots are those of `l` but for slot `k`, which is `sl`. -/
abbrev SlotSet (l : List Slot) (k : Nat) (sl : Slot) (l' : List Slot) : Prop :=
  l'.length = l.length ∧ l'[k]? = some sl ∧ ∀ j, j ≠ k → l'[j]? = l[j]?

/-! ## The two stuffing loops, letter for letter (00 R13, R14) -/

/-- One round of R13's loop on `out`, `ci` and `code`. -/
def cobsRound (v : List Byte × Nat × Nat) (b : Byte) : List Byte × Nat × Nat :=
  let (out, ci, code) := v
  if b = 0x00#8 then (out.set ci (BitVec.ofNat 8 code) ++ [0x00#8], out.length, 1)
  else
    let out := out ++ [b]
    let code := code + 1
    if code = 0xFF then (out.set ci (BitVec.ofNat 8 code) ++ [0x00#8], out.length, 1) else (out, ci, code)

/-- R13 as it is written: `out[ci]` is the open code byte, and it is written when the group closes. -/
def cobsLoop (d : List Byte) : List Byte :=
  let (out, ci, code) := d.foldl cobsRound ([0x00#8], 0, 1)
  out.set ci (BitVec.ofNat 8 code)

/-- R14's inner loop: `n` more bytes are copied from `e` at `i`, none if one is missing or is 0x00. -/
def uncobsCopy (e : List Byte) : Nat → Nat → List Byte → Option (Nat × List Byte)
  | 0, i, out => some (i, out)
  | n + 1, i, out =>
    match e[i]? with
    | none => none
    | some b => if b = 0x00#8 then none else uncobsCopy e n (i + 1) (out ++ [b])

/-- R14's outer loop. Each round reads at least the code byte, so `|e| + 1` rounds are enough. -/
def uncobsLoop (e : List Byte) : Nat → Nat → List Byte → Option (List Byte)
  | 0, _, _ => none
  | fuel + 1, i, out =>
    match e[i]? with
    | none => some out
    | some code =>
      if code = 0x00#8 then none
      else
        match uncobsCopy e (code.toNat - 1) (i + 1) out with
        | none => none
        | some (i, out) =>
          uncobsLoop e fuel i (if code ≠ 0xFF#8 ∧ i < e.length then out ++ [0x00#8] else out)

/-! ## Frames (30 R73 to R79) -/

/-- The bytes of the frame around payload `p`: flags, id, dataLength, header checksum, stuffed region (30 R73, R74). -/
def frame (flags : Byte) (id : Half) (m : MetaFields) (p : List Byte) : List Byte :=
  let region := stuff (metaBytes flags m ++ p)
  let len : Half := BitVec.ofNat 16 region.length
  flags :: le16 id.toNat ++ le16 len.toNat ++ le16 (hcs flags id len) ++ region

/-- `dataLength` of that frame, before it is known to fit 16 bits (30 R78). -/
def dataLength (flags : Byte) (m : MetaFields) (p : List Byte) : Nat := (stuff (metaBytes flags m ++ p)).length

/-- The first 7 unconsumed bytes are held and give the header fields `h` (10 R28). -/
def HeaderAt (s : State) (h : HdrRegs) : Prop :=
  ∃ b0 b1 b2 b3 b4 b5 b6, RingHolds s 0 [b0, b1, b2, b3, b4, b5, b6]
    ∧ h = { flags := b0, id := b2 ++ b1, len := b4 ++ b3, cksum := b6 ++ b5,
            computed := BitVec.ofNat 16 (f16 [b0, b1, b2, b3, b4]) }

/-- The header's checksum and `dataLength` pass (42 R133, first three checks after the length of the ring). -/
def HeaderGood (s : State) (h : HdrRegs) : Prop :=
  h.cksum = h.computed ∧ 4 ≤ h.len.toNat ∧ 7 + h.len.toNat ≤ ringCap s.params

/-- A whole frame with a good header and its terminator is at the front of the ring: TRYPARSE's OK (42 R133). -/
def FrameAt (s : State) (h : HdrRegs) : Prop :=
  HeaderAt s h ∧ HeaderGood s h ∧ 7 + h.len.toNat ≤ s.ring.cnt ∧ ringByte s (7 + h.len.toNat - 1) = .ok 0#8

/-- What the frame's stuffed region without its terminator un-stuffs to (00 R18, 42 R135). -/
def RegionGives (s : State) (h : HdrRegs) (u : Option Unstuffed) : Prop :=
  ∃ region, RingHolds s 7 region ∧ region.length + 1 = h.len.toNat ∧ unstuff region = u

/-- A valid frame (30 R79) with header `h` and content `u.content` is at the front of the ring. -/
def ValidFrameAt (s : State) (h : HdrRegs) (u : Unstuffed) : Prop :=
  FrameAt s h ∧ RegionGives s h (some u) ∧ metaLen h.flags ≤ u.content.length ∧ u.computed = u.carried

/-- The RX registers that describe a valid frame (10 R31). -/
def rxOf (h : HdrRegs) (u : Unstuffed) : RxRegs :=
  let (m, p) := parseMeta h.flags u.content
  { flags := h.flags, id := h.id, reqid := m.reqid, pktid := m.pktid, offset := m.offset, total := m.total,
    ulen := m.ulen, len := BitVec.ofNat 32 p.length, pcsCalc := BitVec.ofNat 16 u.computed,
    pcsRcvd := BitVec.ofNat 16 u.carried }

/-! ## The metadata, byte by byte (30 R77) -/

/-- A 16-bit field, least significant byte first. -/
def bytes16 (v : Half) : List Byte := [v.setWidth 8, (v >>> 8).setWidth 8]

/-- A 32-bit field, least significant byte first. -/
def bytes32 (v : Word) : List Byte := [v.setWidth 8, (v >>> 8).setWidth 8, (v >>> 16).setWidth 8, (v >>> 24).setWidth 8]

/-- R77's table, row by row: a field is present under its condition on the flag byte, in this order. -/
def metadata (flags : Byte) (m : MetaFields) : List Byte :=
  (if flags.extractLsb' 0 2 ≠ 0#2 then bytes16 m.reqid else [])
    ++ (if flags.getLsbD 2 = true then bytes32 m.pktid else [])
    ++ (if flags.getLsbD 2 = true then bytes32 m.offset else [])
    ++ (if flags.getLsbD 2 = true then bytes32 m.total else [])
    ++ (if flags.extractLsb' 3 2 ≠ 0#2 then bytes32 m.ulen else [])

/-- The fields that the flag byte leaves out, as 0 (30 R89). -/
def zeroAbsent (flags : Byte) (m : MetaFields) : MetaFields where
  reqid  := if flags.extractLsb' 0 2 ≠ 0#2 then m.reqid else 0
  pktid  := if flags.getLsbD 2 = true then m.pktid else 0
  offset := if flags.getLsbD 2 = true then m.offset else 0
  total  := if flags.getLsbD 2 = true then m.total else 0
  ulen   := if flags.extractLsb' 3 2 ≠ 0#2 then m.ulen else 0

/-! ## Resynchronisation (42 R138) -/

/-- `bs` starts with a header whose carried checksum is the computed one (30 R74, R79). -/
def MatchingHeader (bs : List Byte) : Prop := 7 ≤ bs.length ∧ rd16 bs 5 = f16 (bs.take 5)

/-- `Receives s vs t`: FC.RECV commands, one after the other, take `s` to `t`, through the states `vs`, `t` the last. -/
inductive Receives : State → List State → State → Prop where
  | nil (s : State) : Receives s [] s
  | cons {s v t : State} {vs : List State} (h : exec .fcRecv s = .next v) (rest : Receives v vs t) :
      Receives s (v :: vs) t

/-! ## Two runs of one command -/

/-- A register in two runs of one command: the same after both, or left in both as it was. -/
abbrev SameOrKept {α : Type} (before after before' after' : α) : Prop :=
  after' = after ∨ (after = before ∧ after' = before')

/-- The RX registers without the two payload checksums, which FC.RECV also writes by themselves (10 R31). -/
def rxFrame (r : RxRegs) : RxRegs := { r with pcsCalc := 0, pcsRcvd := 0 }

/-! ## The operand table's "written" column (30 R70) -/

/-- The parts of the state a command may write besides STATUS. -/
structure Writes where
  res0    : Bool := false
  res1    : Bool := false
  res2    : Bool := false
  hdr     : Bool := false
  rx      : Bool := false
  ring    : Bool := false
  dst     : Bool := false
  slots   : Bool := false
  pktCtr  : Bool := false
  evicts  : Bool := false

/-- R70's last column. -/
def writes : Instr → Writes
  | .nop => {}
  | .rbWrite => { ring := true, res0 := true }
  | .rbRead => { dst := true, ring := true, res0 := true }
  | .rbPeek => { dst := true, res0 := true }
  | .rbPeekb => { res0 := true }
  | .rbPeekhdr => { hdr := true }
  | .rbSkipuntil _ => { ring := true, res0 := true, res1 := true }
  | .rbClear => { ring := true }
  | .pcEncode => { dst := true, res0 := true, res1 := true }
  | .pcDecode => { dst := true, res0 := true, res1 := true, res2 := true }
  | .pcHcs => { res0 := true }
  | .fcBuild => { dst := true, res0 := true, res1 := true, res2 := true }
  | .fcSend => { dst := true, pktCtr := true, res0 := true, res1 := true, res2 := true }
  | .fcTryparse => { hdr := true, res0 := true }
  | .fcRecv => { ring := true, slots := true, dst := true, hdr := true, rx := true, res0 := true, res1 := true }
  | .crRecv => { slots := true, dst := true, res0 := true }
  | .crTick => { slots := true, evicts := true, res0 := true }
  | .crEvictconn => { slots := true, res0 := true }

/-- The status codes each command can report (60 R181, R185). -/
def outcomes : Instr → List Status
  | .nop => [.ok]
  | .rbWrite => [.ok, .outOfRange]
  | .rbRead => [.outOfRange, .needMore, .ok]
  | .rbPeek => [.outOfRange, .needMore, .ok]
  | .rbPeekb => [.needMore, .ok]
  | .rbPeekhdr => [.needMore, .ok]
  | .rbSkipuntil _ => [.notFound, .ok]
  | .rbClear => [.ok]
  | .pcEncode => [.outOfRange, .ok]
  | .pcDecode => [.outOfRange, .plMalformed, .plChecksum, .ok]
  | .pcHcs => [.ok]
  | .fcBuild => [.outOfRange, .tooLong, .ok]
  | .fcSend => [.illegalArg, .outOfRange, .ok]
  | .fcTryparse => [.needMore, .hdrCorrupt, .ok]
  | .fcRecv => [.needMore, .hdrCorrupt, .plMalformed, .plChecksum, .ok, .chunkAccepted, .assembled, .chunkViolation,
      .allocFail, .outOfRange]
  | .crRecv => [.outOfRange, .chunkViolation, .allocFail, .assembled, .chunkAccepted]
  | .crTick => [.ok]
  | .crEvictconn => [.ok]

/-- The commands that read SRC, with the address and the number of the bytes they read in `s` (30 R70, 40 R101). -/
def srcRange (s : State) : Instr → Option (Nat × Nat)
  | .rbWrite => some (s.args.a0.toNat, min s.args.a1.toNat (ringCap s.params - s.ring.cnt))
  | .pcEncode => some (s.args.a0.toNat, s.args.a1.toNat)
  | .pcDecode => some (s.args.a0.toNat, s.args.a1.toNat)
  | .fcBuild => some (s.args.a0.toNat, s.args.a1.toNat)
  | .fcSend => some (s.args.a0.toNat, s.args.a1.toNat)
  | .crRecv => some (s.args.a0.toNat, s.args.a1.toNat)
  | .nop | .rbRead | .rbPeek | .rbPeekb | .rbPeekhdr | .rbSkipuntil _ | .rbClear | .pcHcs | .fcTryparse | .fcRecv
  | .crTick | .crEvictconn => none

/-! ## The CSR map with its values (10 R21 to R34, 60 R181) -/

/-- The code of a status, row by row of 60 R181's table. -/
def statusCode : Status → Nat
  | .ok => 0x00 | .needMore => 0x01 | .hdrCorrupt => 0x02 | .plMalformed => 0x03 | .plChecksum => 0x04
  | .chunkViolation => 0x05 | .allocFail => 0x06 | .outOfRange => 0x07 | .illegalCmd => 0x08 | .illegalArg => 0x09
  | .tooLong => 0x0A | .chunkAccepted => 0x0B | .assembled => 0x0C | .notFound => 0x0D

/-- R21's rows from CMD to ARG7, each with the value it shows (R22 to R24, R26, R27). -/
def csrTableArgs (s : State) : List (CsrRow × Nat) :=
  [(⟨0x000, .cmd, 32, true⟩, s.cmd.toNat), (⟨0x004, .status, 8, false⟩, statusCode s.status),
   (⟨0x008, .connId, 16, true⟩, s.connId.toNat), (⟨0x00C, .pktCtr, 32, true⟩, s.pktCtr.toNat),
   (⟨0x010, .arg0, 32, true⟩, s.args.a0.toNat), (⟨0x014, .arg1, 32, true⟩, s.args.a1.toNat),
   (⟨0x018, .arg2, 32, true⟩, s.args.a2.toNat), (⟨0x01C, .arg3, 32, true⟩, s.args.a3.toNat),
   (⟨0x020, .arg4, 32, true⟩, s.args.a4.toNat), (⟨0x024, .arg5, 32, true⟩, s.args.a5.toNat),
   (⟨0x028, .arg6, 32, true⟩, s.args.a6.toNat), (⟨0x02C, .arg7, 32, true⟩, s.args.a7.toNat)]

/-- R21's rows from RES0 to HDR_CALC (R25, R28). -/
def csrTableResults (s : State) : List (CsrRow × Nat) :=
  [(⟨0x030, .res0, 32, false⟩, s.res.r0.toNat), (⟨0x034, .res1, 32, false⟩, s.res.r1.toNat),
   (⟨0x038, .res2, 32, false⟩, s.res.r2.toNat), (⟨0x03C, .res3, 32, false⟩, s.res.r3.toNat),
   (⟨0x040, .hdrFlags, 8, false⟩, s.hdr.flags.toNat), (⟨0x044, .hdrId, 16, false⟩, s.hdr.id.toNat),
   (⟨0x048, .hdrLen, 16, false⟩, s.hdr.len.toNat), (⟨0x04C, .hdrCksum, 16, false⟩, s.hdr.cksum.toNat),
   (⟨0x050, .hdrCalc, 16, false⟩, s.hdr.computed.toNat)]

/-- R21's rows from TX_FLAGS to TX_MAXPL (R29, R30). -/
def csrTableTx (s : State) : List (CsrRow × Nat) :=
  [(⟨0x060, .txFlags, 8, true⟩, s.tx.flags.toNat), (⟨0x064, .txId, 16, true⟩, s.tx.id.toNat),
   (⟨0x068, .txReqid, 16, true⟩, s.tx.reqid.toNat), (⟨0x06C, .txPktid, 32, true⟩, s.tx.pktid.toNat),
   (⟨0x070, .txOffset, 32, true⟩, s.tx.offset.toNat), (⟨0x074, .txTotal, 32, true⟩, s.tx.total.toNat),
   (⟨0x078, .txUlen, 32, true⟩, s.tx.ulen.toNat), (⟨0x07C, .txMaxpl, 32, true⟩, s.tx.maxpl.toNat)]

/-- R21's rows from RX_FLAGS to RX_PCS_RCVD (R31). -/
def csrTableRx (s : State) : List (CsrRow × Nat) :=
  [(⟨0x080, .rxFlags, 8, false⟩, s.rx.flags.toNat), (⟨0x084, .rxId, 16, false⟩, s.rx.id.toNat),
   (⟨0x088, .rxReqid, 16, false⟩, s.rx.reqid.toNat), (⟨0x08C, .rxPktid, 32, false⟩, s.rx.pktid.toNat),
   (⟨0x090, .rxOffset, 32, false⟩, s.rx.offset.toNat), (⟨0x094, .rxTotal, 32, false⟩, s.rx.total.toNat),
   (⟨0x098, .rxUlen, 32, false⟩, s.rx.ulen.toNat), (⟨0x09C, .rxLen, 32, false⟩, s.rx.len.toNat),
   (⟨0x0A0, .rxPcsCalc, 16, false⟩, s.rx.pcsCalc.toNat), (⟨0x0A4, .rxPcsRcvd, 16, false⟩, s.rx.pcsRcvd.toNat)]

/-- R21's rows from RB_RD to CFG_DST: the views of the ring, of the slots and of the parameters (R32 to R34). -/
def csrTableViews (s : State) : List (CsrRow × Nat) :=
  [(⟨0x0C0, .rbRd, 32, false⟩, s.ring.rd), (⟨0x0C4, .rbCnt, 32, false⟩, s.ring.cnt),
   (⟨0x0C8, .rbCapr, 32, false⟩, ringCap s.params), (⟨0x0CC, .crUsed, 32, false⟩, s.slots.countP (·.valid)),
   (⟨0x0D0, .crEvicts, 32, false⟩, s.crEvicts.toNat),
   (⟨0x0D4, .cfgCr, 32, false⟩, s.params.crSlots + 65536 * (if s.params.crTimed then 1 else 0)),
   (⟨0x0D8, .cfgMaxtot, 32, false⟩, s.params.crMaxTotal), (⟨0x0DC, .cfgIdle, 32, false⟩, s.params.crIdleTicks),
   (⟨0x0E0, .cfgSrc, 32, false⟩, s.params.srcSize), (⟨0x0E4, .cfgDst, 32, false⟩, s.params.dstSize)]

/-- R21, row by row: address, register, width, whether the host may write it, and the number it shows in `s`. -/
def csrTable (s : State) : List (CsrRow × Nat) :=
  csrTableArgs s ++ csrTableResults s ++ csrTableTx s ++ csrTableRx s ++ csrTableViews s

/-! ## The ring as a queue (40 R108) -/

/-- A write of bytes offered at SRC address 0, or a read of `n` bytes to DST address 0 with `skip = 0`. -/
inductive RingOp where
  | write (bytes : List Byte)
  | read (n : Nat)

/-- What a ring operation fits: SRC for the bytes offered, DST for the bytes read. -/
def RingOp.fits (p : Params) : RingOp → Prop
  | .write bs => bs.length ≤ p.srcSize
  | .read n => n ≤ p.dstSize

/-- Perform one ring operation: the host sets up SRC and the ARG registers, then issues the command. -/
def ringOp (s : State) : RingOp → Host.Outcome State Fault Refusal
  | .write bs =>
    exec .rbWrite { s with src := cellsFrom 0 bs, args := { s.args with a0 := 0, a1 := BitVec.ofNat 32 bs.length } }
  | .read n => exec .rbRead { s with args := { s.args with a0 := 0, a1 := BitVec.ofNat 32 n, a2 := 0 } }

/-- The bytes an operation accepted into the ring: the first RES0 of those offered. -/
def accepted (t : State) : RingOp → List Byte
  | .write bs => bs.take t.res.r0.toNat
  | .read _ => []

/-- The bytes an operation read out of the ring: RES0 bytes of DST. -/
def delivered (t : State) : RingOp → List Byte
  | .write _ => []
  | .read _ => (List.range t.res.r0.toNat).map (fun i => (t.dst.read i).getD 0)

/-- `Queue ops s ins outs t`: the operations take `s` to `t`, accepting `ins` and delivering `outs`, in order. -/
inductive Queue : List RingOp → State → List Byte → List Byte → State → Prop where
  | nil (s : State) : Queue [] s [] [] s
  | cons {op : RingOp} {ops : List RingOp} {s t u : State} {ins outs : List Byte}
      (h : ringOp s op = .next t) (rest : Queue ops t ins outs u) :
      Queue (op :: ops) s (accepted t op ++ ins) (delivered t op ++ outs) u

/-! ## Reassembly of a tiling (43 R164) -/

/-- One chunk offered through CR.RECV: the host puts its bytes at SRC address 0 and sets ARG0 to ARG6. -/
def offer (s : State) (conn : Half) (pid : Word) (tot d : Nat) (c : Nat × List Byte) :
    Host.Outcome State Fault Refusal :=
  exec .crRecv { s with
    src := cellsFrom 0 c.2
    args := { s.args with a0 := 0, a1 := BitVec.ofNat 32 c.2.length, a2 := BitVec.ofNat 32 d, a3 := pid
                          a4 := BitVec.ofNat 32 c.1, a5 := BitVec.ofNat 32 tot, a6 := conn.setWidth 32 } }

/-- `Feed conn pid tot d cs s sts t`: the chunks `cs` offered in order take `s` to `t` with the statuses `sts`. -/
inductive Feed (conn : Half) (pid : Word) (tot d : Nat) : List (Nat × List Byte) → State → List Status → State → Prop where
  | nil (s : State) : Feed conn pid tot d [] s [] s
  | cons {c : Nat × List Byte} {cs : List (Nat × List Byte)} {s t u : State} {sts : List Status}
      (h : offer s conn pid tot d c = .next t) (rest : Feed conn pid tot d cs t sts u) :
      Feed conn pid tot d (c :: cs) s (t.status :: sts) u

/-- The chunks exactly tile the payload `P`: none is empty, each is the payload's bytes at its offset, no two
overlap, and together they have the payload's length. -/
structure Tiles (P : List Byte) (cs : List (Nat × List Byte)) : Prop where
  nonempty : ∀ c ∈ cs, c.2 ≠ []
  inside   : ∀ c ∈ cs, c.1 + c.2.length ≤ P.length
  bytes    : ∀ c ∈ cs, c.2 = (P.drop c.1).take c.2.length
  disjoint : cs.Pairwise (fun x y => x.1 + x.2.length ≤ y.1 ∨ y.1 + y.2.length ≤ x.1)
  whole    : (cs.map (fun c => c.2.length)).sum = P.length

/-- The key is Absent: no valid slot has it (43 R161). -/
abbrev Absent (s : State) (conn : Half) (pid : Word) : Prop :=
  ∀ sl ∈ s.slots, ¬ (sl.valid = true ∧ sl.conn = conn ∧ sl.pid = pid)

/-- Slot `k` holds the key's reassembly: the key is Filling (43 R161). -/
abbrev FillingAt (s : State) (k : Nat) (sl : Slot) (conn : Half) (pid : Word) : Prop :=
  s.slots[k]? = some sl ∧ sl.valid = true ∧ sl.conn = conn ∧ sl.pid = pid

end Sys2Proof.Claims

open Sys2Proof.Claims

/-! ## Encoding and the step -/

/-- Words written out from the opcode map (30 R69) and RB.SKIPUNTIL's word (40 R106) decode to their commands. -/
def Obligations.SpecWordsDecode : Prop :=
  decode 0x00000000 = .ok .nop ∧ decode 0x00000001 = .ok .rbWrite ∧ decode 0x00009906 = .ok (.rbSkipuntil 0x99)
    ∧ decode 0x00000010 = .ok .pcEncode ∧ decode 0x00000021 = .ok .fcSend ∧ decode 0x00000023 = .ok .fcRecv
    ∧ decode 0x00000032 = .ok .crEvictconn ∧ decode 0x00000110 = .error .immediate
    ∧ decode 0x80000021 = .error .reservedBits ∧ decode 0x00000033 = .error .unassignedOpcode

/-- Decoding an encoded command gives it back, and a word that decodes to a command is that command's word, so each
command has one word for each value of its immediate (30 R65 to R69). -/
def Obligations.DecodeEncodeAgree : Prop :=
  (∀ i : Instr, i.wellFormed = true → decode (encode i) = .ok i)
    ∧ ∀ (w : Word) (i : Instr), decode w = .ok i → encode i = w ∧ i.wellFormed = true

/-- 30 R68: which words are legal, by the fields and by the exact patterns, and what a CMD write of any other word
does: ILLEGAL_CMD, and nothing but CMD and STATUS changes (60 R184). -/
def Obligations.IllegalWordsRefused : Prop :=
  ∀ w : Word,
    ((∃ i, decode w = .ok i) ↔
      w.extractLsb' 0 8 ∈ assignedOpcodes ∧ w.extractLsb' 16 16 = 0#16
        ∧ (w.extractLsb' 8 8 = 0#8 ∨ w.extractLsb' 0 8 = 0x06#8))
    ∧ ((∃ i, decode w = .ok i) ↔
      w &&& 0xFFFF00FF#32 = 0x00000006#32
        ∨ ∃ op ∈ assignedOpcodes, op ≠ 0x06#8 ∧ w = op.setWidth 32)
    ∧ ∀ (s : State) (rest : List HostAction), (¬ ∃ i, decode w = .ok i) → s.inputs = .csrWrite 0x000 w :: rest →
        step s = .next { s with inputs := rest, cmd := w, status := .illegalCmd }

/-- A CMD write of a legal word stores the word and performs its command as one step (10 R22). -/
def Obligations.StepRunsDecodedCommand : Prop :=
  ∀ (s : State) (rest : List HostAction) (w : Word) (i : Instr),
    s.inputs = .csrWrite 0x000 w :: rest → decode w = .ok i → step s = exec i { s with inputs := rest, cmd := w }

/-- With no action to come the FCU waits: a step changes nothing (the model's form of 70 R202, log 1). -/
def Obligations.StepWaitsWithoutInput : Prop := ∀ s : State, s.inputs = [] → step s = .next s

/-- 10 R20 and R21, row by row of the CSR map: the host reads the register, a number below 2^bits, at any of the four
addresses of its word (which number, CsrReadsShowState says); a host write of a RW register keeps the register's bits
and changes no other register (CR_USED and the other views included); a write to a RO register changes nothing; an
address of no row reads 0 and ignores writes; a read changes nothing but the value on the port. -/
def Obligations.CsrAccess : Prop :=
  (∀ (s : State) (row : CsrRow) (k : Nat), row ∈ csrMap → k < 4 →
      csrAt (row.addr + k) = some row.reg ∧ hostCsrRead (row.addr + k) s = readCsr s row.reg
        ∧ (readCsr s row.reg).toNat < 2 ^ row.bits
        ∧ (row.rw = true → row.reg ≠ .cmd → ∀ v : Word, ∃ t, hostCsrWrite (row.addr + k) v s = .next t
            ∧ (readCsr t row.reg).toNat = v.toNat % 2 ^ row.bits ∧ (∀ r, r ≠ row.reg → readCsr t r = readCsr s r)
            ∧ { t with connId := s.connId, pktCtr := s.pktCtr, args := s.args, tx := s.tx } = s)
        ∧ (row.rw = false → ∀ v : Word, hostCsrWrite (row.addr + k) v s = .next s))
    ∧ (∀ (s : State) (addr : Nat), (∀ row ∈ csrMap, row.addr ≠ addr / 4 * 4) →
        hostCsrRead addr s = 0 ∧ ∀ v : Word, hostCsrWrite addr v s = .next s)
    ∧ ∀ (s : State) (rest : List HostAction) (addr : Nat), s.inputs = .csrRead addr :: rest →
        step s = .next { s with inputs := rest, readData := hostCsrRead addr s }

/-- 10 R21 to R34 and 60 R181: the CSR map's addresses, widths and access are R21's, and at each of the four addresses of
a register's word the host reads the register's field, STATUS its code of R181's table, and each view what it is a view
of: RB_RD, RB_CNT and RB_CAPR the ring, CR_USED the number of valid slots, the CFG registers the parameters. From states
that meet the invariants the number fits the register. Every register of the model is one of the rows. -/
def Obligations.CsrReadsShowState : Prop :=
  ∀ s : State, csrMap = (csrTable s).map Prod.fst
    ∧ (∀ (row : CsrRow) (v k : Nat), (row, v) ∈ csrTable s → k < 4 →
        (hostCsrRead (row.addr + k) s).toNat = v % 2 ^ row.bits ∧ (s.Inv → v < 2 ^ row.bits))
    ∧ ∀ r : Csr, ∃ p ∈ csrTable s, p.1.reg = r

/-- 20 R57 and 10 R42 for the host's byte ports: SrcWrite keeps `b mod 256` and has no effect past the end; SrcRead
and DstRead return 0 past the end, the byte if it is written, and are a fault of the run if it is not. -/
def Obligations.BytePorts : Prop :=
  ∀ (s : State) (rest : List HostAction) (addr b : Nat),
    (s.inputs = .srcWrite addr b :: rest → addr < s.params.srcSize →
      ∃ m, step s = .next { s with inputs := rest, src := m } ∧ m.read addr = some (BitVec.ofNat 8 b)
        ∧ ∀ x, x ≠ addr → m.read x = s.src.read x)
    ∧ (s.inputs = .srcWrite addr b :: rest → s.params.srcSize ≤ addr → step s = .next { s with inputs := rest })
    ∧ (s.inputs = .srcRead addr :: rest →
        (s.params.srcSize ≤ addr → step s = .next { s with inputs := rest, readData := 0 })
        ∧ (addr < s.params.srcSize → s.src.read addr = none → step s = .fault (.unwritten .src addr))
        ∧ ∀ v, addr < s.params.srcSize → s.src.read addr = some v →
            step s = .next { s with inputs := rest, readData := v.setWidth 32 })
    ∧ (s.inputs = .dstRead addr :: rest →
        (s.params.dstSize ≤ addr → step s = .next { s with inputs := rest, readData := 0 })
        ∧ (addr < s.params.dstSize → s.dst.read addr = none → step s = .fault (.unwritten .dst addr))
        ∧ ∀ v, addr < s.params.dstSize → s.dst.read addr = some v →
            step s = .next { s with inputs := rest, readData := v.setWidth 32 })

/-- 10 R49 and 70 R201: what a Reset event leaves, register by register and memory by memory, and that the
parameters and the registers that show them stay. -/
def Obligations.ResetState : Prop :=
  ∀ (s : State) (rest : List HostAction), s.inputs = .reset :: rest →
    ∃ t, step s = .next t ∧ t.params = s.params
      ∧ (∀ r : Csr, readCsr t r =
          match r with
          | .rbCapr => BitVec.ofNat 32 (ringCap s.params)
          | .cfgCr => BitVec.ofNat 32 (s.params.crSlots + 65536 * (if s.params.crTimed then 1 else 0))
          | .cfgMaxtot => BitVec.ofNat 32 s.params.crMaxTotal
          | .cfgIdle => BitVec.ofNat 32 s.params.crIdleTicks
          | .cfgSrc => BitVec.ofNat 32 s.params.srcSize
          | .cfgDst => BitVec.ofNat 32 s.params.dstSize
          | _ => 0)
      ∧ t.ring.rd = 0 ∧ t.ring.cnt = 0
      ∧ (∀ x, t.ring.mem.read x = none ∧ t.src.read x = none ∧ t.dst.read x = none)
      ∧ t.slots.length = s.params.crSlots ∧ ∀ sl ∈ t.slots, sl.valid = false ∧ ∀ x, sl.data.read x = none

/-- 00 R8: RB_CAP is the least power of two at or above RB_CAP_REQ. -/
def Obligations.RingCapacityIsLeastPowerOfTwo : Prop :=
  ∀ p : Params, p.wellFormed = true →
    ∃ k, ringCap p = 2 ^ k ∧ p.rbCapReq ≤ 2 ^ k ∧ ∀ j, p.rbCapReq ≤ 2 ^ j → k ≤ j

/-! ## Invariants and whole-machine rules -/

/-- Every legal elaboration's reset state meets the invariants (10 R38, R47, R49); so does the model's own. -/
def Obligations.ResetMeetsInvariants : Prop :=
  (∀ p s, State.elaborate p = some s → s.Inv) ∧ State.reset.Inv

/-- 10 R38 and R47: every step of every agent keeps the invariants, from every state that meets them. -/
def Obligations.StepKeepsInvariants : Prop := ∀ s t : State, s.Inv → step s = .next t → t.Inv

/-- From every state that meets the invariants a step answers a next state, or faults on an unwritten SRC or DST byte
(10 R42), which only a command that reads SRC or a host read can do; no instruction is refused, and RING and slot
DATA are never read unwritten. -/
def Obligations.StepIsSafe : Prop :=
  (∀ s : State, s.Inv → SafeOutcome (step s))
    ∧ ∀ (i : Instr) (s : State) (f : Fault), s.Inv → exec i s = .fault f →
        ∃ x, f = .unwritten .src x ∧ s.src.read x = none
          ∧ ∃ a n, srcRange s i = some (a, n) ∧ a ≤ x ∧ x < a + n

/-- 60 R187: a command that ends with ILLEGAL_ARG, TOO_LONG or OUT_OF_RANGE commits nothing but STATUS. -/
def Obligations.RefusedCommandsCommitOnlyStatus : Prop :=
  ∀ (i : Instr) (s t : State), exec i s = .next t →
    t.status = .illegalArg ∨ t.status = .tooLong ∨ t.status = .outOfRange → t = { s with status := t.status }

/-- 30 R70 and 10 R25, R24, R26, R29: a command writes only what the operand table's last column lists for it. In
particular no command writes CMD, CONN_ID, an ARG, a TX register, SRC, RES3 or a parameter. -/
def Obligations.CommandsWriteOnlyWhatR70Lists : Prop :=
  ∀ (i : Instr) (s t : State), exec i s = .next t →
    (t.params = s.params ∧ t.cmd = s.cmd ∧ t.connId = s.connId ∧ t.args = s.args ∧ t.tx = s.tx ∧ t.src = s.src
      ∧ t.res.r3 = s.res.r3 ∧ t.inputs = s.inputs ∧ t.readData = s.readData)
    ∧ ((writes i).res0 = false → t.res.r0 = s.res.r0) ∧ ((writes i).res1 = false → t.res.r1 = s.res.r1)
    ∧ ((writes i).res2 = false → t.res.r2 = s.res.r2) ∧ ((writes i).hdr = false → t.hdr = s.hdr)
    ∧ ((writes i).rx = false → t.rx = s.rx) ∧ ((writes i).ring = false → t.ring = s.ring)
    ∧ ((writes i).dst = false → ∀ x, t.dst.read x = s.dst.read x) ∧ ((writes i).slots = false → t.slots = s.slots)
    ∧ ((writes i).pktCtr = false → t.pktCtr = s.pktCtr) ∧ ((writes i).evicts = false → t.crEvicts = s.crEvicts)

/-- 10 R23: no command reads STATUS and every command writes it: a command's outcome does not depend on it. -/
def Obligations.NoCommandReadsStatus : Prop :=
  ∀ (i : Instr) (s : State) (st : Status), exec i { s with status := st } = exec i s

/-- 60 R195, and 30 R70 for CMD, RES and ARG7: no command reads the observation registers (HDR, RX, CR_EVICTS), nor
CMD, RES, ARG7 or the host's last read value. Two states that differ only there give the same status, ring, SRC, DST,
slots, PKT_CTR and free-byte count; each RES, HDR and RX register is the same after both or left in both as it was; and
CR_EVICTS, which CR.TICK adds to (43 R158), grows by the same amount. -/
def Obligations.ObservationRegistersNotRead : Prop :=
  ∀ (i : Instr) (s t : State) (cmd ev rd a7 : Word) (res : Results) (hdr : HdrRegs) (rx : RxRegs),
    exec i s = .next t →
    ∃ t', exec i { s with cmd := cmd, crEvicts := ev, readData := rd, args := { s.args with a7 := a7 }, res := res,
                          hdr := hdr, rx := rx } = .next t'
      ∧ t'.status = t.status ∧ t'.ring = t.ring ∧ t'.src = t.src ∧ t'.dst = t.dst ∧ t'.slots = t.slots
      ∧ t'.pktCtr = t.pktCtr ∧ t'.freeCtr = t.freeCtr
      ∧ SameOrKept s.res.r0 t.res.r0 res.r0 t'.res.r0 ∧ SameOrKept s.res.r1 t.res.r1 res.r1 t'.res.r1
      ∧ SameOrKept s.res.r2 t.res.r2 res.r2 t'.res.r2 ∧ SameOrKept s.res.r3 t.res.r3 res.r3 t'.res.r3
      ∧ SameOrKept s.hdr t.hdr hdr t'.hdr ∧ SameOrKept (rxFrame s.rx) (rxFrame t.rx) (rxFrame rx) (rxFrame t'.rx)
      ∧ SameOrKept s.rx.pcsCalc t.rx.pcsCalc rx.pcsCalc t'.rx.pcsCalc
      ∧ SameOrKept s.rx.pcsRcvd t.rx.pcsRcvd rx.pcsRcvd t'.rx.pcsRcvd
      ∧ t'.crEvicts - ev = t.crEvicts - s.crEvicts

/-- 60 R181 and R185: the status codes each command can report. FC.SEND never gives TOO_LONG (30 R83). -/
def Obligations.CommandOutcomes : Prop :=
  ∀ (i : Instr) (s t : State), exec i s = .next t → t.status ∈ outcomes i

/-- 10 R42: a command that passes its argument and range checks and reads an unwritten SRC byte is a fault of the run. -/
def Obligations.UnwrittenSrcFaults : Prop :=
  ∀ (i : Instr) (s : State) (a n j : Nat), s.src.wf → srcRange s i = some (a, n) → j < n → s.src.read (a + j) = none →
    a + s.args.a1.toNat ≤ s.params.srcSize →
    (i = .pcDecode → s.args.a2.toNat + s.args.a1.toNat ≤ s.params.dstSize) →
    (i = .fcSend → s.tx.flags.getLsbD 2 = false ∧ 1 ≤ s.tx.maxpl.toNat ∧ s.tx.maxpl.toNat ≤ 65257) →
    ∃ x, exec i s = .fault (.unwritten .src x) ∧ a ≤ x ∧ x ≤ a + j ∧ s.src.read x = none

/-! ## Control and the ring unit -/

/-- 44 R170: NOP reports OK and changes nothing else. -/
def Obligations.NopOnlyReportsOk : Prop :=
  decode 0x00000000 = .ok .nop ∧ ∀ s : State, exec .nop s = .next { s with status := .ok }

/-- 10 R39: the `i`-th byte from the oldest is RING's at `(rd + i) mod RB_CAP`. Every statement about the ring's bytes
reads them so. -/
def Obligations.RingByteWrapsAround : Prop :=
  ∀ (s : State) (i : Nat) (b : Byte),
    ringByte s i = .ok b ↔ s.ring.mem.read ((s.ring.rd + i) % ringCap s.params) = some b

/-- 40 R101: RB.WRITE appends the first `min(n, RB_CAP - cnt)` bytes offered, behind the bytes held, which stay; the
check uses the full `n`; RING changes only at the indices stored to. -/
def Obligations.RbWriteAppendsWhatFits : Prop :=
  decode 0x00000001 = .ok .rbWrite ∧ ∀ (s : State) (bs : List Byte), s.ring.cnt ≤ ringCap s.params →
    let a := s.args.a0.toNat
    let n := s.args.a1.toNat
    let k := min n (ringCap s.params - s.ring.cnt)
    (s.params.srcSize < a + n → exec .rbWrite s = .next { s with status := .outOfRange })
    ∧ (a + n ≤ s.params.srcSize → SrcHolds s a bs → bs.length = k →
        ∃ t, exec .rbWrite s = .next t
          ∧ t = { s with ring := { s.ring with mem := t.ring.mem, cnt := s.ring.cnt + k },
                         res := { s.res with r0 := BitVec.ofNat 32 k }, status := .ok }
          ∧ (∀ i < s.ring.cnt, ringByte t i = ringByte s i) ∧ RingHolds t s.ring.cnt bs
          ∧ ∀ x, (∀ i < k, x ≠ (s.ring.rd + s.ring.cnt + i) % ringCap s.params) →
              t.ring.mem.read x = s.ring.mem.read x)

/-- 40 R102: RB.READ's checks in order, the bytes it copies to DST, and the bytes it consumes. -/
def Obligations.RbReadCopiesAndConsumes : Prop :=
  decode 0x00000002 = .ok .rbRead ∧ ∀ (s : State) (bs : List Byte),
    let d := s.args.a0.toNat
    let n := s.args.a1.toNat
    let skip := s.args.a2.toNat
    (s.params.dstSize < d + n → exec .rbRead s = .next { s with status := .outOfRange })
    ∧ (d + n ≤ s.params.dstSize → s.ring.cnt < skip + n →
        exec .rbRead s = .next { s with res := { s.res with r0 := 0 }, status := .needMore })
    ∧ (d + n ≤ s.params.dstSize → RingHolds s skip bs → bs.length = n →
        ∃ t, exec .rbRead s = .next t
          ∧ t = { s with dst := t.dst, ring := consumed s (skip + n),
                         res := { s.res with r0 := s.args.a1 }, status := .ok }
          ∧ Written s.dst d bs t.dst ∧ ∀ i, ringByte t i = ringByte s (skip + n + i))

/-- 40 R103: RB.PEEK is RB.READ without the consumption. -/
def Obligations.RbPeekCopiesOnly : Prop :=
  decode 0x00000003 = .ok .rbPeek ∧ ∀ (s : State) (bs : List Byte),
    let d := s.args.a0.toNat
    let n := s.args.a1.toNat
    let skip := s.args.a2.toNat
    (s.params.dstSize < d + n → exec .rbPeek s = .next { s with status := .outOfRange })
    ∧ (d + n ≤ s.params.dstSize → s.ring.cnt < skip + n →
        exec .rbPeek s = .next { s with res := { s.res with r0 := 0 }, status := .needMore })
    ∧ (d + n ≤ s.params.dstSize → RingHolds s skip bs → bs.length = n →
        ∃ t, exec .rbPeek s = .next t
          ∧ t = { s with dst := t.dst, res := { s.res with r0 := s.args.a1 }, status := .ok }
          ∧ Written s.dst d bs t.dst)

/-- 40 R104: RB.PEEKB returns the byte at `off`, or NEED_MORE with RES0 = 0. -/
def Obligations.RbPeekbReturnsOneByte : Prop :=
  decode 0x00000004 = .ok .rbPeekb ∧ ∀ (s : State) (b : Byte),
    let off := s.args.a0.toNat
    (s.ring.cnt ≤ off → exec .rbPeekb s = .next { s with res := { s.res with r0 := 0 }, status := .needMore })
    ∧ (RingHolds s off [b] →
        exec .rbPeekb s = .next { s with res := { s.res with r0 := b.setWidth 32 }, status := .ok })

/-- 40 R105 and 10 R28: RB.PEEKHDR takes the five header fields from the 7 bytes at `skip`, little-endian, whether or
not the checksums agree, or gives NEED_MORE and changes nothing else. -/
def Obligations.RbPeekhdrParsesHeader : Prop :=
  decode 0x00000005 = .ok .rbPeekhdr ∧ ∀ (s : State) (b0 b1 b2 b3 b4 b5 b6 : Byte),
    let skip := s.args.a0.toNat
    (s.ring.cnt < skip + 7 → exec .rbPeekhdr s = .next { s with status := .needMore })
    ∧ (RingHolds s skip [b0, b1, b2, b3, b4, b5, b6] →
        exec .rbPeekhdr s = .next { s with
          hdr := { flags := b0, id := b2 ++ b1, len := b4 ++ b3, cksum := b6 ++ b5,
                   computed := BitVec.ofNat 16 (f16 [b0, b1, b2, b3, b4]) }
          status := .ok })

/-- 40 R106 and R110: RB.SKIPUNTIL consumes up to and including the first sentinel at or after `skip`, or everything. -/
def Obligations.RbSkipuntilConsumesThroughSentinel : Prop :=
  ∀ (v : Byte) (s : State), s.ring.Inv s.params →
    let skip := s.args.a0.toNat
    decode (BitVec.ofNat 32 (0x06 + 256 * v.toNat)) = .ok (.rbSkipuntil v)
    ∧ (∀ j, skip ≤ j → j < s.ring.cnt → ringByte s j = .ok v → (∀ j', skip ≤ j' → j' < j → ringByte s j' ≠ .ok v) →
        exec (.rbSkipuntil v) s = .next { s with
          ring := consumed s (j + 1), res := { s.res with r0 := BitVec.ofNat 32 (j + 1), r1 := 1 }, status := .ok })
    ∧ ((∀ j, skip ≤ j → j < s.ring.cnt → ringByte s j ≠ .ok v) →
        exec (.rbSkipuntil v) s = .next { s with
          ring := consumed s s.ring.cnt, res := { s.res with r0 := BitVec.ofNat 32 s.ring.cnt, r1 := 0 },
          status := .notFound })

/-- 40 R107: RB.CLEAR empties the ring; the RING bytes keep their values. -/
def Obligations.RbClearEmptiesRing : Prop :=
  decode 0x00000007 = .ok .rbClear
    ∧ ∀ s : State, exec .rbClear s = .next { s with ring := { s.ring with rd := 0, cnt := 0 }, status := .ok }

/-- 40 R108: over any sequence of RB.WRITE and RB.READ, the bytes delivered and then the bytes left in the ring are
the bytes held at the start and then the bytes accepted, in order; each write accepts `min(n, RB_CAP - cnt)` bytes. -/
def Obligations.RingIsFifo : Prop :=
  (∀ (ops : List RingOp) (s t : State) (ins outs q : List Byte), s.Inv → (∀ op ∈ ops, op.fits s.params) →
      RingHolds s 0 q → q.length = s.ring.cnt → Queue ops s ins outs t →
      ∃ q', RingHolds t 0 q' ∧ q'.length = t.ring.cnt ∧ outs ++ q' = q ++ ins)
    ∧ ∀ (s : State) (bs : List Byte), s.Inv → bs.length ≤ s.params.srcSize →
        ∃ t, ringOp s (.write bs) = .next t ∧ t.res.r0.toNat = min bs.length (ringCap s.params - s.ring.cnt)

/-! ## The payload codec -/

/-- The checksum in closed form: the low half is the sum of the bytes, the high half the sum of the bytes each times
its distance from the end, both mod 255; so a byte 0xFF counts as 0x00 does (00 R12). -/
def Obligations.F16ClosedForm : Prop :=
  (∀ s : List Byte, f16 s % 256 = (s.map BitVec.toNat).sum % 255
      ∧ f16 s / 256 = ((List.range s.length).map (fun i => (s.length - i) * byteAt s i)).sum % 255)
    ∧ ∀ s : List Byte, f16 (s ++ [0xFF#8]) = f16 (s ++ [0x00#8])

/-- The model's COBS is R13's loop as it is written, and its UNCOBS is R14's (00 R13, R14; log 7). STUFF is R13's loop on
the content and its checksum, low byte first, and then 0x00 (R17); UNSTUFF is R14's loop, BAD when that is, or when
fewer than two bytes come out; otherwise the last two bytes are the carried checksum, low byte first, the bytes before
them the content, and the computed checksum is the content's (R18). -/
def Obligations.StuffingIsTheSpecsLoops : Prop :=
  (∀ d : List Byte, cobs d = cobsLoop d) ∧ (∀ e : List Byte, uncobs e = uncobsLoop e (e.length + 1) 0 [])
    ∧ (∀ c : List Byte,
        stuff c = cobsLoop (c ++ [BitVec.ofNat 8 (f16 c % 256), BitVec.ofNat 8 (f16 c / 256)]) ++ [0x00#8])
    ∧ ∀ e : List Byte,
        (uncobsLoop e (e.length + 1) 0 [] = none → unstuff e = none)
        ∧ (∀ r : List Byte, uncobsLoop e (e.length + 1) 0 [] = some r → r.length < 2 → unstuff e = none)
        ∧ ∀ (c : List Byte) (lo hi : Byte), uncobsLoop e (e.length + 1) 0 [] = some (c ++ [lo, hi]) →
            unstuff e = some { content := c, carried := lo.toNat + 256 * hi.toNat, computed := f16 c }

/-- 41 R121: PC.ENCODE writes the stuffed and checksummed content to DST; the only 0x00 is its last byte; OUT_OF_RANGE
for SRC, or for the exact encoded length in DST. -/
def Obligations.PcEncodeStuffsContent : Prop :=
  decode 0x00000010 = .ok .pcEncode ∧ ∀ (s : State) (c : List Byte),
    let a := s.args.a0.toNat
    let n := s.args.a1.toNat
    let d := s.args.a2.toNat
    (s.params.srcSize < a + n → exec .pcEncode s = .next { s with status := .outOfRange })
    ∧ (a + n ≤ s.params.srcSize → SrcHolds s a c → c.length = n →
        let e := stuff c
        (s.params.dstSize < d + e.length → exec .pcEncode s = .next { s with status := .outOfRange })
        ∧ (d + e.length ≤ s.params.dstSize →
            ∃ t, exec .pcEncode s = .next t
              ∧ t = { s with dst := t.dst, status := .ok,
                             res := { s.res with r0 := BitVec.ofNat 32 e.length, r1 := BitVec.ofNat 32 (f16 c) } }
              ∧ Written s.dst d e t.dst
              ∧ ∀ i < e.length, t.dst.read (d + i) = some 0#8 ↔ i = e.length - 1))

/-- 41 R122: PC.DECODE's checks in order, its results for a region that decodes, and for one that does not: then DST
holds written bytes of which nothing is known (93 I12). -/
def Obligations.PcDecodeUnstuffsRegion : Prop :=
  decode 0x00000011 = .ok .pcDecode ∧ ∀ (s : State) (region : List Byte),
    let a := s.args.a0.toNat
    let m := s.args.a1.toNat
    let d := s.args.a2.toNat
    (s.params.srcSize < a + m ∨ s.params.dstSize < d + m →
      exec .pcDecode s = .next { s with status := .outOfRange })
    ∧ (a + m ≤ s.params.srcSize → d + m ≤ s.params.dstSize → SrcHolds s a region → region.length = m →
        (unstuff region = none →
          ∃ t, exec .pcDecode s = .next t
            ∧ t = { s with dst := t.dst, freeCtr := t.freeCtr, res := { s.res with r0 := 0 }, status := .plMalformed }
            ∧ (∀ i < m, (t.dst.read (d + i)).isSome = true)
            ∧ ∀ x, x < d ∨ d + m ≤ x → t.dst.read x = s.dst.read x)
        ∧ ∀ u, unstuff region = some u →
          ∃ t, exec .pcDecode s = .next t
            ∧ t = { s with dst := t.dst,
                           res := { s.res with r0 := BitVec.ofNat 32 u.content.length,
                                               r1 := BitVec.ofNat 32 u.computed, r2 := BitVec.ofNat 32 u.carried }
                           status := if u.computed = u.carried then .ok else .plChecksum }
            ∧ Written s.dst d u.content t.dst ∧ u.content.length + 2 ≤ m)

/-- 41 R123: PC.HCS is the checksum of the low byte of ARG0 and the low halves of ARG1 and ARG2, low bytes first. -/
def Obligations.PcHcsChecksumsHeader : Prop :=
  decode 0x00000012 = .ok .pcHcs ∧ ∀ s : State,
    exec .pcHcs s = .next { s with
      res := { s.res with r0 := BitVec.ofNat 32 (f16 [s.args.a0.setWidth 8, s.args.a1.setWidth 8,
        (s.args.a1 >>> 8).setWidth 8, s.args.a2.setWidth 8, (s.args.a2 >>> 8).setWidth 8]) }
      status := .ok }

/-- 41 R124: PC.ENCODE's output has no 0x00 byte but its last; and if the bytes it wrote, without the terminator, are
placed in SRC, PC.DECODE of them gives OK, the content, and its checksum twice. -/
def Obligations.EncodeDecodeRoundTrip : Prop :=
  ∀ (s t : State) (c : List Byte), s.Inv → SrcHolds s s.args.a0.toNat c → c.length = s.args.a1.toNat →
    exec .pcEncode s = .next t → t.status = .ok →
    (∀ i < t.res.r0.toNat, t.dst.read (s.args.a2.toNat + i) = some 0#8 ↔ i = t.res.r0.toNat - 1)
    ∧ ∀ u : State, u.src.wf →
      (∀ i < t.res.r0.toNat - 1, u.src.read (u.args.a0.toNat + i) = t.dst.read (s.args.a2.toNat + i)) →
      u.args.a1.toNat + 1 = t.res.r0.toNat →
      u.args.a0.toNat + u.args.a1.toNat ≤ u.params.srcSize → u.args.a2.toNat + u.args.a1.toNat ≤ u.params.dstSize →
      ∃ v, exec .pcDecode u = .next v ∧ v.status = .ok ∧ v.res.r0 = s.args.a1
        ∧ v.res.r1 = BitVec.ofNat 32 (f16 c) ∧ v.res.r2 = BitVec.ofNat 32 (f16 c)
        ∧ Written u.dst u.args.a2.toNat c v.dst

/-! ## The frame codec -/

/-- 30 R77 and R89: META is the fields of the table, each under its condition, in order and little-endian, of metaLen
bytes; PARSEMETA of META and a payload gives back the present fields, 0 for the absent ones, and the payload; and every
content that is long enough is the META of what PARSEMETA reads from it, then the payload. So for every flag byte. -/
def Obligations.MetadataLayout : Prop :=
  ∀ (flags : Byte),
    (∀ m : MetaFields, metaBytes flags m = metadata flags m ∧ (metadata flags m).length = metaLen flags)
    ∧ (∀ (m : MetaFields) (p : List Byte), parseMeta flags (metadata flags m ++ p) = (zeroAbsent flags m, p))
    ∧ ∀ content : List Byte, metaLen flags ≤ content.length →
        metadata flags (parseMeta flags content).1 ++ (parseMeta flags content).2 = content

/-- 42 R131: FC.BUILD's checks in order, and the frame it writes, every field from the TX registers. -/
def Obligations.FcBuildWritesFrame : Prop :=
  decode 0x00000020 = .ok .fcBuild ∧ ∀ (s : State) (p : List Byte),
    let a := s.args.a0.toNat
    let n := s.args.a1.toNat
    let d := s.args.a2.toNat
    let m : MetaFields :=
      { reqid := s.tx.reqid, pktid := s.tx.pktid, offset := s.tx.offset, total := s.tx.total, ulen := s.tx.ulen }
    let L := dataLength s.tx.flags m p
    (s.params.srcSize < a + n → exec .fcBuild s = .next { s with status := .outOfRange })
    ∧ (a + n ≤ s.params.srcSize → SrcHolds s a p → p.length = n →
        (65535 < L → exec .fcBuild s = .next { s with status := .tooLong })
        ∧ (L ≤ 65535 → s.params.dstSize < d + (7 + L) → exec .fcBuild s = .next { s with status := .outOfRange })
        ∧ (L ≤ 65535 → d + (7 + L) ≤ s.params.dstSize →
            ∃ t, exec .fcBuild s = .next t
              ∧ t = { s with dst := t.dst, status := .ok
                             res := { s.res with
                               r0 := BitVec.ofNat 32 (7 + L)
                               r1 := BitVec.ofNat 32 (f16 (metaBytes s.tx.flags m ++ p))
                               r2 := BitVec.ofNat 32 (hcs s.tx.flags s.tx.id (BitVec.ofNat 16 L)) } }
              ∧ (frame s.tx.flags s.tx.id m p).length = 7 + L
              ∧ Written s.dst d (frame s.tx.flags s.tx.id m p) t.dst))

/-- 42 R132: FC.SEND's checks in order; a payload of at most TX_MAXPL bytes goes out as one unchunked frame. -/
def Obligations.FcSendOneFrame : Prop :=
  decode 0x00000021 = .ok .fcSend ∧ ∀ (s : State) (p : List Byte),
    let a := s.args.a0.toNat
    let n := s.args.a1.toNat
    let d := s.args.a2.toNat
    let M := s.tx.maxpl.toNat
    let f := frame s.tx.flags s.tx.id { reqid := s.tx.reqid, pktid := 0, offset := 0, total := 0, ulen := s.tx.ulen } p
    (s.tx.flags.getLsbD 2 = true ∨ M < 1 ∨ 65257 < M → exec .fcSend s = .next { s with status := .illegalArg })
    ∧ (s.tx.flags.getLsbD 2 = false → 1 ≤ M → M ≤ 65257 →
        (s.params.srcSize < a + n → exec .fcSend s = .next { s with status := .outOfRange })
        ∧ (a + n ≤ s.params.srcSize → SrcHolds s a p → p.length = n → n ≤ M →
            (s.params.dstSize < d + f.length → exec .fcSend s = .next { s with status := .outOfRange })
            ∧ (d + f.length ≤ s.params.dstSize →
                ∃ t, exec .fcSend s = .next t
                  ∧ t = { s with dst := t.dst, status := .ok,
                                 res := { s.res with r0 := BitVec.ofNat 32 f.length, r1 := 1, r2 := 0 } }
                  ∧ Written s.dst d f t.dst)))

/-- 42 R132: a longer payload goes out as `ceil(n / M)` frames: the `j`-th carries the payload bytes from `j * M` on,
at most `M` of them, with CHK set, offset `j * M`, total `n` and the next packetID, which PKT_CTR then holds. -/
def Obligations.FcSendChunks : Prop :=
  ∀ (s : State) (p : List Byte),
    let a := s.args.a0.toNat
    let n := s.args.a1.toNat
    let d := s.args.a2.toNat
    let M := s.tx.maxpl.toNat
    let pid : Word := if s.pktCtr = 0xFFFFFFFF#32 then 1 else s.pktCtr + 1
    let q := (n + M - 1) / M
    let chunk := fun j => frame (s.tx.flags ||| 0x04#8) s.tx.id
      { reqid := s.tx.reqid, pktid := pid, offset := BitVec.ofNat 32 (j * M), total := s.args.a1, ulen := s.tx.ulen }
      ((p.drop (j * M)).take M)
    let out := ((List.range q).map chunk).flatten
    s.tx.flags.getLsbD 2 = false → 1 ≤ M → M ≤ 65257 → a + n ≤ s.params.srcSize → SrcHolds s a p → p.length = n →
    M < n →
      (s.params.dstSize < d + out.length → exec .fcSend s = .next { s with status := .outOfRange })
      ∧ (d + out.length ≤ s.params.dstSize →
          ∃ t, exec .fcSend s = .next t
            ∧ t = { s with dst := t.dst, status := .ok, pktCtr := pid,
                           res := { s.res with r0 := BitVec.ofNat 32 out.length, r1 := BitVec.ofNat 32 q, r2 := pid } }
            ∧ Written s.dst d out t.dst)

/-- 42 R133 and R134: FC.TRYPARSE's five checks in order; it consumes nothing, and RES0 is written on OK only. -/
def Obligations.FcTryparseChecksInOrder : Prop :=
  decode 0x00000022 = .ok .fcTryparse ∧ ∀ (s : State) (h : HdrRegs) (b : Byte),
    let L := h.len.toNat
    (s.ring.cnt < 7 → exec .fcTryparse s = .next { s with status := .needMore })
    ∧ (HeaderAt s h →
        (h.cksum ≠ h.computed → exec .fcTryparse s = .next { s with hdr := h, status := .hdrCorrupt })
        ∧ (h.cksum = h.computed →
            (L < 4 ∨ ringCap s.params < 7 + L → exec .fcTryparse s = .next { s with hdr := h, status := .hdrCorrupt })
            ∧ (4 ≤ L → 7 + L ≤ ringCap s.params →
                (s.ring.cnt < 7 + L → exec .fcTryparse s = .next { s with hdr := h, status := .needMore })
                ∧ (7 + L ≤ s.ring.cnt → ringByte s (7 + L - 1) = .ok b →
                    (b ≠ 0#8 → exec .fcTryparse s = .next { s with hdr := h, status := .hdrCorrupt })
                    ∧ (b = 0#8 → exec .fcTryparse s = .next { s with
                        hdr := h, res := { s.res with r0 := BitVec.ofNat 32 (7 + L) }, status := .ok })))))

/-- 42 R135 and R136, the outcomes of FC.RECV that deliver nothing: NEED_MORE, HDR_CORRUPT, PL_MALFORMED and
PL_CHECKSUM, each with what it consumes (through the first 0x00, or all) and writes. -/
def Obligations.FcRecvFailures : Prop :=
  ∀ (s : State) (h : HdrRegs), s.Inv →
    (s.ring.cnt < 7 →
      exec .fcRecv s = .next { s with res := { s.res with r0 := 0, r1 := 0 }, status := .needMore })
    ∧ (HeaderAt s h → HeaderGood s h → s.ring.cnt < 7 + h.len.toNat →
        exec .fcRecv s = .next { s with hdr := h, res := { s.res with r0 := 0, r1 := 0 }, status := .needMore })
    ∧ (HeaderAt s h → (HeaderGood s h → 7 + h.len.toNat ≤ s.ring.cnt) → ¬ FrameAt s h →
        ∃ k, ThroughFirstZero s k ∧ exec .fcRecv s = .next { s with
          hdr := h, ring := consumed s k, res := { s.res with r0 := BitVec.ofNat 32 k, r1 := 0 },
          status := .hdrCorrupt })
    ∧ (FrameAt s h → (RegionGives s h none ∨ ∃ u, RegionGives s h (some u) ∧ u.content.length < metaLen h.flags) →
        ∃ k, ThroughFirstZero s k ∧ exec .fcRecv s = .next { s with
          hdr := h, ring := consumed s k, res := { s.res with r0 := BitVec.ofNat 32 k, r1 := 0 },
          status := .plMalformed })
    ∧ ∀ u, FrameAt s h → RegionGives s h (some u) → metaLen h.flags ≤ u.content.length → u.computed ≠ u.carried →
        ∃ k, ThroughFirstZero s k ∧ exec .fcRecv s = .next { s with
          hdr := h, ring := consumed s k, res := { s.res with r0 := BitVec.ofNat 32 k, r1 := 0 },
          rx := { s.rx with pcsCalc := BitVec.ofNat 16 u.computed, pcsRcvd := BitVec.ofNat 16 u.carried },
          status := .plChecksum }

/-- 42 R135 and R136, a valid unchunked frame: its payload goes to DST, the frame is consumed and described in the RX
registers; if the payload does not fit DST nothing but STATUS is committed. -/
def Obligations.FcRecvDeliversPayload : Prop :=
  decode 0x00000023 = .ok .fcRecv ∧ ∀ (s : State) (h : HdrRegs) (u : Unstuffed) (m : MetaFields) (p : List Byte),
    ValidFrameAt s h u → h.flags.getLsbD 2 = false → parseMeta h.flags u.content = (m, p) →
      (s.params.dstSize < s.args.a0.toNat + p.length → exec .fcRecv s = .next { s with status := .outOfRange })
      ∧ (s.args.a0.toNat + p.length ≤ s.params.dstSize →
          ∃ t, exec .fcRecv s = .next t
            ∧ t = { s with
                hdr := h, rx := rxOf h u, ring := consumed s (7 + h.len.toNat), dst := t.dst
                res := { s.res with r0 := BitVec.ofNat 32 (7 + h.len.toNat), r1 := BitVec.ofNat 32 p.length }
                status := .ok }
            ∧ Written s.dst s.args.a0.toNat p t.dst)

/-- 42 R137, a valid chunked frame: FC.RECV does to the slots and DST what CR.RECV does when it is given the key
`(CONN_ID, pid)`, the offset, the total and the payload; the frame is consumed whatever the reassembler answers, and
its RX registers are written. OUT_OF_RANGE commits nothing but STATUS. (`c` is a state with the same slots and DST
whose SRC, of whatever size, holds the payload.) -/
def Obligations.FcRecvHandsChunkToReassembler : Prop :=
  ∀ (s c ct : State) (h : HdrRegs) (u : Unstuffed) (m : MetaFields) (p : List Byte), s.Inv → ValidFrameAt s h u →
    h.flags.getLsbD 2 = true → parseMeta h.flags u.content = (m, p) →
    c.params = { s.params with srcSize := c.params.srcSize } → c.slots = s.slots → c.dst = s.dst →
    SrcHolds c 0 p → p.length ≤ c.params.srcSize →
    c.args = { a0 := 0, a1 := BitVec.ofNat 32 p.length, a2 := s.args.a0, a3 := m.pktid, a4 := m.offset, a5 := m.total,
               a6 := s.connId.setWidth 32, a7 := 0 } →
    exec .crRecv c = .next ct →
      (ct.status = .outOfRange → exec .fcRecv s = .next { s with status := .outOfRange })
      ∧ (ct.status ≠ .outOfRange → exec .fcRecv s = .next { s with
          hdr := h, rx := rxOf h u, ring := consumed s (7 + h.len.toNat), slots := ct.slots, dst := ct.dst
          res := { s.res with r0 := BitVec.ofNat 32 (7 + h.len.toNat)
                              r1 := if ct.status = .assembled then m.total else 0 }
          status := ct.status })

/-- 42 R140: FC.BUILD's frame, written to an empty ring that holds it, parses: FC.TRYPARSE gives OK and the built
header fields; for an unchunked frame FC.RECV delivers the metadata (0 where the flags leave a field out) and the
payload. -/
def Obligations.BuiltFrameRoundTrip : Prop :=
  ∀ (s t u : State) (p : List Byte), s.Inv → SrcHolds s s.args.a0.toNat p → p.length = s.args.a1.toNat →
    exec .fcBuild s = .next t → t.status = .ok →
    u.Inv → u.ring.cnt = 0 → t.res.r0.toNat ≤ ringCap u.params →
    (∀ i < t.res.r0.toNat, u.src.read (u.args.a0.toNat + i) = t.dst.read (s.args.a2.toNat + i)) →
    u.args.a1 = t.res.r0 → u.args.a0.toNat + u.args.a1.toNat ≤ u.params.srcSize →
    ∃ v w, exec .rbWrite u = .next v ∧ exec .fcTryparse v = .next w ∧ w.status = .ok ∧ w.res.r0 = t.res.r0
      ∧ w.hdr.flags = s.tx.flags ∧ w.hdr.id = s.tx.id ∧ w.hdr.len.toNat + 7 = t.res.r0.toNat
      ∧ w.hdr.cksum = w.hdr.computed
      ∧ ∀ x : State, x = { w with args := x.args } → s.tx.flags.getLsbD 2 = false →
          x.args.a0.toNat + p.length ≤ x.params.dstSize →
          ∃ y, exec .fcRecv x = .next y ∧ y.status = .ok ∧ y.ring.cnt = 0 ∧ Written x.dst x.args.a0.toNat p y.dst
            ∧ y.rx.flags = s.tx.flags ∧ y.rx.id = s.tx.id ∧ y.rx.len = s.args.a1
            ∧ y.rx.reqid = (if s.tx.flags.extractLsb' 0 2 ≠ 0#2 then s.tx.reqid else 0)
            ∧ y.rx.ulen = (if s.tx.flags.extractLsb' 3 2 ≠ 0#2 then s.tx.ulen else 0)
            ∧ y.rx.pktid = 0 ∧ y.rx.offset = 0 ∧ y.rx.total = 0

/-- 70 R210 and 42 R135, R138: a full ring of at least 7 bytes never gives NEED_MORE, and FC.RECV then consumes at
least one byte, unless it is OUT_OF_RANGE, which leaves the frame (42 R136); a failure consumes at least one byte
whenever 7 are held, and never one after the first 0x00; a ring of fewer than 7 bytes always gives NEED_MORE. -/
def Obligations.RecvMakesProgress : Prop :=
  ∀ s t : State, s.Inv → exec .fcRecv s = .next t →
    (s.ring.cnt = ringCap s.params → 7 ≤ ringCap s.params →
      t.status ≠ .needMore ∧ (t.status ≠ .outOfRange → t.ring.cnt < s.ring.cnt))
    ∧ (t.status = .hdrCorrupt ∨ t.status = .plMalformed ∨ t.status = .plChecksum →
        7 ≤ s.ring.cnt ∧ t.ring.cnt < s.ring.cnt
          ∧ ∀ j < s.ring.cnt, ringByte s j = .ok 0#8 → s.ring.cnt ≤ t.ring.cnt + (j + 1))
    ∧ (ringCap s.params < 7 → t.status = .needMore)

/-- 42 R138, the reasons it gives: while a frame's bytes `X`, which end in 0x00, stand before other bytes `Y`, a failing
FC.RECV consumes at least one byte, and bytes of `X` only; what is left of `X` still ends in 0x00, or nothing is left and
`Y` is at the front. -/
def Obligations.ResyncStaysInsideFrame : Prop :=
  ∀ (s t : State) (X Y : List Byte), s.Inv → X.getLast? = some 0#8 → RingHolds s 0 (X ++ Y) →
    s.ring.cnt = (X ++ Y).length → exec .fcRecv s = .next t →
    t.status = .hdrCorrupt ∨ t.status = .plMalformed ∨ t.status = .plChecksum →
    ∃ k, 1 ≤ k ∧ k ≤ X.length ∧ RingHolds t 0 (X.drop k ++ Y) ∧ t.ring.cnt = (X.drop k ++ Y).length
      ∧ (X.drop k = [] ∨ (X.drop k).getLast? = some 0#8)

/-- 42 R138: the ring holds a corrupted frame `X`, which still ends in 0x00, and then `Y` with a valid frame at its
front. `X` is rejected at the front: its own header does not match, or it does and `X` holds the whole frame it names,
which is not valid. As R138 asks, no later position inside `X` starts a header with a matching checksum. Then FC.RECV
commands give failure statuses, consuming bytes of `X` only and changing nothing but the ring, HDR, RES, RX and STATUS,
until exactly `X` is consumed; and the next one delivers an unchunked frame with OK. (A chunked one goes to the reassembler,
FcRecvHandsChunkToReassembler.) -/
def Obligations.ResyncDeliversNextFrame : Prop :=
  ∀ (s : State) (X Y : List Byte) (h : HdrRegs) (u : Unstuffed) (m : MetaFields) (p : List Byte), s.Inv →
    X.getLast? = some 0#8 → RingHolds s 0 (X ++ Y) → s.ring.cnt = (X ++ Y).length →
    ValidFrameAt { s with ring := consumed s X.length } h u → parseMeta h.flags u.content = (m, p) →
    (∀ h' : HdrRegs, HeaderAt s h' → h'.cksum = h'.computed →
      7 + h'.len.toNat ≤ X.length ∧ ∀ u' : Unstuffed, ¬ ValidFrameAt s h' u') →
    (∀ j, 0 < j → j < X.length → ¬ MatchingHeader ((X ++ Y).drop j)) →
    ∃ (vs : List State) (t : State), Receives s vs t ∧ t.ring = consumed s X.length
      ∧ (∀ v ∈ t :: vs, (v.status = .hdrCorrupt ∨ v.status = .plMalformed ∨ v.status = .plChecksum)
          ∧ ∃ k, 1 ≤ k ∧ k ≤ X.length
              ∧ v = { s with ring := consumed s k, hdr := v.hdr, res := v.res, rx := v.rx, status := v.status })
      ∧ (h.flags.getLsbD 2 = false → s.args.a0.toNat + p.length ≤ s.params.dstSize →
          ∃ v, exec .fcRecv t = .next v ∧ v.status = .ok ∧ Written s.dst s.args.a0.toNat p v.dst ∧ v.rx = rxOf h u
            ∧ v.ring = consumed s (X.length + (7 + h.len.toNat)))

/-! ## The chunk reassembler -/

/-- 43 R151, R152, R154 and R161, a chunk for a key that is Absent: a violation and an allocation failure change
nothing but RES0 and STATUS; otherwise the chunk either completes the payload at once, which goes to DST and leaves
the slot taken for it free, or opens the lowest free slot with exactly its own bytes filled. The last clause, that no
DATA byte outside the chunk is written in the slot it opens, is 10 R47's; that the slot's DATA is emptied when it is
taken, which R151 does not say, is the model's reading of it (DEDUCED, log 6). -/
def Obligations.CrRecvOnAbsentKey : Prop :=
  decode 0x00000030 = .ok .crRecv ∧ ∀ (s : State) (data : List Byte), s.Inv →
    let a := s.args.a0.toNat
    let n := s.args.a1.toNat
    let d := s.args.a2.toNat
    let pid := s.args.a3
    let off := s.args.a4.toNat
    let tot := s.args.a5.toNat
    let conn : Half := s.args.a6.setWidth 16
    (s.params.srcSize < a + n → exec .crRecv s = .next { s with status := .outOfRange })
    ∧ (a + n ≤ s.params.srcSize → SrcHolds s a data → data.length = n → Absent s conn pid →
        (tot = 0 ∨ n = 0 ∨ tot < off + n →
          exec .crRecv s = .next { s with res := { s.res with r0 := 0 }, status := .chunkViolation })
        ∧ (tot ≠ 0 → n ≠ 0 → off + n ≤ tot →
            (s.params.crMaxTotal < tot ∨ (∀ sl ∈ s.slots, sl.valid = true) →
              exec .crRecv s = .next { s with res := { s.res with r0 := 0 }, status := .allocFail })
            ∧ (∀ k, tot ≤ s.params.crMaxTotal → k < s.slots.length → (slotAt s.slots k).valid = false →
                (∀ j < k, (slotAt s.slots j).valid = true) →
                (n = tot → s.params.dstSize < d + tot → exec .crRecv s = .next { s with status := .outOfRange })
                ∧ (n = tot → d + tot ≤ s.params.dstSize →
                    ∃ t sl, exec .crRecv s = .next t
                      ∧ t = { s with dst := t.dst, slots := t.slots, res := { s.res with r0 := s.args.a5 }
                                     status := .assembled }
                      ∧ Written s.dst d data t.dst ∧ SlotSet s.slots k sl t.slots ∧ sl.valid = false)
                ∧ (n < tot →
                    ∃ t sl, exec .crRecv s = .next t
                      ∧ t = { s with slots := t.slots, res := { s.res with r0 := BitVec.ofNat 32 (tot - n) }
                                     status := .chunkAccepted }
                      ∧ SlotSet s.slots k sl t.slots
                      ∧ sl.valid = true ∧ sl.conn = conn ∧ sl.pid = pid ∧ sl.total = s.args.a5
                      ∧ sl.rem = BitVec.ofNat 32 (tot - n) ∧ sl.idle = 0
                      ∧ (∀ j, j ∈ sl.fill ↔ off ≤ j ∧ j < off + n)
                      ∧ (∀ i (h : i < data.length), sl.data.read (off + i) = some data[i])
                      ∧ ∀ j, ¬ (off ≤ j ∧ j < off + n) → sl.data.read j = none))))

/-- 43 R151, R153, R155, R156 and R161, a chunk for a key that slot `k` holds: a violation discards the entry; an
accepted chunk is recorded and restarts the timer; the chunk that leaves nothing missing sends the whole payload to
DST and frees the slot, or, if it does not fit, changes nothing. -/
def Obligations.CrRecvOnOpenEntry : Prop :=
  ∀ (s : State) (data : List Byte) (k : Nat) (sl : Slot), s.Inv →
    let a := s.args.a0.toNat
    let n := s.args.a1.toNat
    let d := s.args.a2.toNat
    let off := s.args.a4.toNat
    let tot := s.args.a5.toNat
    a + n ≤ s.params.srcSize → SrcHolds s a data → data.length = n →
    FillingAt s k sl (s.args.a6.setWidth 16) s.args.a3 →
      (s.args.a5 ≠ sl.total ∨ n = 0 ∨ tot < off + n ∨ (∃ j ∈ sl.fill, off ≤ j ∧ j < off + n) →
        ∃ t, exec .crRecv s = .next t
          ∧ t = { s with slots := t.slots, res := { s.res with r0 := 0 }, status := .chunkViolation }
          ∧ SlotSet s.slots k { sl with valid := false } t.slots)
      ∧ (s.args.a5 = sl.total → n ≠ 0 → off + n ≤ tot → (∀ j ∈ sl.fill, ¬ (off ≤ j ∧ j < off + n)) →
          (n = sl.rem.toNat → s.params.dstSize < d + tot → exec .crRecv s = .next { s with status := .outOfRange })
          ∧ (n = sl.rem.toNat → d + tot ≤ s.params.dstSize →
              ∃ t sl', exec .crRecv s = .next t
                ∧ t = { s with dst := t.dst, slots := t.slots, res := { s.res with r0 := s.args.a5 }
                               status := .assembled }
                ∧ (∀ j < tot, t.dst.read (d + j) = if off ≤ j ∧ j < off + n then data[j - off]? else sl.data.read j)
                ∧ (∀ x, x < d ∨ d + tot ≤ x → t.dst.read x = s.dst.read x)
                ∧ SlotSet s.slots k sl' t.slots ∧ sl'.valid = false)
          ∧ (n ≠ sl.rem.toNat →
              ∃ t sl', exec .crRecv s = .next t
                ∧ t = { s with slots := t.slots, res := { s.res with r0 := BitVec.ofNat 32 (sl.rem.toNat - n) }
                               status := .chunkAccepted }
                ∧ SlotSet s.slots k sl' t.slots
                ∧ sl' = { sl with fill := sl'.fill, data := sl'.data, idle := 0
                                  rem := BitVec.ofNat 32 (sl.rem.toNat - n) }
                ∧ (∀ j, j ∈ sl'.fill ↔ j ∈ sl.fill ∨ (off ≤ j ∧ j < off + n))
                ∧ ∀ j, sl'.data.read j = if off ≤ j ∧ j < off + n then data[j - off]? else sl.data.read j))

/-- 43 R150, R154 and R161: a chunk touches no slot of another key, where two keys are the same only if connection and
packetID both are. CR.RECV leaves every valid slot that does not hold its key as it was, whatever the outcome; so does
FC.RECV with every valid slot that does not hold the key `(CONN_ID, pid)` of a valid chunked frame at the front of the
ring, which is every valid slot if there is no such frame. -/
def Obligations.OtherConnectionsUntouched : Prop :=
  ∀ (s t : State) (j : Nat) (sl : Slot), s.slots[j]? = some sl → sl.valid = true →
    (exec .crRecv s = .next t → ¬ (sl.conn = s.args.a6.setWidth 16 ∧ sl.pid = s.args.a3) → t.slots[j]? = some sl)
    ∧ (exec .fcRecv s = .next t →
        (∀ (h : HdrRegs) (u : Unstuffed), ValidFrameAt s h u → h.flags.getLsbD 2 = true →
          ¬ (sl.conn = s.connId ∧ sl.pid = (parseMeta h.flags u.content).1.pktid)) → t.slots[j]? = some sl)

/-- 43 R158 and R159: a tick, as an event or as CR.TICK. In the timed variant every valid slot's IDLE advances, a slot
that reaches CR_IDLE_TICKS is evicted, invalid slots stay, and CR_EVICTS counts the evictions mod 2^32; CR.TICK also
reports their number. In the default variant nothing happens but CR.TICK's RES0 = 0. -/
def Obligations.TickAgesAndEvicts : Prop :=
  decode 0x00000031 = .ok .crTick ∧ ∀ (s : State) (rest : List HostAction), s.Inv →
    ∃ (slots : List Slot) (e : Nat), slots.length = s.slots.length
      ∧ (∀ (k : Nat) (sl : Slot), s.slots[k]? = some sl → ∃ sl' : Slot, slots[k]? = some sl'
          ∧ (s.params.crTimed = false ∨ sl.valid = false → sl' = sl)
          ∧ (s.params.crTimed = true → sl.valid = true →
              sl' = { sl with idle := sl'.idle, valid := sl'.valid } ∧ sl'.idle.toNat = sl.idle.toNat + 1
                ∧ (sl'.valid = false ↔ s.params.crIdleTicks ≤ sl.idle.toNat + 1)))
      ∧ e + slotsUsed slots = slotsUsed s.slots
      ∧ exec .crTick s = .next { s with
          slots := slots, crEvicts := BitVec.ofNat 32 (s.crEvicts.toNat + e)
          res := { s.res with r0 := BitVec.ofNat 32 e }, status := .ok }
      ∧ (s.inputs = .tick :: rest → step s = .next { s with
          inputs := rest, slots := slots, crEvicts := BitVec.ofNat 32 (s.crEvicts.toNat + e) })

/-- 43 R158 and 70 R211: a slot that has just taken a chunk survives exactly CR_IDLE_TICKS - 1 ticks in a row. -/
def Obligations.EvictedOnTheLastIdleTick : Prop :=
  ∀ (s : State) (k n : Nat) (sl : Slot), s.Inv → s.params.crTimed = true → s.slots[k]? = some sl → sl.valid = true →
    sl.idle = 0 →
    ∃ sl' : Slot, (State.tickSlots^[n] s).slots[k]? = some sl' ∧ (sl'.valid = true ↔ n < s.params.crIdleTicks)

/-- 43 R160: CR.EVICTCONN releases exactly the connection's valid slots and reports their number; CR_EVICTS does not
count them. -/
def Obligations.EvictconnReleasesConnection : Prop :=
  decode 0x00000032 = .ok .crEvictconn ∧ ∀ s : State,
    let c : Half := s.args.a0.setWidth 16
    ∃ (slots : List Slot) (e : Nat), exec .crEvictconn s = .next { s with
        slots := slots, res := { s.res with r0 := BitVec.ofNat 32 e }, status := .ok }
      ∧ slots.length = s.slots.length ∧ e + slotsUsed slots = slotsUsed s.slots
      ∧ ∀ (k : Nat) (sl : Slot), s.slots[k]? = some sl →
          slots[k]? = some (if sl.valid = true ∧ sl.conn = c then { sl with valid := false } else sl)

/-- 30 R72 and 70 R212: the three actions of `DISCONNECT c` empty the ring and release every slot of connection `c`,
and leave every slot of another connection as it was. -/
def Obligations.DisconnectEvictsConnection : Prop :=
  ∀ (s : State) (c : Word), s.inputs = assemble [.disconnect c] →
    ∃ t, Host.Core.run Sys2Proof.core 3 s = .next t ∧ t.inputs = [] ∧ t.ring.cnt = 0 ∧ t.status = .ok
      ∧ (∀ sl ∈ t.slots, ¬ (sl.valid = true ∧ sl.conn = c.setWidth 16))
      ∧ (∀ (k : Nat) (sl : Slot), s.slots[k]? = some sl → sl.conn ≠ c.setWidth 16 → t.slots[k]? = some sl)
      ∧ t.crEvicts = s.crEvicts

/-- 30 R71 and R72: the host actions of each line, with R21's addresses, and of each pseudo-instruction; a program's
actions are its lines' in order (44 R172). -/
def Obligations.AssemblyLinesAreHostActions : Prop :=
  (∀ i : Instr, assemble [.command i] = [.csrWrite 0x000 (encode i)])
    ∧ (∀ (s : State) (p : CsrRow × Nat) (v : Word), p ∈ csrTable s → p.1.rw = true →
        assemble [.set p.1.reg v] = [.csrWrite p.1.addr v])
    ∧ (∀ (a : Nat) (bs : List Byte), assemble [.load a bs] = bs.mapIdx (fun i b => .srcWrite (a + i) b.toNat))
    ∧ assemble [.tick] = [.tick]
    ∧ (∀ vs : List Word, vs.length ≤ 8 → assemble [.args vs] = vs.mapIdx (fun i v => .csrWrite (0x010 + 4 * i) v))
    ∧ assemble [.resync] = [.csrWrite 0x010 0, .csrWrite 0x000 0x00000006]
    ∧ (∀ c : Word, assemble [.disconnect c]
        = [.csrWrite 0x000 0x00000007, .csrWrite 0x010 c, .csrWrite 0x000 0x00000032])
    ∧ (∀ (a : Word) (bs : List Byte), assemble [.deliver a bs]
        = bs.mapIdx (fun i b => .srcWrite (a.toNat + i) b.toNat)
          ++ [.csrWrite 0x010 a, .csrWrite 0x014 (BitVec.ofNat 32 bs.length), .csrWrite 0x000 0x00000001])
    ∧ ∀ l l' : List AsmLine, assemble (l ++ l') = assemble l ++ assemble l'

/-- 43 R164: chunks that exactly tile a payload, offered in any order for a key that is Absent while a slot is free,
give CHUNK_ACCEPTED for each but the last and ASSEMBLED for the last; the payload is in DST, every byte outside it is
as before, and the key is Absent again. -/
def Obligations.ReassemblyIsComplete : Prop :=
  ∀ (s : State) (conn : Half) (pid : Word) (d : Nat) (P : List Byte) (cs : List (Nat × List Byte)), s.Inv →
    1 ≤ P.length → P.length ≤ s.params.crMaxTotal → d + P.length ≤ s.params.dstSize → Tiles P cs →
    (∀ c ∈ cs, c.2.length ≤ s.params.srcSize) → Absent s conn pid → (∃ sl ∈ s.slots, sl.valid = false) →
    ∃ t, Feed conn pid P.length d cs s (List.replicate (cs.length - 1) .chunkAccepted ++ [.assembled]) t
      ∧ Written s.dst d P t.dst ∧ Absent t conn pid
end

