-- ==== Sys2Proof/Laws/State.lean ====
section
/-! SUPPORT. Every field of `State` after every register-write operation of Machine/Ops.lean, so that no later proof
unfolds a record update. -/

namespace Sys2Proof.Machine

variable (s : State)

/-! ### withStatus -/
@[simp] theorem State.withStatus_params (x : Status) : (s.withStatus x).params = s.params := rfl
@[simp] theorem State.withStatus_cmd (x : Status) : (s.withStatus x).cmd = s.cmd := rfl
@[simp] theorem State.withStatus_status (x : Status) : (s.withStatus x).status = x := rfl
@[simp] theorem State.withStatus_connId (x : Status) : (s.withStatus x).connId = s.connId := rfl
@[simp] theorem State.withStatus_pktCtr (x : Status) : (s.withStatus x).pktCtr = s.pktCtr := rfl
@[simp] theorem State.withStatus_args (x : Status) : (s.withStatus x).args = s.args := rfl
@[simp] theorem State.withStatus_res (x : Status) : (s.withStatus x).res = s.res := rfl
@[simp] theorem State.withStatus_hdr (x : Status) : (s.withStatus x).hdr = s.hdr := rfl
@[simp] theorem State.withStatus_tx (x : Status) : (s.withStatus x).tx = s.tx := rfl
@[simp] theorem State.withStatus_rx (x : Status) : (s.withStatus x).rx = s.rx := rfl
@[simp] theorem State.withStatus_ring (x : Status) : (s.withStatus x).ring = s.ring := rfl
@[simp] theorem State.withStatus_src (x : Status) : (s.withStatus x).src = s.src := rfl
@[simp] theorem State.withStatus_dst (x : Status) : (s.withStatus x).dst = s.dst := rfl
@[simp] theorem State.withStatus_slots (x : Status) : (s.withStatus x).slots = s.slots := rfl
@[simp] theorem State.withStatus_crEvicts (x : Status) : (s.withStatus x).crEvicts = s.crEvicts := rfl
@[simp] theorem State.withStatus_inputs (x : Status) : (s.withStatus x).inputs = s.inputs := rfl
@[simp] theorem State.withStatus_readData (x : Status) : (s.withStatus x).readData = s.readData := rfl
@[simp] theorem State.withStatus_freeCtr (x : Status) : (s.withStatus x).freeCtr = s.freeCtr := rfl

/-! ### withCmd -/
@[simp] theorem State.withCmd_params (x : Word) : (s.withCmd x).params = s.params := rfl
@[simp] theorem State.withCmd_cmd (x : Word) : (s.withCmd x).cmd = x := rfl
@[simp] theorem State.withCmd_status (x : Word) : (s.withCmd x).status = s.status := rfl
@[simp] theorem State.withCmd_connId (x : Word) : (s.withCmd x).connId = s.connId := rfl
@[simp] theorem State.withCmd_pktCtr (x : Word) : (s.withCmd x).pktCtr = s.pktCtr := rfl
@[simp] theorem State.withCmd_args (x : Word) : (s.withCmd x).args = s.args := rfl
@[simp] theorem State.withCmd_res (x : Word) : (s.withCmd x).res = s.res := rfl
@[simp] theorem State.withCmd_hdr (x : Word) : (s.withCmd x).hdr = s.hdr := rfl
@[simp] theorem State.withCmd_tx (x : Word) : (s.withCmd x).tx = s.tx := rfl
@[simp] theorem State.withCmd_rx (x : Word) : (s.withCmd x).rx = s.rx := rfl
@[simp] theorem State.withCmd_ring (x : Word) : (s.withCmd x).ring = s.ring := rfl
@[simp] theorem State.withCmd_src (x : Word) : (s.withCmd x).src = s.src := rfl
@[simp] theorem State.withCmd_dst (x : Word) : (s.withCmd x).dst = s.dst := rfl
@[simp] theorem State.withCmd_slots (x : Word) : (s.withCmd x).slots = s.slots := rfl
@[simp] theorem State.withCmd_crEvicts (x : Word) : (s.withCmd x).crEvicts = s.crEvicts := rfl
@[simp] theorem State.withCmd_inputs (x : Word) : (s.withCmd x).inputs = s.inputs := rfl
@[simp] theorem State.withCmd_readData (x : Word) : (s.withCmd x).readData = s.readData := rfl
@[simp] theorem State.withCmd_freeCtr (x : Word) : (s.withCmd x).freeCtr = s.freeCtr := rfl

/-! ### withPktCtr -/
@[simp] theorem State.withPktCtr_params (x : Word) : (s.withPktCtr x).params = s.params := rfl
@[simp] theorem State.withPktCtr_cmd (x : Word) : (s.withPktCtr x).cmd = s.cmd := rfl
@[simp] theorem State.withPktCtr_status (x : Word) : (s.withPktCtr x).status = s.status := rfl
@[simp] theorem State.withPktCtr_connId (x : Word) : (s.withPktCtr x).connId = s.connId := rfl
@[simp] theorem State.withPktCtr_pktCtr (x : Word) : (s.withPktCtr x).pktCtr = x := rfl
@[simp] theorem State.withPktCtr_args (x : Word) : (s.withPktCtr x).args = s.args := rfl
@[simp] theorem State.withPktCtr_res (x : Word) : (s.withPktCtr x).res = s.res := rfl
@[simp] theorem State.withPktCtr_hdr (x : Word) : (s.withPktCtr x).hdr = s.hdr := rfl
@[simp] theorem State.withPktCtr_tx (x : Word) : (s.withPktCtr x).tx = s.tx := rfl
@[simp] theorem State.withPktCtr_rx (x : Word) : (s.withPktCtr x).rx = s.rx := rfl
@[simp] theorem State.withPktCtr_ring (x : Word) : (s.withPktCtr x).ring = s.ring := rfl
@[simp] theorem State.withPktCtr_src (x : Word) : (s.withPktCtr x).src = s.src := rfl
@[simp] theorem State.withPktCtr_dst (x : Word) : (s.withPktCtr x).dst = s.dst := rfl
@[simp] theorem State.withPktCtr_slots (x : Word) : (s.withPktCtr x).slots = s.slots := rfl
@[simp] theorem State.withPktCtr_crEvicts (x : Word) : (s.withPktCtr x).crEvicts = s.crEvicts := rfl
@[simp] theorem State.withPktCtr_inputs (x : Word) : (s.withPktCtr x).inputs = s.inputs := rfl
@[simp] theorem State.withPktCtr_readData (x : Word) : (s.withPktCtr x).readData = s.readData := rfl
@[simp] theorem State.withPktCtr_freeCtr (x : Word) : (s.withPktCtr x).freeCtr = s.freeCtr := rfl

/-! ### withRes0 -/
@[simp] theorem State.withRes0_params (x : Nat) : (s.withRes0 x).params = s.params := rfl
@[simp] theorem State.withRes0_cmd (x : Nat) : (s.withRes0 x).cmd = s.cmd := rfl
@[simp] theorem State.withRes0_status (x : Nat) : (s.withRes0 x).status = s.status := rfl
@[simp] theorem State.withRes0_connId (x : Nat) : (s.withRes0 x).connId = s.connId := rfl
@[simp] theorem State.withRes0_pktCtr (x : Nat) : (s.withRes0 x).pktCtr = s.pktCtr := rfl
@[simp] theorem State.withRes0_args (x : Nat) : (s.withRes0 x).args = s.args := rfl
@[simp] theorem State.withRes0_res (x : Nat) : (s.withRes0 x).res = { s.res with r0 := BitVec.ofNat 32 x } := rfl
@[simp] theorem State.withRes0_hdr (x : Nat) : (s.withRes0 x).hdr = s.hdr := rfl
@[simp] theorem State.withRes0_tx (x : Nat) : (s.withRes0 x).tx = s.tx := rfl
@[simp] theorem State.withRes0_rx (x : Nat) : (s.withRes0 x).rx = s.rx := rfl
@[simp] theorem State.withRes0_ring (x : Nat) : (s.withRes0 x).ring = s.ring := rfl
@[simp] theorem State.withRes0_src (x : Nat) : (s.withRes0 x).src = s.src := rfl
@[simp] theorem State.withRes0_dst (x : Nat) : (s.withRes0 x).dst = s.dst := rfl
@[simp] theorem State.withRes0_slots (x : Nat) : (s.withRes0 x).slots = s.slots := rfl
@[simp] theorem State.withRes0_crEvicts (x : Nat) : (s.withRes0 x).crEvicts = s.crEvicts := rfl
@[simp] theorem State.withRes0_inputs (x : Nat) : (s.withRes0 x).inputs = s.inputs := rfl
@[simp] theorem State.withRes0_readData (x : Nat) : (s.withRes0 x).readData = s.readData := rfl
@[simp] theorem State.withRes0_freeCtr (x : Nat) : (s.withRes0 x).freeCtr = s.freeCtr := rfl

/-! ### withRes1 -/
@[simp] theorem State.withRes1_params (x : Nat) : (s.withRes1 x).params = s.params := rfl
@[simp] theorem State.withRes1_cmd (x : Nat) : (s.withRes1 x).cmd = s.cmd := rfl
@[simp] theorem State.withRes1_status (x : Nat) : (s.withRes1 x).status = s.status := rfl
@[simp] theorem State.withRes1_connId (x : Nat) : (s.withRes1 x).connId = s.connId := rfl
@[simp] theorem State.withRes1_pktCtr (x : Nat) : (s.withRes1 x).pktCtr = s.pktCtr := rfl
@[simp] theorem State.withRes1_args (x : Nat) : (s.withRes1 x).args = s.args := rfl
@[simp] theorem State.withRes1_res (x : Nat) : (s.withRes1 x).res = { s.res with r1 := BitVec.ofNat 32 x } := rfl
@[simp] theorem State.withRes1_hdr (x : Nat) : (s.withRes1 x).hdr = s.hdr := rfl
@[simp] theorem State.withRes1_tx (x : Nat) : (s.withRes1 x).tx = s.tx := rfl
@[simp] theorem State.withRes1_rx (x : Nat) : (s.withRes1 x).rx = s.rx := rfl
@[simp] theorem State.withRes1_ring (x : Nat) : (s.withRes1 x).ring = s.ring := rfl
@[simp] theorem State.withRes1_src (x : Nat) : (s.withRes1 x).src = s.src := rfl
@[simp] theorem State.withRes1_dst (x : Nat) : (s.withRes1 x).dst = s.dst := rfl
@[simp] theorem State.withRes1_slots (x : Nat) : (s.withRes1 x).slots = s.slots := rfl
@[simp] theorem State.withRes1_crEvicts (x : Nat) : (s.withRes1 x).crEvicts = s.crEvicts := rfl
@[simp] theorem State.withRes1_inputs (x : Nat) : (s.withRes1 x).inputs = s.inputs := rfl
@[simp] theorem State.withRes1_readData (x : Nat) : (s.withRes1 x).readData = s.readData := rfl
@[simp] theorem State.withRes1_freeCtr (x : Nat) : (s.withRes1 x).freeCtr = s.freeCtr := rfl

/-! ### withRes2 -/
@[simp] theorem State.withRes2_params (x : Nat) : (s.withRes2 x).params = s.params := rfl
@[simp] theorem State.withRes2_cmd (x : Nat) : (s.withRes2 x).cmd = s.cmd := rfl
@[simp] theorem State.withRes2_status (x : Nat) : (s.withRes2 x).status = s.status := rfl
@[simp] theorem State.withRes2_connId (x : Nat) : (s.withRes2 x).connId = s.connId := rfl
@[simp] theorem State.withRes2_pktCtr (x : Nat) : (s.withRes2 x).pktCtr = s.pktCtr := rfl
@[simp] theorem State.withRes2_args (x : Nat) : (s.withRes2 x).args = s.args := rfl
@[simp] theorem State.withRes2_res (x : Nat) : (s.withRes2 x).res = { s.res with r2 := BitVec.ofNat 32 x } := rfl
@[simp] theorem State.withRes2_hdr (x : Nat) : (s.withRes2 x).hdr = s.hdr := rfl
@[simp] theorem State.withRes2_tx (x : Nat) : (s.withRes2 x).tx = s.tx := rfl
@[simp] theorem State.withRes2_rx (x : Nat) : (s.withRes2 x).rx = s.rx := rfl
@[simp] theorem State.withRes2_ring (x : Nat) : (s.withRes2 x).ring = s.ring := rfl
@[simp] theorem State.withRes2_src (x : Nat) : (s.withRes2 x).src = s.src := rfl
@[simp] theorem State.withRes2_dst (x : Nat) : (s.withRes2 x).dst = s.dst := rfl
@[simp] theorem State.withRes2_slots (x : Nat) : (s.withRes2 x).slots = s.slots := rfl
@[simp] theorem State.withRes2_crEvicts (x : Nat) : (s.withRes2 x).crEvicts = s.crEvicts := rfl
@[simp] theorem State.withRes2_inputs (x : Nat) : (s.withRes2 x).inputs = s.inputs := rfl
@[simp] theorem State.withRes2_readData (x : Nat) : (s.withRes2 x).readData = s.readData := rfl
@[simp] theorem State.withRes2_freeCtr (x : Nat) : (s.withRes2 x).freeCtr = s.freeCtr := rfl

/-! ### withHdr -/
@[simp] theorem State.withHdr_params (x : HdrRegs) : (s.withHdr x).params = s.params := rfl
@[simp] theorem State.withHdr_cmd (x : HdrRegs) : (s.withHdr x).cmd = s.cmd := rfl
@[simp] theorem State.withHdr_status (x : HdrRegs) : (s.withHdr x).status = s.status := rfl
@[simp] theorem State.withHdr_connId (x : HdrRegs) : (s.withHdr x).connId = s.connId := rfl
@[simp] theorem State.withHdr_pktCtr (x : HdrRegs) : (s.withHdr x).pktCtr = s.pktCtr := rfl
@[simp] theorem State.withHdr_args (x : HdrRegs) : (s.withHdr x).args = s.args := rfl
@[simp] theorem State.withHdr_res (x : HdrRegs) : (s.withHdr x).res = s.res := rfl
@[simp] theorem State.withHdr_hdr (x : HdrRegs) : (s.withHdr x).hdr = x := rfl
@[simp] theorem State.withHdr_tx (x : HdrRegs) : (s.withHdr x).tx = s.tx := rfl
@[simp] theorem State.withHdr_rx (x : HdrRegs) : (s.withHdr x).rx = s.rx := rfl
@[simp] theorem State.withHdr_ring (x : HdrRegs) : (s.withHdr x).ring = s.ring := rfl
@[simp] theorem State.withHdr_src (x : HdrRegs) : (s.withHdr x).src = s.src := rfl
@[simp] theorem State.withHdr_dst (x : HdrRegs) : (s.withHdr x).dst = s.dst := rfl
@[simp] theorem State.withHdr_slots (x : HdrRegs) : (s.withHdr x).slots = s.slots := rfl
@[simp] theorem State.withHdr_crEvicts (x : HdrRegs) : (s.withHdr x).crEvicts = s.crEvicts := rfl
@[simp] theorem State.withHdr_inputs (x : HdrRegs) : (s.withHdr x).inputs = s.inputs := rfl
@[simp] theorem State.withHdr_readData (x : HdrRegs) : (s.withHdr x).readData = s.readData := rfl
@[simp] theorem State.withHdr_freeCtr (x : HdrRegs) : (s.withHdr x).freeCtr = s.freeCtr := rfl

/-! ### withRx -/
@[simp] theorem State.withRx_params (x : RxRegs) : (s.withRx x).params = s.params := rfl
@[simp] theorem State.withRx_cmd (x : RxRegs) : (s.withRx x).cmd = s.cmd := rfl
@[simp] theorem State.withRx_status (x : RxRegs) : (s.withRx x).status = s.status := rfl
@[simp] theorem State.withRx_connId (x : RxRegs) : (s.withRx x).connId = s.connId := rfl
@[simp] theorem State.withRx_pktCtr (x : RxRegs) : (s.withRx x).pktCtr = s.pktCtr := rfl
@[simp] theorem State.withRx_args (x : RxRegs) : (s.withRx x).args = s.args := rfl
@[simp] theorem State.withRx_res (x : RxRegs) : (s.withRx x).res = s.res := rfl
@[simp] theorem State.withRx_hdr (x : RxRegs) : (s.withRx x).hdr = s.hdr := rfl
@[simp] theorem State.withRx_tx (x : RxRegs) : (s.withRx x).tx = s.tx := rfl
@[simp] theorem State.withRx_rx (x : RxRegs) : (s.withRx x).rx = x := rfl
@[simp] theorem State.withRx_ring (x : RxRegs) : (s.withRx x).ring = s.ring := rfl
@[simp] theorem State.withRx_src (x : RxRegs) : (s.withRx x).src = s.src := rfl
@[simp] theorem State.withRx_dst (x : RxRegs) : (s.withRx x).dst = s.dst := rfl
@[simp] theorem State.withRx_slots (x : RxRegs) : (s.withRx x).slots = s.slots := rfl
@[simp] theorem State.withRx_crEvicts (x : RxRegs) : (s.withRx x).crEvicts = s.crEvicts := rfl
@[simp] theorem State.withRx_inputs (x : RxRegs) : (s.withRx x).inputs = s.inputs := rfl
@[simp] theorem State.withRx_readData (x : RxRegs) : (s.withRx x).readData = s.readData := rfl
@[simp] theorem State.withRx_freeCtr (x : RxRegs) : (s.withRx x).freeCtr = s.freeCtr := rfl

/-! ### withRing -/
@[simp] theorem State.withRing_params (x : Ring) : (s.withRing x).params = s.params := rfl
@[simp] theorem State.withRing_cmd (x : Ring) : (s.withRing x).cmd = s.cmd := rfl
@[simp] theorem State.withRing_status (x : Ring) : (s.withRing x).status = s.status := rfl
@[simp] theorem State.withRing_connId (x : Ring) : (s.withRing x).connId = s.connId := rfl
@[simp] theorem State.withRing_pktCtr (x : Ring) : (s.withRing x).pktCtr = s.pktCtr := rfl
@[simp] theorem State.withRing_args (x : Ring) : (s.withRing x).args = s.args := rfl
@[simp] theorem State.withRing_res (x : Ring) : (s.withRing x).res = s.res := rfl
@[simp] theorem State.withRing_hdr (x : Ring) : (s.withRing x).hdr = s.hdr := rfl
@[simp] theorem State.withRing_tx (x : Ring) : (s.withRing x).tx = s.tx := rfl
@[simp] theorem State.withRing_rx (x : Ring) : (s.withRing x).rx = s.rx := rfl
@[simp] theorem State.withRing_ring (x : Ring) : (s.withRing x).ring = x := rfl
@[simp] theorem State.withRing_src (x : Ring) : (s.withRing x).src = s.src := rfl
@[simp] theorem State.withRing_dst (x : Ring) : (s.withRing x).dst = s.dst := rfl
@[simp] theorem State.withRing_slots (x : Ring) : (s.withRing x).slots = s.slots := rfl
@[simp] theorem State.withRing_crEvicts (x : Ring) : (s.withRing x).crEvicts = s.crEvicts := rfl
@[simp] theorem State.withRing_inputs (x : Ring) : (s.withRing x).inputs = s.inputs := rfl
@[simp] theorem State.withRing_readData (x : Ring) : (s.withRing x).readData = s.readData := rfl
@[simp] theorem State.withRing_freeCtr (x : Ring) : (s.withRing x).freeCtr = s.freeCtr := rfl

/-! ### withSrc -/
@[simp] theorem State.withSrc_params (x : Memory) : (s.withSrc x).params = s.params := rfl
@[simp] theorem State.withSrc_cmd (x : Memory) : (s.withSrc x).cmd = s.cmd := rfl
@[simp] theorem State.withSrc_status (x : Memory) : (s.withSrc x).status = s.status := rfl
@[simp] theorem State.withSrc_connId (x : Memory) : (s.withSrc x).connId = s.connId := rfl
@[simp] theorem State.withSrc_pktCtr (x : Memory) : (s.withSrc x).pktCtr = s.pktCtr := rfl
@[simp] theorem State.withSrc_args (x : Memory) : (s.withSrc x).args = s.args := rfl
@[simp] theorem State.withSrc_res (x : Memory) : (s.withSrc x).res = s.res := rfl
@[simp] theorem State.withSrc_hdr (x : Memory) : (s.withSrc x).hdr = s.hdr := rfl
@[simp] theorem State.withSrc_tx (x : Memory) : (s.withSrc x).tx = s.tx := rfl
@[simp] theorem State.withSrc_rx (x : Memory) : (s.withSrc x).rx = s.rx := rfl
@[simp] theorem State.withSrc_ring (x : Memory) : (s.withSrc x).ring = s.ring := rfl
@[simp] theorem State.withSrc_src (x : Memory) : (s.withSrc x).src = x := rfl
@[simp] theorem State.withSrc_dst (x : Memory) : (s.withSrc x).dst = s.dst := rfl
@[simp] theorem State.withSrc_slots (x : Memory) : (s.withSrc x).slots = s.slots := rfl
@[simp] theorem State.withSrc_crEvicts (x : Memory) : (s.withSrc x).crEvicts = s.crEvicts := rfl
@[simp] theorem State.withSrc_inputs (x : Memory) : (s.withSrc x).inputs = s.inputs := rfl
@[simp] theorem State.withSrc_readData (x : Memory) : (s.withSrc x).readData = s.readData := rfl
@[simp] theorem State.withSrc_freeCtr (x : Memory) : (s.withSrc x).freeCtr = s.freeCtr := rfl

/-! ### withDst -/
@[simp] theorem State.withDst_params (x : Memory) : (s.withDst x).params = s.params := rfl
@[simp] theorem State.withDst_cmd (x : Memory) : (s.withDst x).cmd = s.cmd := rfl
@[simp] theorem State.withDst_status (x : Memory) : (s.withDst x).status = s.status := rfl
@[simp] theorem State.withDst_connId (x : Memory) : (s.withDst x).connId = s.connId := rfl
@[simp] theorem State.withDst_pktCtr (x : Memory) : (s.withDst x).pktCtr = s.pktCtr := rfl
@[simp] theorem State.withDst_args (x : Memory) : (s.withDst x).args = s.args := rfl
@[simp] theorem State.withDst_res (x : Memory) : (s.withDst x).res = s.res := rfl
@[simp] theorem State.withDst_hdr (x : Memory) : (s.withDst x).hdr = s.hdr := rfl
@[simp] theorem State.withDst_tx (x : Memory) : (s.withDst x).tx = s.tx := rfl
@[simp] theorem State.withDst_rx (x : Memory) : (s.withDst x).rx = s.rx := rfl
@[simp] theorem State.withDst_ring (x : Memory) : (s.withDst x).ring = s.ring := rfl
@[simp] theorem State.withDst_src (x : Memory) : (s.withDst x).src = s.src := rfl
@[simp] theorem State.withDst_dst (x : Memory) : (s.withDst x).dst = x := rfl
@[simp] theorem State.withDst_slots (x : Memory) : (s.withDst x).slots = s.slots := rfl
@[simp] theorem State.withDst_crEvicts (x : Memory) : (s.withDst x).crEvicts = s.crEvicts := rfl
@[simp] theorem State.withDst_inputs (x : Memory) : (s.withDst x).inputs = s.inputs := rfl
@[simp] theorem State.withDst_readData (x : Memory) : (s.withDst x).readData = s.readData := rfl
@[simp] theorem State.withDst_freeCtr (x : Memory) : (s.withDst x).freeCtr = s.freeCtr := rfl

/-! ### withSlots -/
@[simp] theorem State.withSlots_params (x : List Slot) : (s.withSlots x).params = s.params := rfl
@[simp] theorem State.withSlots_cmd (x : List Slot) : (s.withSlots x).cmd = s.cmd := rfl
@[simp] theorem State.withSlots_status (x : List Slot) : (s.withSlots x).status = s.status := rfl
@[simp] theorem State.withSlots_connId (x : List Slot) : (s.withSlots x).connId = s.connId := rfl
@[simp] theorem State.withSlots_pktCtr (x : List Slot) : (s.withSlots x).pktCtr = s.pktCtr := rfl
@[simp] theorem State.withSlots_args (x : List Slot) : (s.withSlots x).args = s.args := rfl
@[simp] theorem State.withSlots_res (x : List Slot) : (s.withSlots x).res = s.res := rfl
@[simp] theorem State.withSlots_hdr (x : List Slot) : (s.withSlots x).hdr = s.hdr := rfl
@[simp] theorem State.withSlots_tx (x : List Slot) : (s.withSlots x).tx = s.tx := rfl
@[simp] theorem State.withSlots_rx (x : List Slot) : (s.withSlots x).rx = s.rx := rfl
@[simp] theorem State.withSlots_ring (x : List Slot) : (s.withSlots x).ring = s.ring := rfl
@[simp] theorem State.withSlots_src (x : List Slot) : (s.withSlots x).src = s.src := rfl
@[simp] theorem State.withSlots_dst (x : List Slot) : (s.withSlots x).dst = s.dst := rfl
@[simp] theorem State.withSlots_slots (x : List Slot) : (s.withSlots x).slots = x := rfl
@[simp] theorem State.withSlots_crEvicts (x : List Slot) : (s.withSlots x).crEvicts = s.crEvicts := rfl
@[simp] theorem State.withSlots_inputs (x : List Slot) : (s.withSlots x).inputs = s.inputs := rfl
@[simp] theorem State.withSlots_readData (x : List Slot) : (s.withSlots x).readData = s.readData := rfl
@[simp] theorem State.withSlots_freeCtr (x : List Slot) : (s.withSlots x).freeCtr = s.freeCtr := rfl

/-! ### withEvicts -/
@[simp] theorem State.withEvicts_params (x : Word) : (s.withEvicts x).params = s.params := rfl
@[simp] theorem State.withEvicts_cmd (x : Word) : (s.withEvicts x).cmd = s.cmd := rfl
@[simp] theorem State.withEvicts_status (x : Word) : (s.withEvicts x).status = s.status := rfl
@[simp] theorem State.withEvicts_connId (x : Word) : (s.withEvicts x).connId = s.connId := rfl
@[simp] theorem State.withEvicts_pktCtr (x : Word) : (s.withEvicts x).pktCtr = s.pktCtr := rfl
@[simp] theorem State.withEvicts_args (x : Word) : (s.withEvicts x).args = s.args := rfl
@[simp] theorem State.withEvicts_res (x : Word) : (s.withEvicts x).res = s.res := rfl
@[simp] theorem State.withEvicts_hdr (x : Word) : (s.withEvicts x).hdr = s.hdr := rfl
@[simp] theorem State.withEvicts_tx (x : Word) : (s.withEvicts x).tx = s.tx := rfl
@[simp] theorem State.withEvicts_rx (x : Word) : (s.withEvicts x).rx = s.rx := rfl
@[simp] theorem State.withEvicts_ring (x : Word) : (s.withEvicts x).ring = s.ring := rfl
@[simp] theorem State.withEvicts_src (x : Word) : (s.withEvicts x).src = s.src := rfl
@[simp] theorem State.withEvicts_dst (x : Word) : (s.withEvicts x).dst = s.dst := rfl
@[simp] theorem State.withEvicts_slots (x : Word) : (s.withEvicts x).slots = s.slots := rfl
@[simp] theorem State.withEvicts_crEvicts (x : Word) : (s.withEvicts x).crEvicts = x := rfl
@[simp] theorem State.withEvicts_inputs (x : Word) : (s.withEvicts x).inputs = s.inputs := rfl
@[simp] theorem State.withEvicts_readData (x : Word) : (s.withEvicts x).readData = s.readData := rfl
@[simp] theorem State.withEvicts_freeCtr (x : Word) : (s.withEvicts x).freeCtr = s.freeCtr := rfl

/-! ### withInputs -/
@[simp] theorem State.withInputs_params (x : List HostAction) : (s.withInputs x).params = s.params := rfl
@[simp] theorem State.withInputs_cmd (x : List HostAction) : (s.withInputs x).cmd = s.cmd := rfl
@[simp] theorem State.withInputs_status (x : List HostAction) : (s.withInputs x).status = s.status := rfl
@[simp] theorem State.withInputs_connId (x : List HostAction) : (s.withInputs x).connId = s.connId := rfl
@[simp] theorem State.withInputs_pktCtr (x : List HostAction) : (s.withInputs x).pktCtr = s.pktCtr := rfl
@[simp] theorem State.withInputs_args (x : List HostAction) : (s.withInputs x).args = s.args := rfl
@[simp] theorem State.withInputs_res (x : List HostAction) : (s.withInputs x).res = s.res := rfl
@[simp] theorem State.withInputs_hdr (x : List HostAction) : (s.withInputs x).hdr = s.hdr := rfl
@[simp] theorem State.withInputs_tx (x : List HostAction) : (s.withInputs x).tx = s.tx := rfl
@[simp] theorem State.withInputs_rx (x : List HostAction) : (s.withInputs x).rx = s.rx := rfl
@[simp] theorem State.withInputs_ring (x : List HostAction) : (s.withInputs x).ring = s.ring := rfl
@[simp] theorem State.withInputs_src (x : List HostAction) : (s.withInputs x).src = s.src := rfl
@[simp] theorem State.withInputs_dst (x : List HostAction) : (s.withInputs x).dst = s.dst := rfl
@[simp] theorem State.withInputs_slots (x : List HostAction) : (s.withInputs x).slots = s.slots := rfl
@[simp] theorem State.withInputs_crEvicts (x : List HostAction) : (s.withInputs x).crEvicts = s.crEvicts := rfl
@[simp] theorem State.withInputs_inputs (x : List HostAction) : (s.withInputs x).inputs = x := rfl
@[simp] theorem State.withInputs_readData (x : List HostAction) : (s.withInputs x).readData = s.readData := rfl
@[simp] theorem State.withInputs_freeCtr (x : List HostAction) : (s.withInputs x).freeCtr = s.freeCtr := rfl

/-! ### withReadData -/
@[simp] theorem State.withReadData_params (x : Word) : (s.withReadData x).params = s.params := rfl
@[simp] theorem State.withReadData_cmd (x : Word) : (s.withReadData x).cmd = s.cmd := rfl
@[simp] theorem State.withReadData_status (x : Word) : (s.withReadData x).status = s.status := rfl
@[simp] theorem State.withReadData_connId (x : Word) : (s.withReadData x).connId = s.connId := rfl
@[simp] theorem State.withReadData_pktCtr (x : Word) : (s.withReadData x).pktCtr = s.pktCtr := rfl
@[simp] theorem State.withReadData_args (x : Word) : (s.withReadData x).args = s.args := rfl
@[simp] theorem State.withReadData_res (x : Word) : (s.withReadData x).res = s.res := rfl
@[simp] theorem State.withReadData_hdr (x : Word) : (s.withReadData x).hdr = s.hdr := rfl
@[simp] theorem State.withReadData_tx (x : Word) : (s.withReadData x).tx = s.tx := rfl
@[simp] theorem State.withReadData_rx (x : Word) : (s.withReadData x).rx = s.rx := rfl
@[simp] theorem State.withReadData_ring (x : Word) : (s.withReadData x).ring = s.ring := rfl
@[simp] theorem State.withReadData_src (x : Word) : (s.withReadData x).src = s.src := rfl
@[simp] theorem State.withReadData_dst (x : Word) : (s.withReadData x).dst = s.dst := rfl
@[simp] theorem State.withReadData_slots (x : Word) : (s.withReadData x).slots = s.slots := rfl
@[simp] theorem State.withReadData_crEvicts (x : Word) : (s.withReadData x).crEvicts = s.crEvicts := rfl
@[simp] theorem State.withReadData_inputs (x : Word) : (s.withReadData x).inputs = s.inputs := rfl
@[simp] theorem State.withReadData_readData (x : Word) : (s.withReadData x).readData = x := rfl
@[simp] theorem State.withReadData_freeCtr (x : Word) : (s.withReadData x).freeCtr = s.freeCtr := rfl

/-! ### withFreeCtr -/
@[simp] theorem State.withFreeCtr_params (x : Nat) : (s.withFreeCtr x).params = s.params := rfl
@[simp] theorem State.withFreeCtr_cmd (x : Nat) : (s.withFreeCtr x).cmd = s.cmd := rfl
@[simp] theorem State.withFreeCtr_status (x : Nat) : (s.withFreeCtr x).status = s.status := rfl
@[simp] theorem State.withFreeCtr_connId (x : Nat) : (s.withFreeCtr x).connId = s.connId := rfl
@[simp] theorem State.withFreeCtr_pktCtr (x : Nat) : (s.withFreeCtr x).pktCtr = s.pktCtr := rfl
@[simp] theorem State.withFreeCtr_args (x : Nat) : (s.withFreeCtr x).args = s.args := rfl
@[simp] theorem State.withFreeCtr_res (x : Nat) : (s.withFreeCtr x).res = s.res := rfl
@[simp] theorem State.withFreeCtr_hdr (x : Nat) : (s.withFreeCtr x).hdr = s.hdr := rfl
@[simp] theorem State.withFreeCtr_tx (x : Nat) : (s.withFreeCtr x).tx = s.tx := rfl
@[simp] theorem State.withFreeCtr_rx (x : Nat) : (s.withFreeCtr x).rx = s.rx := rfl
@[simp] theorem State.withFreeCtr_ring (x : Nat) : (s.withFreeCtr x).ring = s.ring := rfl
@[simp] theorem State.withFreeCtr_src (x : Nat) : (s.withFreeCtr x).src = s.src := rfl
@[simp] theorem State.withFreeCtr_dst (x : Nat) : (s.withFreeCtr x).dst = s.dst := rfl
@[simp] theorem State.withFreeCtr_slots (x : Nat) : (s.withFreeCtr x).slots = s.slots := rfl
@[simp] theorem State.withFreeCtr_crEvicts (x : Nat) : (s.withFreeCtr x).crEvicts = s.crEvicts := rfl
@[simp] theorem State.withFreeCtr_inputs (x : Nat) : (s.withFreeCtr x).inputs = s.inputs := rfl
@[simp] theorem State.withFreeCtr_readData (x : Nat) : (s.withFreeCtr x).readData = s.readData := rfl
@[simp] theorem State.withFreeCtr_freeCtr (x : Nat) : (s.withFreeCtr x).freeCtr = x := rfl

/-! ### advance -/
@[simp] theorem State.advance_params (x : Nat) : (s.advance x).params = s.params := rfl
@[simp] theorem State.advance_cmd (x : Nat) : (s.advance x).cmd = s.cmd := rfl
@[simp] theorem State.advance_status (x : Nat) : (s.advance x).status = s.status := rfl
@[simp] theorem State.advance_connId (x : Nat) : (s.advance x).connId = s.connId := rfl
@[simp] theorem State.advance_pktCtr (x : Nat) : (s.advance x).pktCtr = s.pktCtr := rfl
@[simp] theorem State.advance_args (x : Nat) : (s.advance x).args = s.args := rfl
@[simp] theorem State.advance_res (x : Nat) : (s.advance x).res = s.res := rfl
@[simp] theorem State.advance_hdr (x : Nat) : (s.advance x).hdr = s.hdr := rfl
@[simp] theorem State.advance_tx (x : Nat) : (s.advance x).tx = s.tx := rfl
@[simp] theorem State.advance_rx (x : Nat) : (s.advance x).rx = s.rx := rfl
@[simp] theorem State.advance_ring (x : Nat) : (s.advance x).ring = { s.ring with rd := (s.ring.rd + x) % ringCap s.params, cnt := s.ring.cnt - x } := rfl
@[simp] theorem State.advance_src (x : Nat) : (s.advance x).src = s.src := rfl
@[simp] theorem State.advance_dst (x : Nat) : (s.advance x).dst = s.dst := rfl
@[simp] theorem State.advance_slots (x : Nat) : (s.advance x).slots = s.slots := rfl
@[simp] theorem State.advance_crEvicts (x : Nat) : (s.advance x).crEvicts = s.crEvicts := rfl
@[simp] theorem State.advance_inputs (x : Nat) : (s.advance x).inputs = s.inputs := rfl
@[simp] theorem State.advance_readData (x : Nat) : (s.advance x).readData = s.readData := rfl
@[simp] theorem State.advance_freeCtr (x : Nat) : (s.advance x).freeCtr = s.freeCtr := rfl

/-! ### ringAppend -/
@[simp] theorem State.ringAppend_params (x : List Byte) : (s.ringAppend x).params = s.params := rfl
@[simp] theorem State.ringAppend_cmd (x : List Byte) : (s.ringAppend x).cmd = s.cmd := rfl
@[simp] theorem State.ringAppend_status (x : List Byte) : (s.ringAppend x).status = s.status := rfl
@[simp] theorem State.ringAppend_connId (x : List Byte) : (s.ringAppend x).connId = s.connId := rfl
@[simp] theorem State.ringAppend_pktCtr (x : List Byte) : (s.ringAppend x).pktCtr = s.pktCtr := rfl
@[simp] theorem State.ringAppend_args (x : List Byte) : (s.ringAppend x).args = s.args := rfl
@[simp] theorem State.ringAppend_res (x : List Byte) : (s.ringAppend x).res = s.res := rfl
@[simp] theorem State.ringAppend_hdr (x : List Byte) : (s.ringAppend x).hdr = s.hdr := rfl
@[simp] theorem State.ringAppend_tx (x : List Byte) : (s.ringAppend x).tx = s.tx := rfl
@[simp] theorem State.ringAppend_rx (x : List Byte) : (s.ringAppend x).rx = s.rx := rfl
@[simp] theorem State.ringAppend_ring (x : List Byte) : (s.ringAppend x).ring = { s.ring with mem := ringStore (ringCap s.params) s.ring.mem (s.ring.rd + s.ring.cnt) x, cnt := s.ring.cnt + x.length } := rfl
@[simp] theorem State.ringAppend_src (x : List Byte) : (s.ringAppend x).src = s.src := rfl
@[simp] theorem State.ringAppend_dst (x : List Byte) : (s.ringAppend x).dst = s.dst := rfl
@[simp] theorem State.ringAppend_slots (x : List Byte) : (s.ringAppend x).slots = s.slots := rfl
@[simp] theorem State.ringAppend_crEvicts (x : List Byte) : (s.ringAppend x).crEvicts = s.crEvicts := rfl
@[simp] theorem State.ringAppend_inputs (x : List Byte) : (s.ringAppend x).inputs = s.inputs := rfl
@[simp] theorem State.ringAppend_readData (x : List Byte) : (s.ringAppend x).readData = s.readData := rfl
@[simp] theorem State.ringAppend_freeCtr (x : List Byte) : (s.ringAppend x).freeCtr = s.freeCtr := rfl

end Sys2Proof.Machine
end

