-- ==== Sys2Proof/Laws/Codec.lean ====
section
/-! SUPPORT. The laws of the codec functions: little-endian fields read back what was written, the checksum's range,
COBS and UNCOBS, and that metadata and header parse back as built. -/

namespace Sys2Proof.Machine

/-! ## Little-endian fields -/

@[simp] theorem le16_length (v : Nat) : (le16 v).length = 2 := rfl
@[simp] theorem le32_length (v : Nat) : (le32 v).length = 4 := rfl

theorem byteAt_lt (s : List Byte) (i : Nat) : byteAt s i < 256 := (s.getD i 0).isLt

theorem rd16_lt (s : List Byte) (i : Nat) : rd16 s i < 65536 := by
  have h1 := byteAt_lt s i
  have h2 := byteAt_lt s (i + 1)
  unfold rd16
  omega

theorem byteAt_append_right (s t : List Byte) (i : Nat) : byteAt (s ++ t) (s.length + i) = byteAt t i := by
  simp [byteAt, List.getD_eq_getElem?_getD, List.getElem?_append_right]

theorem byteAt_append_left (s t : List Byte) {i : Nat} (h : i < s.length) : byteAt (s ++ t) i = byteAt s i := by
  simp [byteAt, List.getD_eq_getElem?_getD, List.getElem?_append_left h]

theorem rd16_append_right (s t : List Byte) (i : Nat) : rd16 (s ++ t) (s.length + i) = rd16 t i := by
  unfold rd16
  rw [Nat.add_assoc, byteAt_append_right, byteAt_append_right]

theorem rd16_append_left (s t : List Byte) {i : Nat} (h : i + 1 < s.length) : rd16 (s ++ t) i = rd16 s i := by
  unfold rd16
  rw [byteAt_append_left _ _ (by omega), byteAt_append_left _ _ h]

theorem rd32_append_right (s t : List Byte) (i : Nat) : rd32 (s ++ t) (s.length + i) = rd32 t i := by
  unfold rd32
  simp only [Nat.add_assoc, byteAt_append_right]

theorem rd32_append_left (s t : List Byte) {i : Nat} (h : i + 3 < s.length) : rd32 (s ++ t) i = rd32 s i := by
  unfold rd32
  rw [byteAt_append_left _ _ (by omega), byteAt_append_left _ _ (by omega), byteAt_append_left _ _ (by omega),
    byteAt_append_left _ _ h]

@[simp] theorem rd16_le16 (v : Nat) : rd16 (le16 v) 0 = v % 65536 := by
  simp [rd16, byteAt, le16]
  omega

@[simp] theorem rd32_le32 (v : Nat) : rd32 (le32 v) 0 = v % 4294967296 := by
  simp [rd32, byteAt, le32]
  omega

/-! ## The checksum (00 R12) -/

theorem f16From_bounds {s1 s2 : Nat} (h1 : s1 < 255) (h2 : s2 < 255) (s : List Byte) :
    f16From s1 s2 s % 256 < 255 ∧ f16From s1 s2 s / 256 < 255 := by
  induction s generalizing s1 s2 with
  | nil => simp only [f16From]; omega
  | cons b bs ih => exact ih (Nat.mod_lt _ (by decide)) (Nat.mod_lt _ (by decide))

theorem f16_lt (s : List Byte) : f16 s < 65536 := by
  have := f16From_bounds (s1 := 0) (s2 := 0) (by decide) (by decide) s
  unfold f16
  omega

theorem hcs_lt (flags : Byte) (id len : Half) : hcs flags id len < 65536 := f16_lt _

/-! ## COBS and UNCOBS (00 R13 to R15) -/

/-- The byte of a code up to 254 is not 0, and counts back. -/
theorem code_toNat {n : Nat} (h : n < 256) : (BitVec.ofNat 8 n).toNat = n := by
  simp; omega

theorem code_ne_zero {n : Nat} (h0 : 0 < n) (h : n < 256) : BitVec.ofNat 8 n ≠ 0#8 := by
  intro he
  have := congrArg BitVec.toNat he
  rw [code_toNat h] at this
  simp at this
  omega

theorem code_ne_ff {n : Nat} (h : n < 255) : BitVec.ofNat 8 n ≠ 0xFF#8 := by
  intro he
  have := congrArg BitVec.toNat he
  rw [code_toNat (by omega)] at this
  simp at this
  omega

theorem cobsFrom_ne_zero {g : List Byte} (hg : ∀ b ∈ g, b ≠ 0#8) (hl : g.length ≤ 253) (d : List Byte) :
    ∀ b ∈ cobsFrom g d, b ≠ 0#8 := by
  induction d generalizing g with
  | nil =>
    rw [cobsFrom]
    intro b hb
    rcases List.mem_cons.mp hb with rfl | hb
    · exact code_ne_zero (by omega) (by omega)
    · exact hg b hb
  | cons x d ih =>
    rw [cobsFrom]
    split
    · intro b hb
      simp only [List.cons_append, List.mem_cons, List.mem_append] at hb
      rcases hb with rfl | hb | hb
      · exact code_ne_zero (by omega) (by omega)
      · exact hg b hb
      · exact ih (by simp) (by simp) b hb
    · rename_i hx
      have hg' : ∀ b ∈ g ++ [x], b ≠ 0#8 := by
        intro b hb
        rcases List.mem_append.mp hb with hb | hb
        · exact hg b hb
        · rw [List.mem_singleton.mp hb]; exact hx
      split
      · intro b hb
        rw [List.cons_append, List.mem_cons, List.mem_append] at hb
        rcases hb with rfl | hb | hb
        · decide
        · exact hg' b hb
        · exact ih (by simp) (by simp) b hb
      · exact ih hg' (by simp; omega)

/-- The stuffed form holds no zero byte (R13). -/
theorem cobs_ne_zero (d : List Byte) : ∀ b ∈ cobs d, b ≠ 0#8 := cobsFrom_ne_zero (by simp) (by simp) d

/-- The rest of an open group is copied as it stands. -/
theorem uncobsFrom_group {g : List Byte} (hg : ∀ b ∈ g, b ≠ 0#8) (z : Bool) (e : List Byte) :
    uncobsFrom g.length z (g ++ e) = (uncobsFrom 0 z e).map (g ++ ·) := by
  induction g with
  | nil => simp
  | cons b g ih =>
    rw [List.cons_append, List.length_cons, uncobsFrom, if_neg (hg b (by simp))]
    simp only [ih (fun b hb => hg b (List.mem_cons_of_mem _ hb)), Option.map_map]
    rfl

/-- A whole group, code byte first, un-stuffs to its data, after the zero that the group before it owes. -/
theorem uncobsFrom_code {g : List Byte} (hg : ∀ b ∈ g, b ≠ 0#8) {c : Byte} (hc : c.toNat = g.length + 1) (z : Bool)
    (e : List Byte) :
    uncobsFrom 0 z (c :: g ++ e) =
      (uncobsFrom 0 (c != 0xFF#8) e).map (fun out => (if z then [0#8] else []) ++ g ++ out) := by
  have hc0 : c ≠ 0#8 := by rintro rfl; simp at hc
  have hk : c.toNat - 1 = g.length := by omega
  rw [List.cons_append, uncobsFrom, if_neg hc0]
  simp only [hk, uncobsFrom_group hg, Option.map_map]
  congr 1
  funext out
  cases z <;> simp

/-- UNCOBS inverts COBS (R14), from any point of the stuffing. -/
theorem uncobsFrom_cobsFrom {g : List Byte} (hg : ∀ b ∈ g, b ≠ 0#8) (hl : g.length ≤ 253) (z : Bool) (d : List Byte) :
    uncobsFrom 0 z (cobsFrom g d) = some ((if z then [0#8] else []) ++ g ++ d) := by
  induction d generalizing g z with
  | nil =>
    rw [cobsFrom]
    have := uncobsFrom_code hg (c := BitVec.ofNat 8 (g.length + 1)) (code_toNat (by omega)) z []
    rw [List.append_nil] at this
    rw [this]
    simp [uncobsFrom]
  | cons x d ih =>
    rw [cobsFrom]
    split
    · rename_i hx
      subst hx
      rw [uncobsFrom_code hg (code_toNat (by omega)), ih (by simp) (by simp)]
      have : (BitVec.ofNat 8 (g.length + 1) != 0xFF#8) = true := by simp [bne_iff_ne, code_ne_ff (show g.length + 1 < 255 by omega)]
      simp [this]
    · rename_i hx
      have hg' : ∀ b ∈ g ++ [x], b ≠ 0#8 := by
        intro b hb
        rcases List.mem_append.mp hb with hb | hb
        · exact hg b hb
        · rw [List.mem_singleton.mp hb]; exact hx
      split
      · rename_i hfull
        rw [uncobsFrom_code hg' (by simp; omega), ih (by simp) (by simp)]
        simp
      · rw [ih hg' (by simp; omega)]
        simp

theorem uncobs_cobs (d : List Byte) : uncobs (cobs d) = some d := by
  rw [uncobs, cobs, uncobsFrom_cobsFrom (by simp) (by simp)]
  simp

theorem cobsFrom_length {g : List Byte} (d : List Byte) :
    g.length + d.length + 1 ≤ (cobsFrom g d).length
      ∧ (g.length ≤ 253 → (cobsFrom g d).length ≤ g.length + d.length + 1 + (g.length + d.length) / 254) := by
  induction d generalizing g with
  | nil => simp [cobsFrom]
  | cons x d ih =>
    rw [cobsFrom]
    have h0 := ih (g := [])
    simp only [List.length_nil, Nat.zero_add] at h0
    split
    · simp only [List.length_append, List.length_cons]
      omega
    · split
      · simp only [List.length_append, List.length_cons, List.length_nil]
        omega
      · have h1 := ih (g := g ++ [x])
        simp only [List.length_append, List.length_cons, List.length_nil] at h1 ⊢
        omega

/-- R15's bounds. -/
theorem cobs_length (d : List Byte) :
    d.length + 1 ≤ (cobs d).length ∧ (cobs d).length ≤ d.length + 1 + d.length / 254 := by
  have := cobsFrom_length (g := []) d
  simpa [cobs] using this

/-- The output of UNCOBS is shorter than its input, unless both are empty. -/
theorem uncobsFrom_length {k : Nat} {z : Bool} {e out : List Byte} (h : uncobsFrom k z e = some out) :
    out.length ≤ e.length ∧ (k = 0 → z = false → e ≠ [] → out.length < e.length) := by
  induction e generalizing k z out with
  | nil =>
    simp only [uncobsFrom] at h
    split at h <;> simp_all
  | cons b e ih =>
    unfold uncobsFrom at h
    split at h
    · cases h
    · cases k with
      | zero =>
        simp only at h
        obtain ⟨o, ho, rfl⟩ := Option.map_eq_some_iff.mp h
        have := (ih ho).1
        constructor
        · split <;> simp <;> omega
        · rintro - rfl -
          simp; omega
      | succ k =>
        simp only at h
        obtain ⟨o, ho, rfl⟩ := Option.map_eq_some_iff.mp h
        have := (ih ho).1
        exact ⟨by simp; omega, by simp⟩

/-! ## STUFF and UNSTUFF (00 R17, R18) -/

theorem stuff_length (c : List Byte) :
    c.length + 4 ≤ (stuff c).length ∧ (stuff c).length ≤ c.length + 4 + (c.length + 2) / 254 := by
  have := cobs_length (c ++ le16 (f16 c))
  simp only [stuff, List.length_append, le16_length, List.length_singleton] at this ⊢
  omega

@[simp] theorem stuff_dropLast (c : List Byte) : (stuff c).dropLast = cobs (c ++ le16 (f16 c)) := by
  simp [stuff]

theorem splitChecksum_append (c : List Byte) (v : Nat) :
    splitChecksum (c ++ le16 v) = { content := c, carried := v % 65536, computed := f16 c } := by
  have h1 : (c ++ le16 v).length - 2 = c.length := by simp
  unfold splitChecksum
  rw [h1, List.take_left' rfl]
  have := rd16_append_right c (le16 v) 0
  rw [Nat.add_zero, rd16_le16] at this
  rw [this]

/-- The stuffed region without its terminator un-stuffs to the content and its checksum. -/
theorem unstuff_stuff (c : List Byte) :
    unstuff (stuff c).dropLast = some { content := c, carried := f16 c, computed := f16 c } := by
  rw [unstuff, stuff_dropLast, uncobs_cobs]
  simp only [splitChecksum_append, Nat.mod_eq_of_lt (f16_lt c)]
  rw [if_neg (by simp)]

/-- The content of an un-stuffed region is at least 2 bytes shorter than the region. -/
theorem unstuff_length {region : List Byte} {u : Unstuffed} (h : unstuff region = some u) :
    u.content.length + 2 ≤ region.length := by
  rw [unstuff] at h
  split at h
  · cases h
  · rename_i r hr
    split at h
    · cases h
    · injection h with h
      subst h
      have := (uncobsFrom_length hr).1
      simp [splitChecksum]
      omega

/-! ## Metadata (30 R77, R89) -/

@[simp] theorem metaBytes_length (flags : Byte) (m : MetaFields) : (metaBytes flags m).length = metaLen flags := by
  unfold metaBytes metaLen
  split <;> split <;> split <;> rfl

theorem metaLen_le (flags : Byte) : metaLen flags ≤ 18 := by
  unfold metaLen
  split <;> split <;> split <;> omega

/-- The metadata with the absent fields 0 (30 R89). -/
def presentFields (flags : Byte) (m : MetaFields) : MetaFields where
  reqid  := if flagCorr flags ≠ 0#2 then m.reqid else 0
  pktid  := if flagChk flags then m.pktid else 0
  offset := if flagChk flags then m.offset else 0
  total  := if flagChk flags then m.total else 0
  ulen   := if flagCmode flags ≠ 0#2 then m.ulen else 0

theorem rd16_toNat (pre : List Byte) (v : Half) (post : List Byte) :
    BitVec.ofNat 16 (rd16 (pre ++ (le16 v.toNat ++ post)) pre.length) = v := by
  have h := rd16_append_right pre (le16 v.toNat ++ post) 0
  rw [Nat.add_zero] at h
  rw [h, rd16_append_left _ _ (by simp), rd16_le16]
  apply BitVec.eq_of_toNat_eq
  simp [v.isLt]

theorem rd32_toNat (pre : List Byte) (v : Word) (post : List Byte) :
    BitVec.ofNat 32 (rd32 (pre ++ (le32 v.toNat ++ post)) pre.length) = v := by
  have h := rd32_append_right pre (le32 v.toNat ++ post) 0
  rw [Nat.add_zero] at h
  rw [h, rd32_append_left _ _ (by simp), rd32_le32]
  apply BitVec.eq_of_toNat_eq
  simp [v.isLt]

/-- PARSEMETA reads back what META wrote, and the payload after it. -/
theorem parseMeta_metaBytes (flags : Byte) (m : MetaFields) (p : List Byte) :
    parseMeta flags (metaBytes flags m ++ p) = (presentFields flags m, p) := by
  have r0 := rd16_toNat [] m.reqid
  have r1 := rd32_toNat [] m.pktid
  have r2 := rd32_toNat (le32 m.pktid.toNat) m.offset
  have r3 := rd32_toNat (le32 m.pktid.toNat ++ le32 m.offset.toNat) m.total
  have r4 := rd32_toNat [] m.ulen
  have r5 := rd32_toNat (le16 m.reqid.toNat) m.pktid
  have r6 := rd32_toNat (le16 m.reqid.toNat ++ le32 m.pktid.toNat) m.offset
  have r7 := rd32_toNat (le16 m.reqid.toNat ++ le32 m.pktid.toNat ++ le32 m.offset.toNat) m.total
  have r8 := rd32_toNat (le16 m.reqid.toNat) m.ulen
  have r9 := rd32_toNat (le32 m.pktid.toNat ++ le32 m.offset.toNat ++ le32 m.total.toNat) m.ulen
  have r10 := rd32_toNat (le16 m.reqid.toNat ++ le32 m.pktid.toNat ++ le32 m.offset.toNat ++ le32 m.total.toNat) m.ulen
  simp only [List.length_append, le16_length, le32_length, List.length_nil, List.nil_append, Nat.reduceAdd,
    List.append_assoc] at r0 r1 r2 r3 r4 r5 r6 r7 r8 r9 r10
  have hd : ∀ (q : List Byte) (k : Nat), q.length = k → (q ++ p).drop k = p := by
    rintro q k rfl; simp
  have d := hd (metaBytes flags m) (metaLen flags) (metaBytes_length _ _)
  unfold metaLen at d
  unfold parseMeta presentFields
  unfold metaBytes at d ⊢
  by_cases h1 : flagCorr flags = 0#2 <;> by_cases h2 : flagChk flags = true <;>
    by_cases h3 : flagCmode flags = 0#2 <;>
    simp_all

/-! ## Headers (30 R74, R88) -/

/-- The first seven bytes of a frame. -/
def headerBytes (flags : Byte) (id len : Half) (ck : Nat) : List Byte :=
  flags :: le16 id.toNat ++ le16 len.toNat ++ le16 ck

@[simp] theorem headerBytes_length (flags : Byte) (id len : Half) (ck : Nat) : (headerBytes flags id len ck).length = 7 := rfl

/-- PARSEHDR reads back what the header was built from. -/
theorem parseHdr_headerBytes (flags : Byte) (id len : Half) (ck : Nat) :
    parseHdr (headerBytes flags id len ck) =
      { flags := flags, id := id, len := len, cksum := BitVec.ofNat 16 ck,
        computed := BitVec.ofNat 16 (hcs flags id len) } := by
  have h1 := rd16_toNat [flags] id (le16 len.toNat ++ le16 ck)
  have h2 := rd16_toNat (flags :: le16 id.toNat) len (le16 ck)
  have h3 := rd16_append_right (flags :: le16 id.toNat ++ le16 len.toNat) (le16 ck) 0
  simp only [List.length_cons, List.length_nil, List.length_append, le16_length, List.cons_append, List.nil_append,
    Nat.reduceAdd, Nat.add_zero, rd16_le16] at h1 h2 h3
  have hl : headerBytes flags id len ck = flags :: (le16 id.toNat ++ (le16 len.toNat ++ le16 ck)) := by
    simp [headerBytes]
  unfold parseHdr
  rw [hl] at *
  simp only [List.append_assoc] at h3
  simp only [h1, h2, h3, List.getD_cons_zero]
  congr 1
  apply BitVec.eq_of_toNat_eq
  simp

end Sys2Proof.Machine
end

