-- ==== Sys2Proof/Laws/Memory.lean ====
section
/-! SUPPORT. The laws of the byte memories: what a read sees after a write, the canonical form, and ranges. -/

namespace Sys2Proof.Machine

/-! ## Reads -/

@[simp] theorem Memory.read_nil (a : Nat) : Memory.read [] a = none := rfl

theorem Memory.read_cons (k : Nat) (b : Byte) (m : Memory) (a : Nat) :
    Memory.read ((k, b) :: m) a = if k = a then some b else Memory.read m a := rfl

theorem Memory.read_append (m m' : Memory) (a : Nat) :
    Memory.read (m ++ m') a = (Memory.read m a).or (Memory.read m' a) := by
  induction m with
  | nil => simp
  | cons c m ih =>
    obtain ⟨k, b⟩ := c
    rw [List.cons_append, Memory.read_cons, Memory.read_cons]
    split <;> simp [ih]

theorem Memory.read_eq_none {m : Memory} {a : Nat} : m.read a = none ↔ ∀ c ∈ m, c.1 ≠ a := by
  induction m with
  | nil => simp
  | cons c m ih =>
    obtain ⟨k, b⟩ := c
    rw [Memory.read_cons]
    split <;> simp_all

theorem Memory.read_isSome {m : Memory} {a : Nat} : (m.read a).isSome = true ↔ a ∈ m.map Prod.fst := by
  induction m with
  | nil => simp
  | cons c m ih =>
    obtain ⟨k, b⟩ := c
    rw [Memory.read_cons]
    split
    · simp_all
    · rename_i h
      simp only [ih, List.map_cons, List.mem_cons]
      constructor
      · exact Or.inr
      · rintro (rfl | h')
        · exact absurd rfl h
        · exact h'

theorem Memory.mem_of_read {m : Memory} {a : Nat} {b : Byte} (h : m.read a = some b) : (a, b) ∈ m := by
  induction m with
  | nil => simp at h
  | cons c m ih =>
    obtain ⟨k, v⟩ := c
    rw [Memory.read_cons] at h
    split at h
    · subst_vars; simp_all
    · exact List.mem_cons_of_mem _ (ih h)

theorem Memory.read_filter (m : Memory) (p : Nat → Bool) (a : Nat) :
    Memory.read (m.filter (fun c => p c.1)) a = if p a then m.read a else none := by
  induction m with
  | nil => simp
  | cons c m ih =>
    obtain ⟨k, b⟩ := c
    rw [List.filter_cons, Memory.read_cons]
    by_cases hk : k = a
    · subst hk
      by_cases hp : p k
      · simp [hp, Memory.read_cons]
      · simp [hp, ih]
    · by_cases hp : p k <;> simp [hp, hk, Memory.read_cons, ih]

/-! ## Cells of a range -/

theorem read_cellsFrom (a : Nat) (bs : List Byte) (x : Nat) :
    Memory.read (cellsFrom a bs) x = if a ≤ x then bs[x - a]? else none := by
  induction bs generalizing a with
  | nil => simp [cellsFrom]
  | cons b bs ih =>
    rw [cellsFrom, Memory.read_cons, ih]
    by_cases h : a = x
    · subst h; simp
    · by_cases hx : a ≤ x
      · have h1 : a + 1 ≤ x := by omega
        have h2 : x - a = x - (a + 1) + 1 := by omega
        simp [h, hx, h1, h2]
      · have h1 : ¬ a + 1 ≤ x := by omega
        simp [h, hx, h1]

@[simp] theorem map_fst_cellsFrom (a : Nat) (bs : List Byte) :
    (cellsFrom a bs).map Prod.fst = List.range' a bs.length := by
  induction bs generalizing a with
  | nil => rfl
  | cons b bs ih => simp [cellsFrom, ih, List.range'_succ]

theorem mem_cellsFrom {a : Nat} {bs : List Byte} {c : Host.Cell} (h : c ∈ cellsFrom a bs) :
    a ≤ c.1 ∧ c.1 < a + bs.length := by
  have : c.1 ∈ (cellsFrom a bs).map Prod.fst := List.mem_map_of_mem h
  rw [map_fst_cellsFrom, List.mem_range'_1] at this
  exact this

theorem wf_cellsFrom (a : Nat) (bs : List Byte) : Memory.wf (cellsFrom a bs) := by
  induction bs generalizing a with
  | nil => exact List.Pairwise.nil
  | cons b bs ih =>
    refine List.Pairwise.cons (fun c hc => ?_) (ih _)
    exact (mem_cellsFrom hc).1

/-! ## Writes -/

/-- What a read sees after a write of a range: the new bytes inside it, the old ones outside. -/
theorem Memory.read_writeBytes (m : Memory) (a : Nat) (bs : List Byte) (x : Nat) :
    (m.writeBytes a bs).read x = if a ≤ x ∧ x < a + bs.length then bs[x - a]? else m.read x := by
  rw [Memory.writeBytes, Memory.read_append, Memory.read_append, Memory.read_filter m (fun k => decide (k < a)),
    Memory.read_filter m (fun k => decide (a + bs.length ≤ k)), read_cellsFrom]
  by_cases h1 : a ≤ x
  · by_cases h2 : x < a + bs.length
    · have h3 : x - a < bs.length := by omega
      simp [h1, h2, h3, Nat.not_lt.mpr h1, Nat.not_le.mpr h2]
    · have h3 : bs.length ≤ x - a := by omega
      simp [h1, h2, Nat.not_lt.mpr h1, Nat.not_lt.mp h2, List.getElem?_eq_none h3]
  · have h2 : ¬ a + bs.length ≤ x := by omega
    simp [h1, h2, Nat.lt_of_not_le h1]

theorem Memory.read_writeBytes_of_lt (m : Memory) (a : Nat) (bs : List Byte) (i : Nat) (h : i < bs.length) :
    (m.writeBytes a bs).read (a + i) = some bs[i] := by
  rw [Memory.read_writeBytes, if_pos (by omega)]
  simp [h]

theorem Memory.read_writeBytes_outside (m : Memory) (a : Nat) (bs : List Byte) (x : Nat)
    (h : x < a ∨ a + bs.length ≤ x) : (m.writeBytes a bs).read x = m.read x := by
  rw [Memory.read_writeBytes, if_neg (by omega)]

theorem Memory.read_write (m : Memory) (a : Nat) (b : Byte) (x : Nat) :
    (m.write a b).read x = if x = a then some b else m.read x := by
  rw [Memory.write, Memory.read_writeBytes]
  by_cases h : x = a
  · subst h; simp
  · have : ¬ (a ≤ x ∧ x < a + [b].length) := by simp; omega
    simp only [this, h, if_false]

/-- Every memory write keeps the canonical form. -/
theorem Memory.wf_writeBytes {m : Memory} (h : m.wf) (a : Nat) (bs : List Byte) : (m.writeBytes a bs).wf := by
  unfold Memory.writeBytes Memory.wf
  rw [List.pairwise_append, List.pairwise_append]
  refine ⟨⟨h.filter _, wf_cellsFrom a bs, fun x hx y hy => ?_⟩, h.filter _, fun x hx y hy => ?_⟩
  · have := (mem_cellsFrom hy).1
    simp only [List.mem_filter, decide_eq_true_eq] at hx
    omega
  · simp only [List.mem_append, List.mem_filter, decide_eq_true_eq] at hx hy
    rcases hx with hx | hx
    · omega
    · have := (mem_cellsFrom hx).2
      omega

theorem Memory.wf_write {m : Memory} (h : m.wf) (a : Nat) (b : Byte) : (m.write a b).wf :=
  Memory.wf_writeBytes h a [b]

theorem Memory.mem_writeBytes {m : Memory} {a : Nat} {bs : List Byte} {c : Host.Cell} (h : c ∈ m.writeBytes a bs) :
    c ∈ m ∨ (a ≤ c.1 ∧ c.1 < a + bs.length) := by
  simp only [Memory.writeBytes, List.mem_append, List.mem_filter] at h
  rcases h with (h | h) | h
  · exact .inl h.1
  · exact .inr (mem_cellsFrom h)
  · exact .inl h.1

/-- A write inside a memory keeps it a memory of that size. -/
theorem Memory.fits_writeBytes {m : Memory} {size a : Nat} {bs : List Byte} (h : m.fits size)
    (hr : a + bs.length ≤ size) : (m.writeBytes a bs).fits size := by
  refine ⟨Memory.wf_writeBytes h.1 a bs, fun c hc => ?_⟩
  rcases Memory.mem_writeBytes hc with hc | hc
  · exact h.2 c hc
  · omega

theorem Memory.fits_write {m : Memory} {size a : Nat} {b : Byte} (h : m.fits size) (hr : a < size) :
    (m.write a b).fits size := Memory.fits_writeBytes h (by simp; omega)

theorem Memory.fits_nil (size : Nat) : Memory.fits [] size := ⟨List.Pairwise.nil, by simp⟩

@[simp] theorem Memory.writeBytes_nil (m : Memory) (h : m.wf) (a : Nat) : m.writeBytes a [] = m := by
  have key : ∀ m : Memory, m.wf → m.filter (fun c => decide (c.1 < a)) ++ m.filter (fun c => decide (a ≤ c.1)) = m := by
    intro m hm
    induction m with
    | nil => rfl
    | cons c m ih =>
      obtain ⟨hc, hm⟩ := List.pairwise_cons.mp hm
      by_cases h1 : c.1 < a
      · simp [h1, Nat.not_le.mpr h1, ih hm]
      · have h2 : m.filter (fun c => decide (c.1 < a)) = [] := by
          rw [List.filter_eq_nil_iff]
          intro x hx
          have := hc x hx
          simp; omega
        have h3 : m.filter (fun c => decide (a ≤ c.1)) = m := by
          rw [List.filter_eq_self]
          intro x hx
          have := hc x hx
          simp; omega
        simp [h1, Nat.le_of_not_lt h1, h2, h3]
  simpa [Memory.writeBytes, cellsFrom] using key m h

/-! ## Reads of a range -/

theorem Memory.readBytes_length {m : Memory} {a n : Nat} {bs : List Byte} (h : m.readBytes a n = some bs) :
    bs.length = n := by
  induction m generalizing a n bs with
  | nil => cases n <;> simp_all [Memory.readBytes]
  | cons c m ih =>
    obtain ⟨k, b⟩ := c
    cases n with
    | zero => simp_all [Memory.readBytes]
    | succ n =>
      rw [Memory.readBytes] at h
      split at h
      · exact ih h
      · split at h
        · obtain ⟨bs', h', rfl⟩ := Option.map_eq_some_iff.mp h
          simp [ih h']
        · cases h

/-- In a memory in canonical form, the bytes of a range are exactly what reading each byte gives. -/
theorem Memory.readBytes_eq_some {m : Memory} (hm : m.wf) {a n : Nat} {bs : List Byte} :
    m.readBytes a n = some bs ↔ bs.length = n ∧ ∀ i (h : i < bs.length), m.read (a + i) = some bs[i] := by
  induction m generalizing a n bs with
  | nil =>
    cases n with
    | zero =>
      simp only [Memory.readBytes, Option.some.injEq, List.length_eq_zero_iff]
      constructor
      · rintro rfl; simp
      · rintro ⟨rfl, -⟩; rfl
    | succ n =>
      simp only [Memory.readBytes, Memory.read_nil, reduceCtorEq, false_iff, not_and]
      intro hl h
      exact (h 0 (by omega)).elim
  | cons c m ih =>
    obtain ⟨k, b⟩ := c
    obtain ⟨hc, hm⟩ := List.pairwise_cons.mp hm
    cases n with
    | zero =>
      simp only [Memory.readBytes, Option.some.injEq, List.length_eq_zero_iff]
      constructor
      · rintro rfl; simp
      · rintro ⟨rfl, -⟩; rfl
    | succ n =>
      rw [Memory.readBytes]
      split
      · rename_i hk
        rw [ih hm]
        refine and_congr_right fun _ => forall_congr' fun i => forall_congr' fun hi => ?_
        rw [Memory.read_cons, if_neg (by omega)]
      · split
        · rename_i hk
          subst hk
          rw [Option.map_eq_some_iff]
          constructor
          · rintro ⟨bs', h', rfl⟩
            obtain ⟨hl, hb⟩ := (ih hm).mp h'
            refine ⟨by simp [hl], fun i hi => ?_⟩
            cases i with
            | zero => simp [Memory.read_cons]
            | succ i =>
              rw [Memory.read_cons, if_neg (by omega)]
              have := hb i (by simpa using hi)
              simpa [Nat.add_assoc, Nat.add_comm 1 i] using this
          · rintro ⟨hl, hb⟩
            cases bs with
            | nil => simp at hl
            | cons b' bs =>
              have h0 := hb 0 (by simp)
              simp only [Nat.add_zero, Memory.read_cons, if_true, List.getElem_cons_zero, Option.some.injEq] at h0
              subst h0
              refine ⟨bs, (ih hm).mpr ⟨by simpa using hl, fun i hi => ?_⟩, rfl⟩
              have := hb (i + 1) (by simpa using hi)
              rw [Memory.read_cons, if_neg (by omega)] at this
              simpa [Nat.add_assoc, Nat.add_comm 1 i] using this
        · rename_i h1 h2
          simp only [reduceCtorEq, false_iff, not_and]
          intro hl hb
          have h0 := hb 0 (by omega)
          rw [Memory.read_cons, if_neg (by omega)] at h0
          have := hc _ (Memory.mem_of_read h0)
          simp only at this
          omega

/-- A range whose every byte is written reads as some bytes. -/
theorem Memory.readBytes_isSome {m : Memory} (hm : m.wf) {a n : Nat}
    (h : ∀ i < n, (m.read (a + i)).isSome = true) : ∃ bs, m.readBytes a n = some bs := by
  refine ⟨(List.range n).map (fun i => (m.read (a + i)).getD 0), (Memory.readBytes_eq_some hm).mpr ⟨by simp, ?_⟩⟩
  intro i hi
  have hi' : i < n := by simpa using hi
  obtain ⟨b, hb⟩ := Option.isSome_iff_exists.mp (h i hi')
  simp [hb]

/-- The keys of a written memory: those of the range, and the old ones outside it. -/
theorem Memory.map_fst_writeBytes (m : Memory) (a : Nat) (bs : List Byte) :
    (m.writeBytes a bs).map Prod.fst = fillRange (m.map Prod.fst) a bs.length := by
  simp only [Memory.writeBytes, fillRange, List.map_append, map_fst_cellsFrom, List.filter_map]
  rfl

/-! ## `fetch` -/

theorem Memory.fetch_eq_ok {m : Memory} {sp : Space} {a n : Nat} {bs : List Byte} :
    m.fetch sp a n = .ok bs ↔ m.readBytes a n = some bs := by
  unfold Memory.fetch
  split <;> simp_all

/-- A fetch either gives the bytes or faults as an unwritten read of that space. -/
theorem Memory.fetch_cases (m : Memory) (sp : Space) (a n : Nat) :
    (∃ bs, m.readBytes a n = some bs ∧ m.fetch sp a n = .ok bs)
      ∨ ∃ x, m.readBytes a n = none ∧ m.fetch sp a n = .error (.unwritten sp x) := by
  unfold Memory.fetch
  cases m.readBytes a n <;> simp

theorem State.srcBytes_eq_ok {s : State} {a n : Nat} {bs : List Byte} :
    s.srcBytes a n = .ok bs ↔ s.src.readBytes a n = some bs := Memory.fetch_eq_ok

end Sys2Proof.Machine
end

