-- ==== Sys2Proof/Laws/Slots.lean ====
section
/-! SUPPORT. The laws of the slot table: what a lookup answers, what the filled-byte list holds, and which updates
keep the table's invariant. -/

namespace Sys2Proof.Machine

/-! ## Lookup (10 R48) -/

theorem slotAt_of_lt {slots : List Slot} {k : Nat} (h : k < slots.length) : slotAt slots k = slots[k] := by
  simp [slotAt, h]

theorem slotAt_mem {slots : List Slot} {k : Nat} (h : k < slots.length) : slotAt slots k ∈ slots := by
  rw [slotAt_of_lt h]; exact List.getElem_mem h

/-- A slot that `find` answers is valid and has the key. -/
theorem findSlot_eq_some {slots : List Slot} {conn : Half} {pid : Word} {k : Nat} (h : findSlot slots conn pid = some k) :
    k < slots.length ∧ (slotAt slots k).valid = true ∧ (slotAt slots k).conn = conn ∧ (slotAt slots k).pid = pid := by
  unfold findSlot at h
  rw [List.findIdx?_eq_some_iff_getElem] at h
  obtain ⟨hk, h1, -⟩ := h
  rw [slotAt_of_lt hk]
  simp only [Bool.and_eq_true, beq_iff_eq] at h1
  exact ⟨hk, h1.1.1, h1.1.2, h1.2⟩

/-- `find` answers none exactly when no valid slot has the key. -/
theorem findSlot_eq_none {slots : List Slot} {conn : Half} {pid : Word} :
    findSlot slots conn pid = none ↔ ∀ sl ∈ slots, ¬ (sl.valid = true ∧ sl.conn = conn ∧ sl.pid = pid) := by
  unfold findSlot
  rw [List.findIdx?_eq_none_iff]
  refine forall_congr' fun sl => forall_congr' fun _ => ?_
  simp only [Bool.and_eq_false_iff, beq_eq_false_iff_ne]
  cases sl.valid
  · simp
  · simp
    tauto

theorem freeSlot_eq_some {slots : List Slot} {k : Nat} (h : freeSlot slots = some k) :
    k < slots.length ∧ (slotAt slots k).valid = false ∧ ∀ j < k, (slotAt slots j).valid = true := by
  unfold freeSlot at h
  rw [List.findIdx?_eq_some_iff_getElem] at h
  obtain ⟨hk, h1, h2⟩ := h
  refine ⟨hk, by rw [slotAt_of_lt hk]; simpa using h1, fun j hj => ?_⟩
  rw [slotAt_of_lt (by omega)]
  simpa using h2 j hj

theorem freeSlot_eq_none {slots : List Slot} : freeSlot slots = none ↔ ∀ sl ∈ slots, sl.valid = true := by
  unfold freeSlot
  rw [List.findIdx?_eq_none_iff]
  simp

/-! ## Filled bytes (10 R46, 43 R155) -/

theorem mem_fillRange {fill : List Nat} {off n j : Nat} :
    j ∈ fillRange fill off n ↔ j ∈ fill ∨ (off ≤ j ∧ j < off + n) := by
  simp only [fillRange, List.mem_append, List.mem_filter, List.mem_range'_1, decide_eq_true_eq]
  constructor
  · rintro ((h | h) | h)
    · exact .inl h.1
    · exact .inr h
    · exact .inl h.1
  · rintro (h | h)
    · by_cases h1 : j < off
      · exact .inl (.inl ⟨h, h1⟩)
      · by_cases h2 : off + n ≤ j
        · exact .inr ⟨h, h2⟩
        · exact .inl (.inr ⟨by omega, by omega⟩)
    · exact .inl (.inr h)

theorem fillOverlaps_eq_false {fill : List Nat} {off n : Nat} :
    fillOverlaps fill off n = false ↔ ∀ j ∈ fill, ¬ (off ≤ j ∧ j < off + n) := by
  simp only [fillOverlaps, List.any_eq_false, Bool.and_eq_true, decide_eq_true_eq]

/-- A range that meets no filled byte adds its whole length. -/
theorem fillRange_length {fill : List Nat} {off n : Nat} (h : fillOverlaps fill off n = false) :
    (fillRange fill off n).length = fill.length + n := by
  have key : ∀ l : List Nat, (∀ j ∈ l, ¬ (off ≤ j ∧ j < off + n)) →
      (l.filter (fun j => decide (j < off))).length + (l.filter (fun j => decide (off + n ≤ j))).length = l.length := by
    intro l hl
    induction l with
    | nil => rfl
    | cons a l ih =>
      have ha := hl a (by simp)
      have ih := ih fun j hj => hl j (List.mem_cons_of_mem _ hj)
      by_cases h1 : a < off
      · have h2 : ¬ off + n ≤ a := by omega
        simp [h1, h2]; omega
      · have h2 : off + n ≤ a := by omega
        simp [h1, h2]; omega
  have := key fill (fillOverlaps_eq_false.mp h)
  simp only [fillRange, List.length_append, List.length_range']
  omega

/-- Distinct indices below `n` number at most `n`. -/
theorem nodup_length_le {l : List Nat} (h : l.Nodup) {n : Nat} (hl : ∀ j ∈ l, j < n) : l.length ≤ n := by
  have h1 : l.toFinset ⊆ Finset.range n := fun j hj => Finset.mem_range.mpr (hl j (List.mem_toFinset.mp hj))
  have h2 := Finset.card_le_card h1
  rwa [List.toFinset_card_of_nodup h, Finset.card_range] at h2

/-- If they number `n`, every index below `n` is among them. -/
theorem nodup_full {l : List Nat} (h : l.Nodup) {n : Nat} (hl : ∀ j ∈ l, j < n) (hn : l.length = n) :
    ∀ j < n, j ∈ l := by
  have h1 : l.toFinset ⊆ Finset.range n := fun j hj => Finset.mem_range.mpr (hl j (List.mem_toFinset.mp hj))
  have h2 := Finset.eq_of_subset_of_card_le h1 (by rw [List.toFinset_card_of_nodup h, Finset.card_range, hn])
  intro j hj
  rw [← List.mem_toFinset, h2]
  exact Finset.mem_range.mpr hj

theorem Memory.nodup_keys {m : Memory} (h : m.wf) : (m.map Prod.fst).Nodup := by
  rw [List.Nodup, List.pairwise_map]
  exact h.imp fun h => Nat.ne_of_lt h

/-! ## The table's invariant (10 R47) -/

theorem Slot.KeysDiffer.symm {x y : Slot} (h : x.KeysDiffer y) : y.KeysDiffer x :=
  fun ⟨h1, h2, h3, h4⟩ => h ⟨h2, h1, h3.symm, h4.symm⟩

theorem Slot.KeysDiffer.of_invalid {x y : Slot} (h : y.valid = false) : x.KeysDiffer y := fun ⟨_, h2, _, _⟩ => by
  simp [h] at h2

/-- Any two slots of a table in its invariant, at different indices, differ in key. -/
theorem SlotsInv.keysDiffer {p : Params} {slots : List Slot} (h : SlotsInv p slots) {i j : Nat} (hi : i < slots.length)
    (hj : j < slots.length) (hne : i ≠ j) : (slotAt slots i).KeysDiffer (slotAt slots j) := by
  rw [slotAt_of_lt hi, slotAt_of_lt hj]
  have hp := List.pairwise_iff_getElem.mp h.2.2
  rcases Nat.lt_or_gt_of_ne hne with h1 | h1
  · exact hp i j hi hj h1
  · exact (hp j i hj hi h1).symm

/-- One slot may be replaced by one that meets the slot invariant and has a key no other slot holds. -/
theorem SlotsInv.set {p : Params} {slots : List Slot} (h : SlotsInv p slots) {k : Nat} {sl : Slot} (hs : sl.Inv p)
    (hd : ∀ j < slots.length, j ≠ k → (slotAt slots j).KeysDiffer sl) : SlotsInv p (slots.set k sl) := by
  refine ⟨by rw [List.length_set]; exact h.1, fun x hx => ?_, List.pairwise_iff_getElem.mpr fun i j hi hj hij => ?_⟩
  · rcases List.mem_or_eq_of_mem_set hx with hx | rfl
    · exact h.2.1 x hx
    · exact hs
  · rw [List.length_set] at hi hj
    rw [List.getElem_set, List.getElem_set]
    by_cases h1 : k = i
    · rw [if_pos h1, if_neg (by omega)]
      have := hd j hj (by omega)
      rw [slotAt_of_lt hj] at this
      exact this.symm
    · rw [if_neg h1]
      by_cases h2 : k = j
      · rw [if_pos h2]
        have := hd i hi (by omega)
        rwa [slotAt_of_lt hi] at this
      · rw [if_neg h2]
        exact List.pairwise_iff_getElem.mp h.2.2 i j hi hj hij

/-- A change of every slot that keeps its key, makes none valid and keeps the slot invariant keeps the table's. -/
theorem SlotsInv.map {p : Params} {slots : List Slot} (h : SlotsInv p slots) {f : Slot → Slot}
    (hi : ∀ sl, sl.Inv p → (f sl).Inv p)
    (hk : ∀ sl, ((f sl).valid = true → sl.valid = true) ∧ (f sl).conn = sl.conn ∧ (f sl).pid = sl.pid) :
    SlotsInv p (slots.map f) := by
  refine ⟨by rw [List.length_map]; exact h.1, fun x hx => ?_, ?_⟩
  · obtain ⟨sl, hsl, rfl⟩ := List.mem_map.mp hx
    exact hi sl (h.2.1 sl hsl)
  · rw [List.pairwise_map]
    refine h.2.2.imp fun {x y} hxy => ?_
    rintro ⟨h1, h2, h3, h4⟩
    refine hxy ⟨(hk x).1 h1, (hk y).1 h2, ?_, ?_⟩
    · rw [← (hk x).2.1, ← (hk y).2.1, h3]
    · rw [← (hk x).2.2, ← (hk y).2.2, h4]

theorem Slot.Inv.release {p : Params} {sl : Slot} (h : sl.Inv p) : sl.release.Inv p :=
  ⟨h.1, fun hv => by simp [Slot.release] at hv⟩

theorem SlotsInv.release {p : Params} {slots : List Slot} (h : SlotsInv p slots) {k : Nat} (hk : k < slots.length) :
    SlotsInv p (slots.set k (slotAt slots k).release) :=
  h.set (h.2.1 _ (slotAt_mem hk)).release fun _ _ _ => .of_invalid rfl

theorem wellFormed_bounds {p : Params} (h : p.wellFormed = true) :
    (1 ≤ p.srcSize ∧ p.srcSize ≤ 2 ^ 32 - 1) ∧ (1 ≤ p.dstSize ∧ p.dstSize ≤ 2 ^ 32 - 1)
      ∧ (1 ≤ p.crSlots ∧ p.crSlots ≤ 65535) ∧ (1 ≤ p.crMaxTotal ∧ p.crMaxTotal ≤ 2 ^ 32 - 1)
      ∧ (1 ≤ p.crIdleTicks ∧ p.crIdleTicks ≤ 2 ^ 32 - 1) := by
  simp only [Params.wellFormed, Bool.and_eq_true, decide_eq_true_eq] at h
  tauto

end Sys2Proof.Machine
end

