-- ==== Sys2Proof/Laws/Reassembler.lean ====
section
/-! SUPPORT. The laws of the reassembler: what recording a chunk does to a slot, everything CRCORE can answer, that
it answers in every state that meets the invariants, and that it, a tick and an eviction keep them. -/

namespace Sys2Proof.Machine

/-! ## One slot -/

/-- A chunk that CRCORE accepts into `sl` (43 R151, R153): none of R153's violations. -/
structure Slot.Accepts (sl : Slot) (off n tot : Nat) : Prop where
  total   : tot = sl.total.toNat
  nonzero : n ≠ 0
  inside  : off + n ≤ tot
  fresh   : fillOverlaps sl.fill off n = false

@[simp] theorem Slot.record_valid (sl : Slot) (off : Nat) (data : List Byte) (rem : Nat) :
    (sl.record off data rem).valid = sl.valid := rfl
@[simp] theorem Slot.record_conn (sl : Slot) (off : Nat) (data : List Byte) (rem : Nat) :
    (sl.record off data rem).conn = sl.conn := rfl
@[simp] theorem Slot.record_pid (sl : Slot) (off : Nat) (data : List Byte) (rem : Nat) :
    (sl.record off data rem).pid = sl.pid := rfl
@[simp] theorem Slot.record_total (sl : Slot) (off : Nat) (data : List Byte) (rem : Nat) :
    (sl.record off data rem).total = sl.total := rfl
@[simp] theorem Slot.record_data (sl : Slot) (off : Nat) (data : List Byte) (rem : Nat) :
    (sl.record off data rem).data = sl.data.writeBytes off data := rfl
@[simp] theorem Slot.record_fill (sl : Slot) (off : Nat) (data : List Byte) (rem : Nat) :
    (sl.record off data rem).fill = fillRange sl.fill off data.length := rfl

variable {p : Params} {sl : Slot} {off tot : Nat} {data : List Byte}

/-- An accepted chunk is no longer than what is missing (10 R47). -/
theorem Slot.Accepts.le_rem (h : sl.Inv p) (hv : sl.valid = true) (ha : sl.Accepts off data.length tot) :
    data.length ≤ sl.rem.toNat := by
  obtain ⟨-, hf, -⟩ := h.2 hv
  have hlen := fillRange_length ha.fresh
  have hnd : (fillRange sl.fill off data.length).Nodup := by
    rw [hf.1, ← Memory.map_fst_writeBytes]
    exact Memory.nodup_keys (Memory.wf_writeBytes h.1.1 _ _)
  have hle := nodup_length_le hnd (n := sl.total.toNat) fun j hj => by
    rcases mem_fillRange.mp hj with hj | hj
    · exact hf.2.1 j hj
    · have := ha.inside; have := ha.total; omega
  have := hf.2.2.1
  omega

theorem Slot.record_fits (h : sl.Inv p) (hv : sl.valid = true) (ha : sl.Accepts off data.length tot) (rem : Nat) :
    (sl.record off data rem).data.fits p.crMaxTotal := by
  have := (h.2 hv).1
  have := ha.inside
  have := ha.total
  exact Memory.fits_writeBytes h.1 (by omega)

/-- Recording an accepted chunk that leaves bytes missing keeps the slot's invariant (10 R47, 43 R155). -/
theorem Slot.record_inv (hp : p.wellFormed = true) (h : sl.Inv p) (hv : sl.valid = true)
    (ha : sl.Accepts off data.length tot) (hr : sl.rem.toNat - data.length ≠ 0) :
    (sl.record off data (sl.rem.toNat - data.length)).Inv p := by
  have hle := ha.le_rem h hv
  obtain ⟨ht, hf, hidle⟩ := h.2 hv
  have hrem : (BitVec.ofNat 32 (sl.rem.toNat - data.length)).toNat = sl.rem.toNat - data.length := by
    have := sl.rem.isLt
    rw [BitVec.toNat_ofNat, Nat.mod_eq_of_lt (by omega)]
  refine ⟨Slot.record_fits h hv ha _, fun _ => ⟨ht, ⟨?_, fun j hj => ?_, ?_, ?_⟩, ?_⟩⟩
  · rw [Slot.record_fill, Slot.record_data, Memory.map_fst_writeBytes, hf.1]
  · rw [Slot.record_fill, mem_fillRange] at hj
    rw [Slot.record_total]
    rcases hj with hj | hj
    · exact hf.2.1 j hj
    · have := ha.inside; have := ha.total; omega
  · rw [Slot.record_fill, fillRange_length ha.fresh, Slot.record_total]
    have := hf.2.2.1
    simp only [Slot.record, hrem]
    omega
  · simp only [Slot.record, hrem]
    omega
  · have := (wellFormed_bounds hp).2.2.2.2.1
    simp only [Slot.record, Slot.IdleOk]
    split
    · simp; omega
    · rfl

/-- Recording the chunk that leaves none missing fills every byte of the payload (43 R156). -/
theorem Slot.record_full (h : sl.Inv p) (hv : sl.valid = true) (ha : sl.Accepts off data.length tot)
    (hr : sl.rem.toNat - data.length = 0) (rem : Nat) :
    ∀ j < tot, ((sl.record off data rem).data.read j).isSome = true := by
  have hle := ha.le_rem h hv
  obtain ⟨-, hf, -⟩ := h.2 hv
  have hlen := fillRange_length ha.fresh
  have hkeys : (sl.record off data rem).data.map Prod.fst = fillRange sl.fill off data.length := by
    rw [Slot.record_data, Memory.map_fst_writeBytes, hf.1]
  have hnd : (fillRange sl.fill off data.length).Nodup := by
    rw [← hkeys]
    exact Memory.nodup_keys (Memory.wf_writeBytes h.1.1 _ _)
  intro j hj
  rw [Memory.read_isSome, hkeys]
  refine nodup_full hnd (n := sl.total.toNat) (fun j hj => ?_) ?_ j (by rw [← ha.total]; exact hj)
  · rcases mem_fillRange.mp hj with hj | hj
    · exact hf.2.1 j hj
    · have := ha.inside; have := ha.total; omega
  · have := hf.2.2.1
    omega

/-- A freshly taken slot meets the slot invariant, but that nothing is filled yet (43 R152). -/
theorem Slot.fresh_inv (hp : p.wellFormed = true) (conn : Half) (pid : Word) (h0 : tot ≠ 0) (ht : tot ≤ p.crMaxTotal) :
    (Slot.fresh conn pid tot).Inv p ∧ (Slot.fresh conn pid tot).total.toNat = tot
      ∧ (Slot.fresh conn pid tot).rem.toNat = tot := by
  have hb := wellFormed_bounds hp
  have hmod : (BitVec.ofNat 32 tot).toNat = tot := by rw [BitVec.toNat_ofNat, Nat.mod_eq_of_lt (by omega)]
  refine ⟨⟨Memory.fits_nil _, fun _ => ⟨by simp only [Slot.fresh, hmod]; exact ht, ⟨rfl, by simp [Slot.fresh], ?_, ?_⟩, ?_⟩⟩,
    hmod, hmod⟩
  · simp [Slot.fresh]
  · simp only [Slot.fresh, hmod]; omega
  · simp only [Slot.fresh, Slot.IdleOk]
    split
    · simp; omega
    · rfl

/-! ## CRCORE -/

variable {s : State} {k d : Nat}

/-- Everything the end of CRCORE can answer for an accepted chunk: OUT_OF_RANGE, ASSEMBLED or CHUNK_ACCEPTED. -/
theorem crAccept_cases {rem : Nat} {r : CrResult} (h : crAccept s k sl rem off tot data d = .ok r) :
    (rem = 0 ∧ ¬ inDst s d tot ∧ r = .outOfRange)
      ∨ (rem = 0 ∧ inDst s d tot ∧ ∃ bs, (sl.record off data rem).data.readBytes 0 tot = some bs
          ∧ r = .done .assembled tot (s.slots.set k (sl.record off data rem).release) (s.dst.writeBytes d bs))
      ∨ (rem ≠ 0 ∧ r = .done .chunkAccepted rem (s.slots.set k (sl.record off data rem)) s.dst) := by
  unfold crAccept at h
  split at h
  · rename_i hc
    injection h with h
    exact .inl ⟨hc.1, hc.2, h.symm⟩
  · rename_i hc
    dsimp only at h
    split at h
    · rename_i hr
      cases hb : (sl.record off data rem).data.fetch .slotData 0 tot with
      | error f => rw [hb] at h; cases h
      | ok bs =>
        rw [hb] at h
        injection h with h
        refine .inr (.inl ⟨hr, ?_, bs, Memory.fetch_eq_ok.mp hb, h.symm⟩)
        by_contra hd
        exact hc ⟨hr, hd⟩
    · rename_i hr
      injection h with h
      exact .inr (.inr ⟨hr, h.symm⟩)

/-- The end of CRCORE answers, for a chunk that a slot in its invariant accepts. -/
theorem crAccept_ok (h : sl.Inv p) (hv : sl.valid = true) (ha : sl.Accepts off data.length tot) :
    ∃ r, crAccept s k sl (sl.rem.toNat - data.length) off tot data d = .ok r := by
  unfold crAccept
  split
  · exact ⟨_, rfl⟩
  · dsimp only
    split
    · rename_i hr
      obtain ⟨bs, hbs⟩ := Memory.readBytes_isSome (m := (sl.record off data (sl.rem.toNat - data.length)).data)
        (Slot.record_fits h hv ha _).1 (a := 0) (n := tot)
        (fun j hj => by rw [Nat.zero_add]; exact Slot.record_full h hv ha hr _ j hj)
      exact ⟨_, by rw [Memory.fetch_eq_ok.mpr hbs]; rfl⟩
    · exact ⟨_, rfl⟩

variable {conn : Half} {pid : Word}

/-- The ways CRCORE can go (43 R151): a violation of an existing entry, which discards it; an accepted chunk of
an existing entry; a violation, an allocation failure or an accepted chunk of a new key. -/
theorem crCore_cases {r : CrResult} (h : crCore s conn pid off tot data d = .ok r) :
    (∃ k, findSlot s.slots conn pid = some k ∧ ¬ (slotAt s.slots k).Accepts off data.length tot
        ∧ r = .done .chunkViolation 0 (s.slots.set k (slotAt s.slots k).release) s.dst)
      ∨ (∃ k, findSlot s.slots conn pid = some k ∧ (slotAt s.slots k).Accepts off data.length tot
        ∧ crAccept s k (slotAt s.slots k) ((slotAt s.slots k).rem.toNat - data.length) off tot data d = .ok r)
      ∨ (findSlot s.slots conn pid = none ∧ (tot = 0 ∨ data.length = 0 ∨ off + data.length > tot)
        ∧ r = .done .chunkViolation 0 s.slots s.dst)
      ∨ (findSlot s.slots conn pid = none ∧ ¬ (tot = 0 ∨ data.length = 0 ∨ off + data.length > tot)
        ∧ (tot > s.params.crMaxTotal ∨ freeSlot s.slots = none) ∧ r = .done .allocFail 0 s.slots s.dst)
      ∨ (∃ k, findSlot s.slots conn pid = none ∧ ¬ (tot = 0 ∨ data.length = 0 ∨ off + data.length > tot)
        ∧ tot ≤ s.params.crMaxTotal ∧ freeSlot s.slots = some k
        ∧ crAccept s k (Slot.fresh conn pid tot) (tot - data.length) off tot data d = .ok r) := by
  unfold crCore at h
  dsimp only at h
  split at h
  · rename_i k hk
    split at h
    · rename_i hc
      injection h with h
      refine .inl ⟨k, hk, fun ha => ?_, h.symm⟩
      rcases hc with hc | hc | hc | hc
      · exact hc ha.total
      · exact ha.nonzero hc
      · have := ha.inside; omega
      · rw [ha.fresh] at hc; cases hc
    · rename_i hc
      simp only [not_or, not_not, Bool.not_eq_true] at hc
      exact .inr (.inl ⟨k, hk, ⟨hc.1, hc.2.1, by omega, hc.2.2.2⟩, h⟩)
  · rename_i hk
    split at h
    · rename_i hc
      injection h with h
      exact .inr (.inr (.inl ⟨hk, hc, h.symm⟩))
    · rename_i hc
      split at h
      · rename_i hm
        injection h with h
        exact .inr (.inr (.inr (.inl ⟨hk, hc, .inl hm, h.symm⟩)))
      · rename_i hm
        split at h
        · rename_i hf
          injection h with h
          exact .inr (.inr (.inr (.inl ⟨hk, hc, .inr hf, h.symm⟩)))
        · rename_i k hf
          exact .inr (.inr (.inr (.inr ⟨k, hk, hc, by omega, hf, h⟩)))

/-- A chunk that starts an entry is one that the fresh slot accepts. -/
theorem Slot.fresh_accepts (hp : p.wellFormed = true) (ht : tot ≤ p.crMaxTotal)
    (hc : ¬ (tot = 0 ∨ data.length = 0 ∨ off + data.length > tot)) :
    (Slot.fresh conn pid tot).Accepts off data.length tot := by
  simp only [not_or] at hc
  obtain ⟨-, h2, -⟩ := Slot.fresh_inv (p := p) hp conn pid hc.1 ht
  exact ⟨h2.symm, hc.2.1, by omega, rfl⟩

/-- CRCORE answers in every state that meets the invariants. -/
theorem crCore_ok (hp : s.params.wellFormed = true) (h : SlotsInv s.params s.slots) (conn : Half) (pid : Word)
    (off tot : Nat) (data : List Byte) (d : Nat) : ∃ r, crCore s conn pid off tot data d = .ok r := by
  unfold crCore
  dsimp only
  split
  · rename_i k hk
    obtain ⟨hlt, hv, -, -⟩ := findSlot_eq_some hk
    split
    · exact ⟨_, rfl⟩
    · rename_i hc
      simp only [not_or, not_not, Bool.not_eq_true] at hc
      exact crAccept_ok (h.2.1 _ (slotAt_mem hlt)) hv ⟨hc.1, hc.2.1, by omega, hc.2.2.2⟩
  · split
    · exact ⟨_, rfl⟩
    · rename_i hc
      split
      · exact ⟨_, rfl⟩
      · rename_i hm
        split
        · exact ⟨_, rfl⟩
        · have hacc := Slot.fresh_accepts (conn := conn) (pid := pid) hp (by omega) hc
          obtain ⟨hi, -, hrem⟩ := Slot.fresh_inv hp conn pid (tot := tot) (by omega) (by omega)
          have := crAccept_ok (s := s) (k := ‹Nat›) (d := d) hi rfl hacc
          rwa [hrem] at this

/-- An accepted chunk keeps the table's and DST's invariant, whichever slot takes it. -/
theorem crAccept_inv (hp : s.params.wellFormed = true) (hs : SlotsInv s.params s.slots)
    (hdst : s.dst.fits s.params.dstSize) (h : sl.Inv s.params) (hv : sl.valid = true)
    (ha : sl.Accepts off data.length tot) (hd : ∀ j < s.slots.length, j ≠ k → (slotAt s.slots j).KeysDiffer sl)
    {st : Status} {x : Nat} {slots : List Slot} {dst : Memory}
    (hr : crAccept s k sl (sl.rem.toNat - data.length) off tot data d = .ok (.done st x slots dst)) :
    SlotsInv s.params slots ∧ dst.fits s.params.dstSize := by
  have hfits := Slot.record_fits h hv ha (sl.rem.toNat - data.length)
  rcases crAccept_cases hr with ⟨-, -, hr⟩ | ⟨h0, hin, bs, hbs, hr⟩ | ⟨h0, hr⟩
  · cases hr
  · injection hr with h1 h2 h3 h4
    subst h3 h4
    refine ⟨hs.set ⟨hfits, fun hv => by simp [Slot.release] at hv⟩ fun _ _ _ => .of_invalid rfl, ?_⟩
    exact Memory.fits_writeBytes hdst (by rw [Memory.readBytes_length hbs]; exact hin)
  · injection hr with h1 h2 h3 h4
    subst h3 h4
    refine ⟨hs.set (Slot.record_inv hp h hv ha h0) fun j hj hne => ?_, hdst⟩
    exact hd j hj hne

/-- CRCORE keeps the table's and DST's invariant. -/
theorem crCore_inv (hp : s.params.wellFormed = true) (hs : SlotsInv s.params s.slots)
    (hdst : s.dst.fits s.params.dstSize) {st : Status} {x : Nat} {slots : List Slot} {dst : Memory}
    (hr : crCore s conn pid off tot data d = .ok (.done st x slots dst)) :
    SlotsInv s.params slots ∧ dst.fits s.params.dstSize := by
  rcases crCore_cases hr with ⟨k, hk, -, hr⟩ | ⟨k, hk, ha, hr⟩ | ⟨-, -, hr⟩ | ⟨-, -, -, hr⟩ | ⟨k, hk, hc, hm, hf, hr⟩
  · injection hr with h1 h2 h3 h4
    subst h3 h4
    exact ⟨hs.release (findSlot_eq_some hk).1, hdst⟩
  · obtain ⟨hlt, hv, h1, h2⟩ := findSlot_eq_some hk
    exact crAccept_inv hp hs hdst (hs.2.1 _ (slotAt_mem hlt)) hv ha (fun j hj hne => hs.keysDiffer hj hlt hne) hr
  · injection hr with h1 h2 h3 h4
    subst h3 h4
    exact ⟨hs, hdst⟩
  · injection hr with h1 h2 h3 h4
    subst h3 h4
    exact ⟨hs, hdst⟩
  · have hacc := Slot.fresh_accepts (conn := conn) (pid := pid) hp hm hc
    obtain ⟨hi, -, hrem⟩ := Slot.fresh_inv hp conn pid (tot := tot) (by omega) hm
    refine crAccept_inv hp hs hdst hi rfl hacc (fun j hj hne => ?_) (by rw [hrem]; exact hr)
    rintro ⟨h1, -, h3, h4⟩
    exact findSlot_eq_none.mp hk _ (slotAt_mem hj) ⟨h1, h3, h4⟩

/-! ## Ticks and evictions (43 R158, R160) -/

theorem Slot.tick_inv (hp : p.wellFormed = true) (ht : p.crTimed = true) (h : sl.Inv p) :
    (sl.tick p.crIdleTicks).Inv p := by
  unfold Slot.tick
  split
  · rename_i hv
    refine ⟨h.1, fun hv' => ?_⟩
    obtain ⟨h1, h2, h3⟩ := h.2 hv
    refine ⟨h1, h2, ?_⟩
    have hb := (wellFormed_bounds hp).2.2.2.2
    simp only [Bool.not_eq_eq_eq_not, Bool.not_true, decide_eq_false_iff_not] at hv'
    simp only [Slot.IdleOk, ht, if_true, BitVec.toNat_ofNat]
    rw [Nat.mod_eq_of_lt (by omega)]
    omega
  · exact h

theorem Slot.tick_key (idleTicks : Nat) (sl : Slot) :
    ((sl.tick idleTicks).valid = true → sl.valid = true) ∧ (sl.tick idleTicks).conn = sl.conn
      ∧ (sl.tick idleTicks).pid = sl.pid := by
  unfold Slot.tick
  split <;> simp_all

theorem tickSlots_slots_inv (hp : s.params.wellFormed = true) (h : SlotsInv s.params s.slots) :
    SlotsInv s.params s.tickSlots.slots := by
  unfold State.tickSlots
  split
  · rename_i ht
    exact h.map (fun sl hsl => Slot.tick_inv hp ht hsl) (Slot.tick_key _)
  · exact h

/-- A tick changes the slots and CR_EVICTS, and nothing else (43 R158). -/
theorem tickSlots_frame (s : State) :
    ∃ slots ev, s.tickSlots = (s.withSlots slots).withEvicts ev := by
  unfold State.tickSlots
  split
  · exact ⟨_, _, rfl⟩
  · exact ⟨s.slots, s.crEvicts, rfl⟩

end Sys2Proof.Machine
end

