-- ==== Sys2Proof/Laws/Ring.lean ====
section
/-! SUPPORT. The laws of the ring: its capacity, what `ringByte` sees after each ring operation, the search, and
that every ring operation keeps the ring's invariant. -/

namespace Sys2Proof.Machine

/-! ## The capacity (00 R8) -/

theorem leastPow2_pos (fuel : Nat) {c : Nat} (h : 0 < c) (req : Nat) : 0 < leastPow2 fuel c req := by
  induction fuel generalizing c with
  | zero => exact h
  | succ n ih =>
    rw [leastPow2]
    split
    · exact h
    · exact ih (by omega)

theorem ringCap_pos (p : Params) : 0 < ringCap p := leastPow2_pos 30 Nat.one_pos _

/-- The doubling search ends at a power of two times its start, no larger than needed. -/
theorem leastPow2_spec (fuel : Nat) {c req : Nat} (hc : 0 < c) (h : req ≤ 2 ^ fuel * c) :
    ∃ k, leastPow2 fuel c req = 2 ^ k * c ∧ k ≤ fuel ∧ req ≤ 2 ^ k * c ∧ ∀ j < k, 2 ^ j * c < req := by
  induction fuel generalizing c with
  | zero => exact ⟨0, by simp [leastPow2], Nat.le_refl _, by simpa using h, by simp⟩
  | succ n ih =>
    rw [leastPow2]
    split
    · exact ⟨0, by simp, Nat.zero_le _, by simpa using ‹req ≤ c›, by simp⟩
    · rename_i hreq
      obtain ⟨k, h1, h2, h3, h4⟩ := ih (c := 2 * c) (by omega) (by rw [Nat.pow_succ] at h; linarith)
      refine ⟨k + 1, by rw [h1, Nat.pow_succ]; ring, by omega, by rw [Nat.pow_succ]; linarith, fun j hj => ?_⟩
      cases j with
      | zero => simp; omega
      | succ j => have := h4 j (by omega); rw [Nat.pow_succ]; linarith

theorem wellFormed_rbCapReq {p : Params} (h : p.wellFormed = true) : 1 ≤ p.rbCapReq ∧ p.rbCapReq ≤ 2 ^ 30 := by
  simp only [Params.wellFormed, Bool.and_eq_true, decide_eq_true_eq] at h
  exact h.1.1.1.1.1

theorem ringCap_le {p : Params} (h : p.wellFormed = true) : ringCap p ≤ 2 ^ 30 := by
  obtain ⟨k, h1, h2, -, -⟩ := leastPow2_spec 30 Nat.one_pos (req := p.rbCapReq)
    (by have := (wellFormed_rbCapReq h).2; omega)
  rw [ringCap, h1, Nat.mul_one]
  exact Nat.pow_le_pow_right (by decide) h2

/-! ## Reading through `ringByte` -/

theorem ringByte_eq_ok {s : State} {i : Nat} {b : Byte} :
    ringByte s i = .ok b ↔ s.ring.mem.read (ringIndex s i) = some b := by
  unfold ringByte
  split <;> simp_all

theorem ringByte_congr {s t : State} (hr : t.ring = s.ring) (hp : t.params = s.params) (i : Nat) :
    ringByte t i = ringByte s i := by
  unfold ringByte ringIndex
  rw [hr, hp]

theorem ringBytes_congr {s t : State} (hr : t.ring = s.ring) (hp : t.params = s.params) (i n : Nat) :
    ringBytes t i n = ringBytes s i n := by
  induction n generalizing i with
  | zero => rfl
  | succ n ih => rw [ringBytes, ringBytes, ringByte_congr hr hp, ih]

theorem scanFrom_congr {s t : State} (hr : t.ring = s.ring) (hp : t.params = s.params) (v : Byte) (i n : Nat) :
    scanFrom t v i n = scanFrom s v i n := by
  induction n generalizing i with
  | zero => rfl
  | succ n ih => simp only [scanFrom, ringByte_congr hr hp, ih]

theorem scan_congr {s t : State} (hr : t.ring = s.ring) (hp : t.params = s.params) (skip : Nat) (v : Byte) :
    scan t skip v = scan s skip v := by
  simp only [scan, scanFrom_congr hr hp, hr]

/-- `ringBytes` is the bytes that `ringByte` gives, in order. -/
theorem ringBytes_eq_ok {s : State} {i n : Nat} {bs : List Byte} :
    ringBytes s i n = .ok bs ↔ bs.length = n ∧ ∀ j (h : j < bs.length), ringByte s (i + j) = .ok bs[j] := by
  induction n generalizing i bs with
  | zero =>
    simp only [ringBytes, Except.ok.injEq, List.length_eq_zero_iff]
    constructor
    · rintro rfl; simp
    · rintro ⟨rfl, -⟩; rfl
  | succ n ih =>
    rw [ringBytes]
    cases hb : ringByte s i with
    | error f =>
      simp only [bind, Except.bind, reduceCtorEq, false_iff, not_and]
      intro hl h
      have := h 0 (by omega)
      rw [Nat.add_zero, hb] at this
      cases this
    | ok b =>
      cases hbs : ringBytes s (i + 1) n with
      | error f =>
        simp only [bind, Except.bind, reduceCtorEq, false_iff, not_and]
        intro hl h
        cases bs with
        | nil => simp at hl
        | cons b' bs =>
          have : ringBytes s (i + 1) n = .ok bs := ih.mpr ⟨by simpa using hl, fun j hj => by
            have := h (j + 1) (by simpa using hj)
            simpa [Nat.add_assoc, Nat.add_comm 1 j] using this⟩
          rw [hbs] at this
          cases this
      | ok bs' =>
        simp only [bind, Except.bind, Except.ok.injEq]
        obtain ⟨hl, h⟩ := ih.mp hbs
        constructor
        · rintro rfl
          refine ⟨by simp [hl], fun j hj => ?_⟩
          cases j with
          | zero => simpa using hb
          | succ j =>
            have := h j (by simpa using hj)
            simpa [Nat.add_assoc, Nat.add_comm 1 j] using this
        · rintro ⟨hl', h'⟩
          cases bs with
          | nil => simp at hl'
          | cons b' bs =>
            have h0 := h' 0 (by simp)
            rw [Nat.add_zero, hb] at h0
            have h1 : ringBytes s (i + 1) n = .ok bs := ih.mpr ⟨by simpa using hl', fun j hj => by
              have := h' (j + 1) (by simpa using hj)
              simpa [Nat.add_assoc, Nat.add_comm 1 j] using this⟩
            rw [hbs] at h1
            simp_all

theorem ringBytes_length {s : State} {i n : Nat} {bs : List Byte} (h : ringBytes s i n = .ok bs) : bs.length = n :=
  (ringBytes_eq_ok.mp h).1

/-- In a ring that meets its invariant, every unconsumed byte can be read. -/
theorem ringByte_ok {s : State} (h : s.ring.Inv s.params) {i : Nat} (hi : i < s.ring.cnt) : ∃ b, ringByte s i = .ok b := by
  obtain ⟨b, hb⟩ := Option.isSome_iff_exists.mp (h.2.2.2 i hi)
  exact ⟨b, ringByte_eq_ok.mpr hb⟩

theorem ringBytes_ok {s : State} (h : s.ring.Inv s.params) {i n : Nat} (hi : i + n ≤ s.ring.cnt) :
    ∃ bs, ringBytes s i n = .ok bs := by
  induction n generalizing i with
  | zero => exact ⟨[], rfl⟩
  | succ n ih =>
    obtain ⟨b, hb⟩ := ringByte_ok h (i := i) (by omega)
    obtain ⟨bs, hbs⟩ := ih (i := i + 1) (by omega)
    exact ⟨b :: bs, by rw [ringBytes, hb, hbs]; rfl⟩

/-! ## `ADVANCE` -/

/-- After `ADVANCE(k)`, the byte at `i` is the one that was at `k + i`. -/
theorem ringByte_advance (s : State) (k i : Nat) : ringByte (s.advance k) i = ringByte s (k + i) := by
  have : ringIndex (s.advance k) i = ringIndex s (k + i) := by
    simp only [ringIndex, State.advance_ring, State.advance_params, Nat.mod_add_mod, Nat.add_assoc]
  unfold ringByte
  rw [this]
  rfl

theorem ringBytes_advance (s : State) (k i n : Nat) : ringBytes (s.advance k) i n = ringBytes s (k + i) n := by
  induction n generalizing i with
  | zero => rfl
  | succ n ih => rw [ringBytes, ringBytes, ringByte_advance, ih, Nat.add_assoc]

theorem ringInv_advance {s : State} (h : s.ring.Inv s.params) {k : Nat} (hk : k ≤ s.ring.cnt) :
    (s.advance k).ring.Inv s.params := by
  obtain ⟨h1, h2, h3, h4⟩ := h
  refine ⟨h1, Nat.mod_lt _ (ringCap_pos _), by simp; omega, fun i hi => ?_⟩
  simp only [State.advance_ring] at hi ⊢
  have := h4 (k + i) (by omega)
  rw [Nat.mod_add_mod]
  rwa [← Nat.add_assoc] at this

/-! ## Storing bytes behind the newest -/

theorem ringStore_fits {cap : Nat} (hcap : 0 < cap) {m : Memory} (h : m.fits cap) (start : Nat) (bs : List Byte) :
    (ringStore cap m start bs).fits cap := by
  induction bs generalizing m start with
  | nil => exact h
  | cons b bs ih => exact ih (Memory.fits_write h (Nat.mod_lt _ hcap)) _

/-- An index no byte is stored at keeps what it held. -/
theorem read_ringStore_outside {cap : Nat} {m : Memory} {start x : Nat} {bs : List Byte}
    (h : ∀ j < bs.length, (start + j) % cap ≠ x) : (ringStore cap m start bs).read x = m.read x := by
  induction bs generalizing m start with
  | nil => rfl
  | cons b bs ih =>
    rw [ringStore, ih (fun j hj => by
      have := h (j + 1) (by simpa using hj)
      rwa [← Nat.add_assoc, Nat.add_right_comm] at this), Memory.read_write, if_neg]
    have := h 0 (by simp)
    exact fun he => this (by simpa using he.symm)

/-- Two positions less than the capacity apart have different indices. -/
theorem mod_ne_of_lt {cap x y : Nat} (h1 : x < y) (h2 : y < x + cap) : x % cap ≠ y % cap := by
  intro h
  have hd : (y - x) % cap = 0 := by
    have := (Nat.modEq_iff_dvd' (Nat.le_of_lt h1)).mp h
    exact Nat.mod_eq_zero_of_dvd this
  rw [Nat.mod_eq_of_lt (by omega)] at hd
  omega

/-- The index of the `j`-th stored byte holds it. -/
theorem read_ringStore {cap : Nat} {m : Memory} {start : Nat} {bs : List Byte} (hl : bs.length ≤ cap) {j : Nat}
    (hj : j < bs.length) : (ringStore cap m start bs).read ((start + j) % cap) = some bs[j] := by
  induction bs generalizing m start j with
  | nil => simp at hj
  | cons b bs ih =>
    rw [ringStore]
    simp only [List.length_cons] at hl hj
    cases j with
    | zero =>
      rw [read_ringStore_outside (fun j' hj' => ?_), Memory.read_write]
      · simp
      · exact (mod_ne_of_lt (x := start + 0) (by omega) (by omega)).symm
    | succ j =>
      have := ih (m := m.write (start % cap) b) (start := start + 1) (by omega) (j := j) (by omega)
      rw [Nat.add_assoc, Nat.add_comm 1 j] at this
      simpa using this

/-- After `bs` joins the ring, the old bytes are where they were and the new ones follow them. -/
theorem ringByte_append {s : State} {bs : List Byte}
    (hfit : s.ring.cnt + bs.length ≤ ringCap s.params) :
    (∀ i < s.ring.cnt, ringByte (s.ringAppend bs) i = ringByte s i)
      ∧ ∀ j (hj : j < bs.length), ringByte (s.ringAppend bs) (s.ring.cnt + j) = .ok bs[j] := by
  have hidx : ∀ i, ringIndex (s.ringAppend bs) i = ringIndex s i := fun i => rfl
  refine ⟨fun i hi => ?_, fun j hj => ?_⟩
  · have hread : (s.ringAppend bs).ring.mem.read (ringIndex s i) = s.ring.mem.read (ringIndex s i) := by
      refine read_ringStore_outside fun j hj => ?_
      exact (mod_ne_of_lt (by omega) (by omega)).symm
    unfold ringByte
    rw [hidx, hread]
  · rw [ringByte_eq_ok, hidx, ringIndex, ← Nat.add_assoc]
    exact read_ringStore (by omega) hj

theorem ringInv_append {s : State} (h : s.ring.Inv s.params) {bs : List Byte}
    (hfit : s.ring.cnt + bs.length ≤ ringCap s.params) : (s.ringAppend bs).ring.Inv s.params := by
  obtain ⟨ho, hn⟩ := ringByte_append hfit
  refine ⟨ringStore_fits (ringCap_pos _) h.1 _ _, h.2.1, hfit, fun i hi => ?_⟩
  simp only [State.ringAppend_ring] at hi
  have key : ∃ b, ringByte (s.ringAppend bs) i = .ok b := by
    by_cases hc : i < s.ring.cnt
    · rw [ho i hc]; exact ringByte_ok h hc
    · have := hn (i - s.ring.cnt) (by omega)
      rw [Nat.add_sub_cancel' (by omega)] at this
      exact ⟨_, this⟩
  obtain ⟨b, hb⟩ := key
  exact Option.isSome_iff_exists.mpr ⟨b, ringByte_eq_ok.mp hb⟩

theorem ringInv_clear {p : Params} {r : Ring} (h : r.Inv p) : ({ r with rd := 0, cnt := 0 } : Ring).Inv p :=
  ⟨h.1, ringCap_pos p, Nat.zero_le _, by simp⟩

/-! ## The search (40 R110) -/

/-- What a search answers: the first position that holds `v`, or none if no position does. -/
theorem scanFrom_eq_ok {s : State} {v : Byte} {i n : Nat} {o : Option Nat} (h : scanFrom s v i n = .ok o) :
    (∃ j, o = some j ∧ i ≤ j ∧ j < i + n ∧ ringByte s j = .ok v
        ∧ ∀ j', i ≤ j' → j' < j → ∃ b, ringByte s j' = .ok b ∧ b ≠ v)
      ∨ (o = none ∧ ∀ j', i ≤ j' → j' < i + n → ∃ b, ringByte s j' = .ok b ∧ b ≠ v) := by
  induction n generalizing i with
  | zero =>
    simp only [scanFrom, Except.ok.injEq] at h
    exact .inr ⟨h.symm, fun j' h1 h2 => by omega⟩
  | succ n ih =>
    rw [scanFrom] at h
    cases hb : ringByte s i with
    | error f => rw [hb] at h; cases h
    | ok b =>
      rw [hb] at h
      simp only [bind, Except.bind] at h
      split at h
      · rename_i hv
        injection h with h
        exact .inl ⟨i, h.symm, Nat.le_refl _, by omega, by rw [hb, hv], fun j' h1 h2 => by omega⟩
      · rename_i hv
        have first : ∀ j', i ≤ j' → j' < i + 1 → ∃ b, ringByte s j' = .ok b ∧ b ≠ v := fun j' h1 h2 => by
          have : j' = i := by omega
          exact ⟨b, by rw [this, hb], hv⟩
        rcases ih h with ⟨j, h1, h2, h3, h4, h5⟩ | ⟨h1, h2⟩
        · refine .inl ⟨j, h1, by omega, by omega, h4, fun j' ha hb' => ?_⟩
          by_cases hj : j' < i + 1
          · exact first j' ha hj
          · exact h5 j' (by omega) hb'
        · refine .inr ⟨h1, fun j' ha hb' => ?_⟩
          by_cases hj : j' < i + 1
          · exact first j' ha hj
          · exact h2 j' (by omega) (by omega)

theorem scanFrom_ok {s : State} (h : s.ring.Inv s.params) (v : Byte) {i n : Nat} (hi : i + n ≤ s.ring.cnt ∨ n = 0) :
    ∃ o, scanFrom s v i n = .ok o := by
  induction n generalizing i with
  | zero => exact ⟨none, rfl⟩
  | succ n ih =>
    obtain ⟨b, hb⟩ := ringByte_ok h (i := i) (by omega)
    obtain ⟨o, ho⟩ := ih (i := i + 1) (by omega)
    rw [scanFrom, hb]
    simp only [bind, Except.bind]
    split
    · exact ⟨_, rfl⟩
    · exact ⟨o, ho⟩

/-- `SCAN` answers in every state that meets the ring's invariant. -/
theorem scan_ok {s : State} (h : s.ring.Inv s.params) (skip : Nat) (v : Byte) : ∃ r, scan s skip v = .ok r := by
  obtain ⟨o, ho⟩ := scanFrom_ok h v (i := skip) (n := s.ring.cnt - skip) (by omega)
  rw [scan, ho]
  cases o <;> exact ⟨_, rfl⟩

/-- Everything `SCAN` can answer: `v` found, with the bytes through it consumed, or not found, with all consumed. -/
theorem scan_cases {s : State} {skip : Nat} {v : Byte} {r : Bool × Nat} (h : scan s skip v = .ok r) :
    (∃ j, r = (true, j + 1) ∧ skip ≤ j ∧ j < s.ring.cnt ∧ ringByte s j = .ok v
        ∧ ∀ j', skip ≤ j' → j' < j → ∃ b, ringByte s j' = .ok b ∧ b ≠ v)
      ∨ (r = (false, s.ring.cnt) ∧ ∀ j', skip ≤ j' → j' < s.ring.cnt → ∃ b, ringByte s j' = .ok b ∧ b ≠ v) := by
  rw [scan] at h
  cases ho : scanFrom s v skip (s.ring.cnt - skip) with
  | error f => rw [ho] at h; cases h
  | ok o =>
    rw [ho] at h
    rcases scanFrom_eq_ok ho with ⟨j, rfl, h1, h2, h3, h4⟩ | ⟨rfl, h1⟩
    · refine .inl ⟨j, ?_, h1, by omega, h3, h4⟩
      simpa [bind, Except.bind] using h.symm
    · refine .inr ⟨?_, fun j' ha hb => h1 j' ha (by omega)⟩
      simpa [bind, Except.bind] using h.symm

theorem scan_le {s : State} {skip : Nat} {v : Byte} {r : Bool × Nat} (h : scan s skip v = .ok r) :
    r.2 ≤ s.ring.cnt := by
  rcases scan_cases h with ⟨j, rfl, _, h2, _⟩ | ⟨rfl, _⟩
  · exact h2
  · exact Nat.le_refl _

end Sys2Proof.Machine
end

