-- ==== Sys2Proof/Laws/Commands.lean ====
section
/-! SUPPORT. The laws of the shared parts of commands: the commit, what CRCORE depends on, everything TRYPARSE,
the resynchronisation and the delivery of FC.RECV can answer, and FC.SEND's frames. -/

namespace Sys2Proof.Machine

@[simp] theorem commit_ok (t : State) : commit (.ok t) = .next t := rfl
@[simp] theorem commit_error (f : Fault) : commit (.error f) = .fault f := rfl

theorem commit_eq_next {r : Except Fault State} {t : State} : commit r = .next t ↔ r = .ok t := by
  cases r <;> simp

theorem commit_eq_fault {r : Except Fault State} {f : Fault} : commit r = .fault f ↔ r = .error f := by
  cases r <;> simp

/-- No command is refused. -/
theorem commit_ne_refused (r : Except Fault State) (x : Refusal) : commit r ≠ .refused x := by
  cases r <;> simp

@[simp] theorem State.raise_eq (st : Status) (s : State) : s.raise st = .ok (s.withStatus st) := rfl

/-- A step of a computation that answers is a step that answered and a rest that answers. -/
theorem bind_eq_ok {α β : Type} {x : Except Fault α} {f : α → Except Fault β} {b : β} :
    (x >>= f) = .ok b ↔ ∃ a, x = .ok a ∧ f a = .ok b := by
  cases x <;> simp [bind, Except.bind]

theorem bind_eq_error {α β : Type} {x : Except Fault α} {f : α → Except Fault β} {e : Fault} :
    (x >>= f) = .error e ↔ x = .error e ∨ ∃ a, x = .ok a ∧ f a = .error e := by
  cases x <;> simp [bind, Except.bind]

@[simp] theorem ok_bind {α β : Type} (a : α) (f : α → Except Fault β) : (Except.ok a >>= f) = f a := rfl
@[simp] theorem error_bind {α β : Type} (e : Fault) (f : α → Except Fault β) : (Except.error e >>= f) = .error e := rfl

/-! ## CRCORE reads CR_MAX_TOTAL, DST_SIZE, the slots and DST only (43 R151) -/

theorem crAccept_congr {s t : State} (hz : t.params.dstSize = s.params.dstSize) (hs : t.slots = s.slots)
    (hd : t.dst = s.dst) (k : Nat) (sl : Slot) (rem off tot : Nat) (data : List Byte) (d : Nat) :
    crAccept t k sl rem off tot data d = crAccept s k sl rem off tot data d := by
  simp only [crAccept, inDst, hz, hs, hd]

theorem crCore_congr {s t : State} (hm : t.params.crMaxTotal = s.params.crMaxTotal)
    (hz : t.params.dstSize = s.params.dstSize) (hs : t.slots = s.slots) (hd : t.dst = s.dst) (conn : Half) (pid : Word)
    (off tot : Nat) (data : List Byte) (d : Nat) :
    crCore t conn pid off tot data d = crCore s conn pid off tot data d := by
  simp only [crCore, crAccept_congr hz hs hd, hm, hs, hd]

/-- The statuses CRCORE reports (43 R151, 60 R181). -/
theorem crCore_status {s : State} {conn : Half} {pid : Word} {off tot : Nat} {data : List Byte} {d : Nat} {st : Status}
    {x : Nat} {slots : List Slot} {dst : Memory} (h : crCore s conn pid off tot data d = .ok (.done st x slots dst)) :
    st = .chunkViolation ∨ st = .allocFail ∨ st = .assembled ∨ st = .chunkAccepted := by
  have key : ∀ {k : Nat} {sl : Slot} {rem : Nat}, crAccept s k sl rem off tot data d = .ok (.done st x slots dst) →
      st = .assembled ∨ st = .chunkAccepted := by
    intro k sl rem h
    rcases crAccept_cases h with ⟨-, -, h⟩ | ⟨-, -, bs, -, h⟩ | ⟨-, h⟩
    · cases h
    · injection h with h; exact .inl h
    · injection h with h; exact .inr h
  rcases crCore_cases h with ⟨k, -, -, h⟩ | ⟨k, -, -, h⟩ | ⟨-, -, h⟩ | ⟨-, -, -, h⟩ | ⟨k, -, -, -, -, h⟩
  · injection h with h; exact .inl h
  · exact .inr (.inr (key h))
  · injection h with h; exact .inl h
  · injection h with h; exact .inr (.inl h)
  · exact .inr (.inr (key h))

/-! ## TRYPARSE (42 R133) -/

theorem tryParse_congr {s t : State} (hr : t.ring = s.ring) (hp : t.params = s.params) (hh : t.hdr = s.hdr) :
    tryParse t = tryParse s := by
  simp only [tryParse, ringBytes_congr hr hp, ringByte_congr hr hp, hr, hp, hh]

/-- The header and the length tests of a frame that TRYPARSE finds, up to its last byte (42 R133). -/
structure HeaderOk (s : State) (h : HdrRegs) : Prop where
  cksum : h.cksum = h.computed
  least : minDataLen ≤ h.len.toNat
  most  : hdrSize + h.len.toNat ≤ ringCap s.params

/-- Everything TRYPARSE can answer, check by check in R133's order. -/
theorem tryParse_cases {s : State} {t : Parse} {h : HdrRegs} (hr : tryParse s = .ok (t, h)) :
    (s.ring.cnt < hdrSize ∧ t = .needMore ∧ h = s.hdr)
      ∨ (hdrSize ≤ s.ring.cnt ∧ ∃ bs, ringBytes s 0 hdrSize = .ok bs ∧ h = parseHdr bs
        ∧ ((¬ HeaderOk s h ∧ t = .hdrCorrupt)
          ∨ (HeaderOk s h ∧ s.ring.cnt < hdrSize + h.len.toNat ∧ t = .needMore)
          ∨ (HeaderOk s h ∧ hdrSize + h.len.toNat ≤ s.ring.cnt
            ∧ ∃ b, ringByte s (hdrSize + h.len.toNat - 1) = .ok b
              ∧ ((b ≠ 0#8 ∧ t = .hdrCorrupt) ∨ (b = 0#8 ∧ t = .frame))))) := by
  unfold tryParse at hr
  split at hr
  · rename_i hc
    simp only [Except.ok.injEq, Prod.mk.injEq] at hr
    exact .inl ⟨hc, hr.1.symm, hr.2.symm⟩
  · rename_i hc
    obtain ⟨bs, hbs, hr⟩ := bind_eq_ok.mp hr
    refine .inr ⟨by omega, bs, hbs, ?_⟩
    dsimp only at hr
    split at hr
    · rename_i h1
      simp only [Except.ok.injEq, Prod.mk.injEq] at hr
      obtain ⟨rfl, rfl⟩ := hr
      exact ⟨rfl, .inl ⟨fun ho => h1 ho.cksum, rfl⟩⟩
    · rename_i h1
      split at hr
      · rename_i h2
        simp only [Except.ok.injEq, Prod.mk.injEq] at hr
        obtain ⟨rfl, rfl⟩ := hr
        refine ⟨rfl, .inl ⟨fun ho => ?_, rfl⟩⟩
        have := ho.least
        have := ho.most
        omega
      · rename_i h2
        have ho : HeaderOk s (parseHdr bs) := ⟨by simpa using h1, by omega, by omega⟩
        split at hr
        · rename_i h3
          simp only [Except.ok.injEq, Prod.mk.injEq] at hr
          obtain ⟨rfl, rfl⟩ := hr
          exact ⟨rfl, .inr (.inl ⟨ho, h3, rfl⟩)⟩
        · rename_i h3
          obtain ⟨b, hb, hr⟩ := bind_eq_ok.mp hr
          simp only [Except.ok.injEq] at hr
          split at hr
          · rename_i h4
            simp only [Prod.mk.injEq] at hr
            obtain ⟨rfl, rfl⟩ := hr
            exact ⟨rfl, .inr (.inr ⟨ho, by omega, b, hb, .inl ⟨h4, rfl⟩⟩)⟩
          · rename_i h4
            simp only [Prod.mk.injEq] at hr
            obtain ⟨rfl, rfl⟩ := hr
            exact ⟨rfl, .inr (.inr ⟨ho, by omega, b, hb, .inr ⟨by simpa using h4, rfl⟩⟩)⟩

/-- TRYPARSE answers in every state that meets the ring's invariant. -/
theorem tryParse_ok {s : State} (h : s.ring.Inv s.params) : ∃ r, tryParse s = .ok r := by
  unfold tryParse
  split
  · exact ⟨_, rfl⟩
  · rename_i hc
    obtain ⟨bs, hbs⟩ := ringBytes_ok h (i := 0) (n := hdrSize) (by omega)
    rw [hbs]
    simp only [ok_bind]
    split
    · exact ⟨_, rfl⟩
    · split
      · exact ⟨_, rfl⟩
      · split
        · exact ⟨_, rfl⟩
        · rename_i h3
          obtain ⟨b, hb⟩ := ringByte_ok h (i := hdrSize + (parseHdr bs).len.toNat - 1) (by
            simp only [hdrSize] at *; omega)
          rw [hb]
          exact ⟨_, rfl⟩

/-- TRYPARSE's answer when the front of the ring holds a whole frame with a good header. -/
theorem tryParse_frame {s : State} {bs : List Byte} (hc : hdrSize ≤ s.ring.cnt) (hbs : ringBytes s 0 hdrSize = .ok bs)
    (ho : HeaderOk s (parseHdr bs)) (hl : hdrSize + (parseHdr bs).len.toNat ≤ s.ring.cnt)
    (hz : ringByte s (hdrSize + (parseHdr bs).len.toNat - 1) = .ok 0#8) :
    tryParse s = .ok (.frame, parseHdr bs) := by
  have h1 := ho.least
  have h2 := ho.most
  unfold tryParse
  rw [if_neg (by omega), hbs]
  simp only [ok_bind]
  rw [if_neg (by simp [ho.cksum]), if_neg (by omega), if_neg (by omega), hz]
  rfl

/-! ## FC.RECV's ends (42 R135) -/

/-- What a resynchronisation does: the bytes `SCAN` names are consumed, and the failure is reported. -/
theorem recvFail_eq_ok {code : Status} {s t : State} :
    recvFail code s = .ok t ↔
      ∃ found k, scan s 0 0#8 = .ok (found, k) ∧ t = (((s.advance k).withRes0 k).withRes1 0).withStatus code := by
  unfold recvFail
  rw [bind_eq_ok]
  constructor
  · rintro ⟨⟨found, k⟩, h1, h2⟩
    injection h2 with h2
    exact ⟨found, k, h1, h2.symm⟩
  · rintro ⟨found, k, h1, rfl⟩
    exact ⟨(found, k), h1, rfl⟩

theorem recvFail_ok {code : Status} {s : State} (h : s.ring.Inv s.params) : ∃ t, recvFail code s = .ok t := by
  obtain ⟨⟨found, k⟩, hr⟩ := scan_ok h 0 0#8
  exact ⟨_, recvFail_eq_ok.mpr ⟨found, k, hr, rfl⟩⟩

/-! The fields of the state after FC.RECV takes a valid frame. -/

section
variable (s : State) (m : MetaFields) (plen : Nat) (u : Unstuffed) (v : Nat) (st : Status)
@[simp] theorem recvDone_params : (recvDone s m plen u v st).params = s.params := rfl
@[simp] theorem recvDone_cmd : (recvDone s m plen u v st).cmd = s.cmd := rfl
@[simp] theorem recvDone_status : (recvDone s m plen u v st).status = st := rfl
@[simp] theorem recvDone_connId : (recvDone s m plen u v st).connId = s.connId := rfl
@[simp] theorem recvDone_pktCtr : (recvDone s m plen u v st).pktCtr = s.pktCtr := rfl
@[simp] theorem recvDone_args : (recvDone s m plen u v st).args = s.args := rfl
@[simp] theorem recvDone_hdr : (recvDone s m plen u v st).hdr = s.hdr := rfl
@[simp] theorem recvDone_tx : (recvDone s m plen u v st).tx = s.tx := rfl
@[simp] theorem recvDone_src : (recvDone s m plen u v st).src = s.src := rfl
@[simp] theorem recvDone_dst : (recvDone s m plen u v st).dst = s.dst := rfl
@[simp] theorem recvDone_slots : (recvDone s m plen u v st).slots = s.slots := rfl
@[simp] theorem recvDone_crEvicts : (recvDone s m plen u v st).crEvicts = s.crEvicts := rfl
@[simp] theorem recvDone_inputs : (recvDone s m plen u v st).inputs = s.inputs := rfl
@[simp] theorem recvDone_readData : (recvDone s m plen u v st).readData = s.readData := rfl
@[simp] theorem recvDone_freeCtr : (recvDone s m plen u v st).freeCtr = s.freeCtr := rfl
@[simp] theorem recvDone_ring : (recvDone s m plen u v st).ring = (s.advance (hdrSize + s.hdr.len.toNat)).ring := rfl
@[simp] theorem recvDone_res : (recvDone s m plen u v st).res =
    { s.res with r0 := BitVec.ofNat 32 (hdrSize + s.hdr.len.toNat), r1 := BitVec.ofNat 32 v } := rfl
@[simp] theorem recvDone_rx : (recvDone s m plen u v st).rx =
    { flags := s.hdr.flags, id := s.hdr.id, reqid := m.reqid, pktid := m.pktid, offset := m.offset, total := m.total,
      ulen := m.ulen, len := BitVec.ofNat 32 plen, pcsCalc := BitVec.ofNat 16 u.computed,
      pcsRcvd := BitVec.ofNat 16 u.carried } := rfl
end

/-- What the delivery of a valid frame can do (42 R135, R137): deliver an unchunked payload, hand a chunk to the
reassembler, or raise OUT_OF_RANGE from the state the command started in. -/
theorem recvDeliver_cases {s0 s t : State} {u : Unstuffed} (h : recvDeliver s0 s u = .ok t) :
    (flagChk s.hdr.flags = false ∧ inDst s (opArg0 s0) (parseMeta s.hdr.flags u.content).2.length
        ∧ t = recvDone (s.withDst (s.dst.writeBytes (opArg0 s0) (parseMeta s.hdr.flags u.content).2))
            (parseMeta s.hdr.flags u.content).1 (parseMeta s.hdr.flags u.content).2.length u
            (parseMeta s.hdr.flags u.content).2.length .ok)
      ∨ (flagChk s.hdr.flags = false ∧ ¬ inDst s (opArg0 s0) (parseMeta s.hdr.flags u.content).2.length
        ∧ t = s0.withStatus .outOfRange)
      ∨ (flagChk s.hdr.flags = true ∧ ∃ r, crCore s s.connId (parseMeta s.hdr.flags u.content).1.pktid
            (parseMeta s.hdr.flags u.content).1.offset.toNat (parseMeta s.hdr.flags u.content).1.total.toNat
            (parseMeta s.hdr.flags u.content).2 (opArg0 s0) = .ok r
        ∧ ((r = .outOfRange ∧ t = s0.withStatus .outOfRange)
          ∨ ∃ st x slots dst, r = .done st x slots dst
            ∧ t = recvDone ((s.withSlots slots).withDst dst) (parseMeta s.hdr.flags u.content).1
                (parseMeta s.hdr.flags u.content).2.length u
                (if st = .assembled then (parseMeta s.hdr.flags u.content).1.total.toNat else 0) st)) := by
  unfold recvDeliver at h
  dsimp only at h
  split at h
  · rename_i hchk
    refine .inr (.inr ⟨hchk, ?_⟩)
    obtain ⟨r, hr, h⟩ := bind_eq_ok.mp h
    refine ⟨r, hr, ?_⟩
    cases r with
    | outOfRange =>
      simp only [State.raise_eq, Except.ok.injEq] at h
      exact .inl ⟨rfl, h.symm⟩
    | done st x slots dst =>
      simp only [Except.ok.injEq] at h
      exact .inr ⟨st, x, slots, dst, rfl, h.symm⟩
  · rename_i hchk
    have hchk : flagChk s.hdr.flags = false := by simpa using hchk
    split at h
    · rename_i hd
      simp only [State.raise_eq, Except.ok.injEq] at h
      exact .inr (.inl ⟨hchk, hd, h.symm⟩)
    · rename_i hd
      simp only [Except.ok.injEq] at h
      exact .inl ⟨hchk, by simpa using hd, h.symm⟩

theorem recvDeliver_ok {s0 s : State} (hp : s.params.wellFormed = true) (h : SlotsInv s.params s.slots) (u : Unstuffed) :
    ∃ t, recvDeliver s0 s u = .ok t := by
  unfold recvDeliver
  dsimp only
  split
  · obtain ⟨r, hr⟩ := crCore_ok hp h s.connId (parseMeta s.hdr.flags u.content).1.pktid
      (parseMeta s.hdr.flags u.content).1.offset.toNat (parseMeta s.hdr.flags u.content).1.total.toNat
      (parseMeta s.hdr.flags u.content).2 (opArg0 s0)
    rw [hr]
    cases r <;> exact ⟨_, rfl⟩
  · split <;> exact ⟨_, rfl⟩

/-- What FC.RECV does with a whole frame (42 R135): refuse the region, refuse the checksum, or deliver. -/
theorem recvFrame_cases {s0 s t : State} (h : recvFrame s0 s = .ok t) :
    ∃ region, ringBytes s hdrSize (s.hdr.len.toNat - 1) = .ok region
      ∧ (((uncobs region = none ∨ ∃ r, uncobs region = some r ∧ r.length < 2 + metaLen s.hdr.flags)
            ∧ recvFail .plMalformed s = .ok t)
        ∨ ∃ r, uncobs region = some r ∧ 2 + metaLen s.hdr.flags ≤ r.length
          ∧ (((splitChecksum r).computed ≠ (splitChecksum r).carried
              ∧ recvFail .plChecksum (s.withRx { s.rx with
                  pcsCalc := BitVec.ofNat 16 (splitChecksum r).computed
                  pcsRcvd := BitVec.ofNat 16 (splitChecksum r).carried }) = .ok t)
            ∨ ((splitChecksum r).computed = (splitChecksum r).carried
              ∧ recvDeliver s0 s (splitChecksum r) = .ok t))) := by
  unfold recvFrame at h
  obtain ⟨region, hreg, h⟩ := bind_eq_ok.mp h
  refine ⟨region, hreg, ?_⟩
  split at h
  · rename_i hu
    exact .inl ⟨.inl hu, h⟩
  · rename_i r hu
    split at h
    · rename_i hl
      exact .inl ⟨.inr ⟨r, hu, hl⟩, h⟩
    · rename_i hl
      refine .inr ⟨r, hu, by omega, ?_⟩
      dsimp only at h
      split at h
      · rename_i hc
        exact .inl ⟨hc, h⟩
      · rename_i hc
        exact .inr ⟨by simpa using hc, h⟩

theorem recvFrame_ok {s0 s : State} (hp : s.params.wellFormed = true) (hring : s.ring.Inv s.params)
    (h : SlotsInv s.params s.slots) (hl : hdrSize + s.hdr.len.toNat ≤ s.ring.cnt) : ∃ t, recvFrame s0 s = .ok t := by
  obtain ⟨region, hreg⟩ := ringBytes_ok hring (i := hdrSize) (n := s.hdr.len.toNat - 1) (by omega)
  unfold recvFrame
  rw [hreg]
  simp only [ok_bind]
  split
  · exact recvFail_ok hring
  · split
    · exact recvFail_ok hring
    · split
      · exact recvFail_ok hring
      · exact recvDeliver_ok hp h _

/-- FC.RECV, by what TRYPARSE finds (42 R135). -/
theorem execFcRecv_cases {s t : State} (h : execFcRecv s = .next t) :
    ∃ p hd, tryParse s = .ok (p, hd)
      ∧ ((p = .needMore ∧ t = (((s.withHdr hd).withRes0 0).withRes1 0).withStatus .needMore)
        ∨ (p = .hdrCorrupt ∧ recvFail .hdrCorrupt (s.withHdr hd) = .ok t)
        ∨ (p = .frame ∧ recvFrame s (s.withHdr hd) = .ok t)) := by
  unfold execFcRecv at h
  rw [commit_eq_next] at h
  obtain ⟨⟨p, hd⟩, htp, h⟩ := bind_eq_ok.mp h
  refine ⟨p, hd, htp, ?_⟩
  cases p with
  | needMore =>
    simp only [Except.ok.injEq] at h
    exact .inl ⟨rfl, h.symm⟩
  | hdrCorrupt => exact .inr (.inl ⟨rfl, h⟩)
  | frame => exact .inr (.inr ⟨rfl, h⟩)

/-- A frame that TRYPARSE finds is held whole, and its header passed every test. -/
theorem tryParse_frame_inv {s : State} {h : HdrRegs} (hr : tryParse s = .ok (.frame, h)) :
    HeaderOk s h ∧ hdrSize + h.len.toNat ≤ s.ring.cnt ∧ ringByte s (hdrSize + h.len.toNat - 1) = .ok 0#8
      ∧ ∃ bs, ringBytes s 0 hdrSize = .ok bs ∧ h = parseHdr bs := by
  rcases tryParse_cases hr with ⟨-, h1, -⟩ | ⟨-, bs, hbs, hh, ⟨-, h1⟩ | ⟨-, -, h1⟩ | ⟨ho, hl, b, hb, ⟨-, h1⟩ | ⟨hz, -⟩⟩⟩
  · cases h1
  · cases h1
  · cases h1
  · cases h1
  · subst hz
    exact ⟨ho, hl, hb, bs, hbs, hh⟩

/-- FC.RECV answers in every state that meets the invariants. -/
theorem execFcRecv_ok {s : State} (h : s.Inv) : ∃ t, execFcRecv s = .next t := by
  obtain ⟨⟨p, hd⟩, htp⟩ := tryParse_ok h.ring
  unfold execFcRecv
  rw [htp]
  simp only [ok_bind]
  cases p with
  | needMore => exact ⟨_, rfl⟩
  | hdrCorrupt =>
    obtain ⟨t, ht⟩ := recvFail_ok (code := .hdrCorrupt) (s := s.withHdr hd) h.ring
    exact ⟨t, by rw [commit_eq_next]; exact ht⟩
  | frame =>
    obtain ⟨-, hl, -, -⟩ := tryParse_frame_inv htp
    obtain ⟨t, ht⟩ := recvFrame_ok (s0 := s) (s := s.withHdr hd) h.params h.ring h.slots hl
    exact ⟨t, by rw [commit_eq_next]; exact ht⟩

/-! ## Frames that always fit (30 R83) -/

/-- A frame of a payload of at most `MAXPL_LIMIT` bytes is never too long, whatever its metadata. -/
theorem buildFrame_isSome (flags : Byte) (id : Half) (m : MetaFields) {p : List Byte} (hp : p.length ≤ maxplLimit) :
    ∃ f, buildFrame flags id m p = some f := by
  have h1 := (stuff_length (metaBytes flags m ++ p)).2
  have h2 := metaLen_le flags
  rw [List.length_append, metaBytes_length] at h1
  exact ⟨_, if_neg (by simp only [maxplLimit, maxDataLen] at *; omega)⟩

theorem chunkPieces_length_le {M : Nat} {p : List Byte} {c : Nat × List Byte} (h : c ∈ chunkPieces M p) :
    c.2.length ≤ M := by
  obtain ⟨j, -, rfl⟩ := List.mem_map.mp h
  exact List.length_take_le _ _

theorem joinFrames_isSome {l : List (Option BuiltFrame)} (h : ∀ f ∈ l, ∃ g, f = some g) : ∃ out, joinFrames l = some out := by
  induction l with
  | nil => exact ⟨[], rfl⟩
  | cons f l ih =>
    obtain ⟨g, rfl⟩ := h f (by simp)
    obtain ⟨out, hout⟩ := ih fun f hf => h f (List.mem_cons_of_mem _ hf)
    exact ⟨g.bytes ++ out, by simp [joinFrames, hout]⟩

/-- FC.SEND's frames are never too long when TX_MAXPL is at most `MAXPL_LIMIT` (42 R132). -/
theorem sendFrames_join {s : State} (h : s.tx.maxpl.toNat ≤ maxplLimit) (p : List Byte) :
    ∃ out, joinFrames (sendFrames s p) = some out := by
  refine joinFrames_isSome fun f hf => ?_
  unfold sendFrames at hf
  dsimp only at hf
  split at hf
  · rw [List.mem_singleton.mp hf]
    exact buildFrame_isSome _ _ _ (by omega)
  · obtain ⟨c, hc, rfl⟩ := List.mem_map.mp hf
    have := chunkPieces_length_le hc
    exact buildFrame_isSome _ _ _ (by omega)

/-! ## The same, from the checks to the outcome -/

theorem execFcRecv_of_needMore {s : State} {hd : HdrRegs} (h : tryParse s = .ok (.needMore, hd)) :
    execFcRecv s = .next ((((s.withHdr hd).withRes0 0).withRes1 0).withStatus .needMore) := by
  simp only [execFcRecv, h, ok_bind, commit_ok]

theorem execFcRecv_of_hdrCorrupt {s t : State} {hd : HdrRegs} (h : tryParse s = .ok (.hdrCorrupt, hd))
    (hf : recvFail .hdrCorrupt (s.withHdr hd) = .ok t) : execFcRecv s = .next t := by
  simp only [execFcRecv, h, ok_bind, hf, commit_ok]

theorem execFcRecv_of_frame {s t : State} {hd : HdrRegs} (h : tryParse s = .ok (.frame, hd))
    (hf : recvFrame s (s.withHdr hd) = .ok t) : execFcRecv s = .next t := by
  simp only [execFcRecv, h, ok_bind, hf, commit_ok]

theorem recvFrame_of_malformed {s0 s t : State} {region : List Byte}
    (hr : ringBytes s hdrSize (s.hdr.len.toNat - 1) = .ok region)
    (hu : uncobs region = none ∨ ∃ r, uncobs region = some r ∧ r.length < 2 + metaLen s.hdr.flags)
    (hf : recvFail .plMalformed s = .ok t) : recvFrame s0 s = .ok t := by
  rcases hu with hu | ⟨r, hu, hl⟩
  · simp only [recvFrame, hr, ok_bind, hu, hf]
  · simp only [recvFrame, hr, ok_bind, hu, if_pos hl, hf]

theorem recvFrame_of_checksum {s0 s t : State} {region r : List Byte}
    (hr : ringBytes s hdrSize (s.hdr.len.toNat - 1) = .ok region) (hu : uncobs region = some r)
    (hl : 2 + metaLen s.hdr.flags ≤ r.length) (hc : (splitChecksum r).computed ≠ (splitChecksum r).carried)
    (hf : recvFail .plChecksum (s.withRx { s.rx with
      pcsCalc := BitVec.ofNat 16 (splitChecksum r).computed
      pcsRcvd := BitVec.ofNat 16 (splitChecksum r).carried }) = .ok t) : recvFrame s0 s = .ok t := by
  simp only [recvFrame, hr, ok_bind, hu, if_neg (Nat.not_lt.mpr hl), if_pos hc, hf]

theorem recvFrame_of_valid {s0 s t : State} {region r : List Byte}
    (hr : ringBytes s hdrSize (s.hdr.len.toNat - 1) = .ok region) (hu : uncobs region = some r)
    (hl : 2 + metaLen s.hdr.flags ≤ r.length) (hc : (splitChecksum r).computed = (splitChecksum r).carried)
    (hf : recvDeliver s0 s (splitChecksum r) = .ok t) : recvFrame s0 s = .ok t := by
  simp only [recvFrame, hr, ok_bind, hu, if_neg (Nat.not_lt.mpr hl), hc, ne_eq, not_true_eq_false, if_false, hf]

/-- `UNSTUFF` that gives a content, in terms of `UNCOBS` (00 R18). -/
theorem unstuff_eq_some {region : List Byte} {u : Unstuffed} :
    unstuff region = some u ↔ ∃ r, uncobs region = some r ∧ 2 ≤ r.length ∧ u = splitChecksum r := by
  unfold unstuff
  cases uncobs region with
  | none => simp
  | some r =>
    simp only [Option.some.injEq, exists_eq_left']
    split
    · simp; omega
    · simp only [Option.some.injEq]
      exact ⟨fun h => ⟨by omega, h.symm⟩, fun h => h.2.symm⟩

/-- `UNSTUFF` that gives `BAD`, in terms of `UNCOBS` (00 R18). -/
theorem unstuff_eq_none {region : List Byte} :
    unstuff region = none ↔ uncobs region = none ∨ ∃ r, uncobs region = some r ∧ r.length < 2 := by
  unfold unstuff
  cases uncobs region with
  | none => simp
  | some r => simp

@[simp] theorem splitChecksum_content_length (r : List Byte) : (splitChecksum r).content.length = r.length - 2 := by
  simp [splitChecksum]

end Sys2Proof.Machine
end

