-- ==== Sys2Proof/Laws/Exec.lean ====
section
/-! SUPPORT. For each command, when it answers the next state `t`, check by check in its rule's order: everything it can
do, and each thing it does. FC.RECV's is `execFcRecv_cases` in Laws/Commands.lean. -/

namespace Sys2Proof.Machine

variable {s t : State}

theorem execNop_eq (s : State) : execNop s = .next (s.withStatus .ok) := rfl

theorem execRbWrite_eq_next : execRbWrite s = .next t ↔
    (¬ inSrc s (opArg0 s) (opArg1 s) ∧ t = s.withStatus .outOfRange)
      ∨ (inSrc s (opArg0 s) (opArg1 s) ∧ ∃ bs,
          s.src.readBytes (opArg0 s) (min (opArg1 s) (ringCap s.params - s.ring.cnt)) = some bs
          ∧ t = ((s.ringAppend bs).withRes0 (min (opArg1 s) (ringCap s.params - s.ring.cnt))).withStatus .ok) := by
  refine ⟨fun h => ?_, ?_⟩
  · unfold execRbWrite at h
    dsimp only at h
    rw [commit_eq_next] at h
    split at h
    · rename_i hc
      injection h with h
      exact .inl ⟨hc, h.symm⟩
    · rename_i hc
      obtain ⟨bs, hbs, h⟩ := bind_eq_ok.mp h
      injection h with h
      exact .inr ⟨not_not.mp hc, bs, State.srcBytes_eq_ok.mp hbs, h.symm⟩
  · rintro (⟨hc, rfl⟩ | ⟨hc, bs, hb, rfl⟩)
    · simp only [execRbWrite, if_pos hc, State.raise_eq, commit_ok]
    · simp only [execRbWrite, if_neg (not_not.mpr hc), State.srcBytes_eq_ok.mpr hb, ok_bind, commit_ok]

theorem execRbRead_eq_next : execRbRead s = .next t ↔
    (¬ inDst s (opArg0 s) (opArg1 s) ∧ t = s.withStatus .outOfRange)
      ∨ (inDst s (opArg0 s) (opArg1 s) ∧ s.ring.cnt < opArg2 s + opArg1 s ∧ t = (s.withRes0 0).withStatus .needMore)
      ∨ (inDst s (opArg0 s) (opArg1 s) ∧ opArg2 s + opArg1 s ≤ s.ring.cnt ∧ ∃ bs,
          ringBytes s (opArg2 s) (opArg1 s) = .ok bs
          ∧ t = (((s.withDst (s.dst.writeBytes (opArg0 s) bs)).advance (opArg2 s + opArg1 s)).withRes0
              (opArg1 s)).withStatus .ok) := by
  refine ⟨fun h => ?_, ?_⟩
  · unfold execRbRead at h
    dsimp only at h
    rw [commit_eq_next] at h
    split at h
    · rename_i hc
      injection h with h
      exact .inl ⟨hc, h.symm⟩
    · rename_i hc
      split at h
      · rename_i hl
        injection h with h
        exact .inr (.inl ⟨not_not.mp hc, hl, h.symm⟩)
      · rename_i hl
        obtain ⟨bs, hbs, h⟩ := bind_eq_ok.mp h
        injection h with h
        exact .inr (.inr ⟨not_not.mp hc, Nat.le_of_not_lt hl, bs, hbs, h.symm⟩)
  · rintro (⟨hc, rfl⟩ | ⟨hc, hl, rfl⟩ | ⟨hc, hl, bs, hb, rfl⟩)
    · simp only [execRbRead, if_pos hc, State.raise_eq, commit_ok]
    · simp only [execRbRead, if_neg (not_not.mpr hc), if_pos hl, commit_ok]
    · simp only [execRbRead, if_neg (not_not.mpr hc), if_neg (Nat.not_lt.mpr hl), hb, ok_bind, commit_ok]

theorem execRbPeek_eq_next : execRbPeek s = .next t ↔
    (¬ inDst s (opArg0 s) (opArg1 s) ∧ t = s.withStatus .outOfRange)
      ∨ (inDst s (opArg0 s) (opArg1 s) ∧ s.ring.cnt < opArg2 s + opArg1 s ∧ t = (s.withRes0 0).withStatus .needMore)
      ∨ (inDst s (opArg0 s) (opArg1 s) ∧ opArg2 s + opArg1 s ≤ s.ring.cnt ∧ ∃ bs,
          ringBytes s (opArg2 s) (opArg1 s) = .ok bs
          ∧ t = ((s.withDst (s.dst.writeBytes (opArg0 s) bs)).withRes0 (opArg1 s)).withStatus .ok) := by
  refine ⟨fun h => ?_, ?_⟩
  · unfold execRbPeek at h
    dsimp only at h
    rw [commit_eq_next] at h
    split at h
    · rename_i hc
      injection h with h
      exact .inl ⟨hc, h.symm⟩
    · rename_i hc
      split at h
      · rename_i hl
        injection h with h
        exact .inr (.inl ⟨not_not.mp hc, hl, h.symm⟩)
      · rename_i hl
        obtain ⟨bs, hbs, h⟩ := bind_eq_ok.mp h
        injection h with h
        exact .inr (.inr ⟨not_not.mp hc, Nat.le_of_not_lt hl, bs, hbs, h.symm⟩)
  · rintro (⟨hc, rfl⟩ | ⟨hc, hl, rfl⟩ | ⟨hc, hl, bs, hb, rfl⟩)
    · simp only [execRbPeek, if_pos hc, State.raise_eq, commit_ok]
    · simp only [execRbPeek, if_neg (not_not.mpr hc), if_pos hl, commit_ok]
    · simp only [execRbPeek, if_neg (not_not.mpr hc), if_neg (Nat.not_lt.mpr hl), hb, ok_bind, commit_ok]

theorem execRbPeekb_eq_next : execRbPeekb s = .next t ↔
    (s.ring.cnt ≤ opArg0 s ∧ t = (s.withRes0 0).withStatus .needMore)
      ∨ (opArg0 s < s.ring.cnt ∧ ∃ b, ringByte s (opArg0 s) = .ok b ∧ t = (s.withRes0 b.toNat).withStatus .ok) := by
  refine ⟨fun h => ?_, ?_⟩
  · unfold execRbPeekb at h
    dsimp only at h
    rw [commit_eq_next] at h
    split at h
    · rename_i hc
      injection h with h
      exact .inl ⟨hc, h.symm⟩
    · rename_i hc
      obtain ⟨b, hb, h⟩ := bind_eq_ok.mp h
      injection h with h
      exact .inr ⟨Nat.lt_of_not_le hc, b, hb, h.symm⟩
  · rintro (⟨hc, rfl⟩ | ⟨hc, b, hb, rfl⟩)
    · simp only [execRbPeekb, if_pos (show opArg0 s ≥ s.ring.cnt from hc), commit_ok]
    · simp only [execRbPeekb, if_neg (show ¬ opArg0 s ≥ s.ring.cnt from Nat.not_le.mpr hc), hb, ok_bind, commit_ok]

theorem execRbPeekhdr_eq_next : execRbPeekhdr s = .next t ↔
    (s.ring.cnt < opArg0 s + hdrSize ∧ t = s.withStatus .needMore)
      ∨ (opArg0 s + hdrSize ≤ s.ring.cnt ∧ ∃ bs, ringBytes s (opArg0 s) hdrSize = .ok bs
          ∧ t = (s.withHdr (parseHdr bs)).withStatus .ok) := by
  refine ⟨fun h => ?_, ?_⟩
  · unfold execRbPeekhdr at h
    dsimp only at h
    rw [commit_eq_next] at h
    split at h
    · rename_i hc
      injection h with h
      exact .inl ⟨hc, h.symm⟩
    · rename_i hc
      obtain ⟨bs, hbs, h⟩ := bind_eq_ok.mp h
      injection h with h
      exact .inr ⟨Nat.le_of_not_lt hc, bs, hbs, h.symm⟩
  · rintro (⟨hc, rfl⟩ | ⟨hc, bs, hb, rfl⟩)
    · simp only [execRbPeekhdr, if_pos hc, commit_ok]
    · simp only [execRbPeekhdr, if_neg (Nat.not_lt.mpr hc), hb, ok_bind, commit_ok]

theorem execRbSkipuntil_eq_next {v : Byte} : execRbSkipuntil v s = .next t ↔
    ∃ found k, scan s (opArg0 s) v = .ok (found, k)
      ∧ t = (((s.advance k).withRes0 k).withRes1 (if found then 1 else 0)).withStatus
          (if found then .ok else .notFound) := by
  refine ⟨fun h => ?_, ?_⟩
  · unfold execRbSkipuntil at h
    dsimp only at h
    rw [commit_eq_next] at h
    obtain ⟨⟨found, k⟩, hs, h⟩ := bind_eq_ok.mp h
    injection h with h
    exact ⟨found, k, hs, h.symm⟩
  · rintro ⟨found, k, hs, rfl⟩
    simp only [execRbSkipuntil, hs, ok_bind, commit_ok]

theorem execRbClear_eq (s : State) :
    execRbClear s = .next ((s.withRing { s.ring with rd := 0, cnt := 0 }).withStatus .ok) := rfl

theorem execPcEncode_eq_next : execPcEncode s = .next t ↔
    (¬ inSrc s (opArg0 s) (opArg1 s) ∧ t = s.withStatus .outOfRange)
      ∨ (inSrc s (opArg0 s) (opArg1 s) ∧ ∃ c, s.src.readBytes (opArg0 s) (opArg1 s) = some c
          ∧ ((¬ inDst s (opArg2 s) (stuff c).length ∧ t = s.withStatus .outOfRange)
            ∨ (inDst s (opArg2 s) (stuff c).length
              ∧ t = (((s.withDst (s.dst.writeBytes (opArg2 s) (stuff c))).withRes0 (stuff c).length).withRes1
                  (f16 c)).withStatus .ok))) := by
  refine ⟨fun h => ?_, ?_⟩
  · unfold execPcEncode at h
    dsimp only at h
    rw [commit_eq_next] at h
    split at h
    · rename_i hc
      injection h with h
      exact .inl ⟨hc, h.symm⟩
    · rename_i hc
      obtain ⟨c, hb, h⟩ := bind_eq_ok.mp h
      refine .inr ⟨not_not.mp hc, c, State.srcBytes_eq_ok.mp hb, ?_⟩
      split at h
      · rename_i hd
        injection h with h
        exact .inl ⟨hd, h.symm⟩
      · rename_i hd
        injection h with h
        exact .inr ⟨not_not.mp hd, h.symm⟩
  · rintro (⟨hc, rfl⟩ | ⟨hc, c, hb, ⟨hd, rfl⟩ | ⟨hd, rfl⟩⟩)
    · simp only [execPcEncode, if_pos hc, State.raise_eq, commit_ok]
    · simp only [execPcEncode, if_neg (not_not.mpr hc), State.srcBytes_eq_ok.mpr hb, ok_bind, if_pos hd, State.raise_eq,
        commit_ok]
    · simp only [execPcEncode, if_neg (not_not.mpr hc), State.srcBytes_eq_ok.mpr hb, ok_bind, if_neg (not_not.mpr hd),
        commit_ok]

theorem execPcDecode_eq_next : execPcDecode s = .next t ↔
    ((¬ inSrc s (opArg0 s) (opArg1 s) ∨ ¬ inDst s (opArg2 s) (opArg1 s)) ∧ t = s.withStatus .outOfRange)
      ∨ (inSrc s (opArg0 s) (opArg1 s) ∧ inDst s (opArg2 s) (opArg1 s) ∧ ∃ region,
          s.src.readBytes (opArg0 s) (opArg1 s) = some region
          ∧ ((unstuff region = none
              ∧ t = (((s.withDst (s.dst.writeBytes (opArg2 s) (freeBytes s.freeCtr (opArg1 s)))).withFreeCtr
                  (s.freeCtr + opArg1 s)).withRes0 0).withStatus .plMalformed)
            ∨ ∃ u, unstuff region = some u
              ∧ t = ((((s.withDst (s.dst.writeBytes (opArg2 s) u.content)).withRes0 u.content.length).withRes1
                  u.computed).withRes2 u.carried).withStatus (if u.computed = u.carried then .ok else .plChecksum))) := by
  refine ⟨fun h => ?_, ?_⟩
  · unfold execPcDecode at h
    dsimp only at h
    rw [commit_eq_next] at h
    split at h
    · rename_i hc
      injection h with h
      exact .inl ⟨hc, h.symm⟩
    · rename_i hc
      rw [not_or, not_not, not_not] at hc
      obtain ⟨region, hb, h⟩ := bind_eq_ok.mp h
      refine .inr ⟨hc.1, hc.2, region, State.srcBytes_eq_ok.mp hb, ?_⟩
      split at h
      · rename_i hu
        injection h with h
        exact .inl ⟨hu, h.symm⟩
      · rename_i u hu
        injection h with h
        exact .inr ⟨u, hu, h.symm⟩
  · rintro (⟨hc, rfl⟩ | ⟨hc, hd, region, hb, ⟨hu, rfl⟩ | ⟨u, hu, rfl⟩⟩)
    · simp only [execPcDecode, if_pos hc, State.raise_eq, commit_ok]
    · simp only [execPcDecode, if_neg (not_or.mpr ⟨not_not.mpr hc, not_not.mpr hd⟩), State.srcBytes_eq_ok.mpr hb, ok_bind,
        hu, commit_ok]
    · simp only [execPcDecode, if_neg (not_or.mpr ⟨not_not.mpr hc, not_not.mpr hd⟩), State.srcBytes_eq_ok.mpr hb, ok_bind,
        hu, commit_ok]

theorem execPcHcs_eq (s : State) :
    execPcHcs s = .next ((s.withRes0 (hcs (opHcsFlags s) (opHcsId s) (opHcsLen s))).withStatus .ok) := rfl

theorem execFcBuild_eq_next : execFcBuild s = .next t ↔
    (¬ inSrc s (opArg0 s) (opArg1 s) ∧ t = s.withStatus .outOfRange)
      ∨ (inSrc s (opArg0 s) (opArg1 s) ∧ ∃ p, s.src.readBytes (opArg0 s) (opArg1 s) = some p
          ∧ ((buildFrame s.tx.flags s.tx.id (txMeta s) p = none ∧ t = s.withStatus .tooLong)
            ∨ ∃ f, buildFrame s.tx.flags s.tx.id (txMeta s) p = some f
              ∧ ((¬ inDst s (opArg2 s) f.bytes.length ∧ t = s.withStatus .outOfRange)
                ∨ (inDst s (opArg2 s) f.bytes.length
                  ∧ t = ((((s.withDst (s.dst.writeBytes (opArg2 s) f.bytes)).withRes0 f.bytes.length).withRes1
                      f.pcs).withRes2 f.hcs).withStatus .ok)))) := by
  refine ⟨fun h => ?_, ?_⟩
  · unfold execFcBuild at h
    dsimp only at h
    rw [commit_eq_next] at h
    split at h
    · rename_i hc
      injection h with h
      exact .inl ⟨hc, h.symm⟩
    · rename_i hc
      obtain ⟨p, hb, h⟩ := bind_eq_ok.mp h
      refine .inr ⟨not_not.mp hc, p, State.srcBytes_eq_ok.mp hb, ?_⟩
      split at h
      · rename_i hf
        injection h with h
        exact .inl ⟨hf, h.symm⟩
      · rename_i f hf
        refine .inr ⟨f, hf, ?_⟩
        split at h
        · rename_i hd
          injection h with h
          exact .inl ⟨hd, h.symm⟩
        · rename_i hd
          injection h with h
          exact .inr ⟨not_not.mp hd, h.symm⟩
  · rintro (⟨hc, rfl⟩ | ⟨hc, p, hb, ⟨hf, rfl⟩ | ⟨f, hf, ⟨hd, rfl⟩ | ⟨hd, rfl⟩⟩⟩)
    · simp only [execFcBuild, if_pos hc, State.raise_eq, commit_ok]
    · simp only [execFcBuild, if_neg (not_not.mpr hc), State.srcBytes_eq_ok.mpr hb, ok_bind, hf, State.raise_eq, commit_ok]
    · simp only [execFcBuild, if_neg (not_not.mpr hc), State.srcBytes_eq_ok.mpr hb, ok_bind, hf, if_pos hd, State.raise_eq,
        commit_ok]
    · simp only [execFcBuild, if_neg (not_not.mpr hc), State.srcBytes_eq_ok.mpr hb, ok_bind, hf, if_neg (not_not.mpr hd),
        commit_ok]

/-- The packetID that FC.SEND reports: 0 for one unchunked frame (42 R132). -/
abbrev sentPid (s : State) : Word := if opArg1 s ≤ s.tx.maxpl.toNat then 0 else nextPid s

theorem execFcSend_eq_next : execFcSend s = .next t ↔
    ((flagChk s.tx.flags = true ∨ s.tx.maxpl.toNat < 1 ∨ s.tx.maxpl.toNat > maxplLimit) ∧ t = s.withStatus .illegalArg)
      ∨ (¬ (flagChk s.tx.flags = true ∨ s.tx.maxpl.toNat < 1 ∨ s.tx.maxpl.toNat > maxplLimit)
        ∧ ((¬ inSrc s (opArg0 s) (opArg1 s) ∧ t = s.withStatus .outOfRange)
          ∨ (inSrc s (opArg0 s) (opArg1 s) ∧ ∃ p, s.src.readBytes (opArg0 s) (opArg1 s) = some p
            ∧ ∃ out, joinFrames (sendFrames s p) = some out
              ∧ ((¬ inDst s (opArg2 s) out.length ∧ t = s.withStatus .outOfRange)
                ∨ (inDst s (opArg2 s) out.length
                  ∧ t = (((((s.withDst (s.dst.writeBytes (opArg2 s) out)).withPktCtr
                      (if opArg1 s ≤ s.tx.maxpl.toNat then s.pktCtr else sentPid s)).withRes0 out.length).withRes1
                      (sendFrames s p).length).withRes2 (sentPid s).toNat).withStatus .ok))))) := by
  refine ⟨fun h => ?_, ?_⟩
  · unfold execFcSend at h
    dsimp only at h
    rw [commit_eq_next] at h
    split at h
    · rename_i hc
      injection h with h
      exact .inl ⟨hc, h.symm⟩
    · rename_i hc
      refine .inr ⟨hc, ?_⟩
      split at h
      · rename_i hi
        injection h with h
        exact .inl ⟨hi, h.symm⟩
      · rename_i hi
        obtain ⟨p, hb, h⟩ := bind_eq_ok.mp h
        refine .inr ⟨not_not.mp hi, p, State.srcBytes_eq_ok.mp hb, ?_⟩
        obtain ⟨out, hout⟩ := sendFrames_join (s := s) (by simp only [not_or] at hc; omega) p
        refine ⟨out, hout, ?_⟩
        rw [hout] at h
        dsimp only at h
        split at h
        · rename_i hd
          injection h with h
          exact .inl ⟨hd, h.symm⟩
        · rename_i hd
          injection h with h
          exact .inr ⟨not_not.mp hd, h.symm⟩
  · rintro (⟨ha, rfl⟩ | ⟨ha, ⟨hc, rfl⟩ | ⟨hc, p, hb, out, ho, ⟨hd, rfl⟩ | ⟨hd, rfl⟩⟩⟩)
    · simp only [execFcSend, if_pos ha, State.raise_eq, commit_ok]
    · simp only [execFcSend, if_neg ha, if_pos hc, State.raise_eq, commit_ok]
    · simp only [execFcSend, if_neg ha, if_neg (not_not.mpr hc), State.srcBytes_eq_ok.mpr hb, ok_bind, ho, if_pos hd,
        State.raise_eq, commit_ok]
    · simp only [execFcSend, if_neg ha, if_neg (not_not.mpr hc), State.srcBytes_eq_ok.mpr hb, ok_bind, ho,
        if_neg (not_not.mpr hd), commit_ok, sentPid]

theorem execFcTryparse_eq_next : execFcTryparse s = .next t ↔
    ∃ p hd, tryParse s = .ok (p, hd)
      ∧ t = ((if p = .frame then (s.withHdr hd).withRes0 (hdrSize + hd.len.toNat) else s.withHdr hd).withStatus
          p.status) := by
  refine ⟨fun h => ?_, ?_⟩
  · unfold execFcTryparse at h
    rw [commit_eq_next] at h
    obtain ⟨⟨p, hd⟩, htp, h⟩ := bind_eq_ok.mp h
    injection h with h
    exact ⟨p, hd, htp, h.symm⟩
  · rintro ⟨p, hd, hp, rfl⟩
    simp only [execFcTryparse, hp, ok_bind, commit_ok]

theorem execCrRecv_eq_next : execCrRecv s = .next t ↔
    (¬ inSrc s (opArg0 s) (opArg1 s) ∧ t = s.withStatus .outOfRange)
      ∨ (inSrc s (opArg0 s) (opArg1 s) ∧ ∃ data, s.src.readBytes (opArg0 s) (opArg1 s) = some data
          ∧ ∃ r, crCore s (opRecvConn s) (opPid s) (opOffset s) (opTotal s) data (opArg2 s) = .ok r
            ∧ ((r = .outOfRange ∧ t = s.withStatus .outOfRange)
              ∨ ∃ st x slots dst, r = .done st x slots dst
                ∧ t = (((s.withSlots slots).withDst dst).withRes0 x).withStatus st)) := by
  refine ⟨fun h => ?_, ?_⟩
  · unfold execCrRecv at h
    dsimp only at h
    rw [commit_eq_next] at h
    split at h
    · rename_i hc
      injection h with h
      exact .inl ⟨hc, h.symm⟩
    · rename_i hc
      obtain ⟨data, hb, h⟩ := bind_eq_ok.mp h
      obtain ⟨r, hr, h⟩ := bind_eq_ok.mp h
      refine .inr ⟨not_not.mp hc, data, State.srcBytes_eq_ok.mp hb, r, hr, ?_⟩
      split at h
      · injection h with h
        exact .inl ⟨rfl, h.symm⟩
      · rename_i st x slots dst
        injection h with h
        exact .inr ⟨st, x, slots, dst, rfl, h.symm⟩
  · rintro (⟨hc, rfl⟩ | ⟨hc, data, hb, r, hr, ⟨rfl, rfl⟩ | ⟨st, x, slots, dst, rfl, rfl⟩⟩)
    · simp only [execCrRecv, if_pos hc, State.raise_eq, commit_ok]
    · simp only [execCrRecv, if_neg (not_not.mpr hc), State.srcBytes_eq_ok.mpr hb, ok_bind, hr, State.raise_eq, commit_ok]
    · simp only [execCrRecv, if_neg (not_not.mpr hc), State.srcBytes_eq_ok.mpr hb, ok_bind, hr, commit_ok]

theorem execCrTick_eq (s : State) :
    execCrTick s = .next ((s.tickSlots.withRes0 (tickEvicts s)).withStatus .ok) := rfl

theorem execCrEvictconn_eq (s : State) :
    execCrEvictconn s = .next (((s.withSlots (s.slots.map (fun sl =>
      if sl.ofConn (opEvictConn s) then sl.release else sl))).withRes0
      (s.slots.countP (Slot.ofConn (opEvictConn s)))).withStatus .ok) := rfl

end Sys2Proof.Machine
end

