-- ==== Sys2Proof/Laws/PerInstr.lean ====
section
/-! SUPPORT. The per-instruction family `EncodeFields`: the three fields of each command's word (30_encoding.md R65). -/

namespace Sys2Proof.Laws.EncodeFields

/-- OP, IMM8 and the reserved bits of the instruction's word are its opcode, its immediate and 0, and only
RB.SKIPUNTIL's immediate can differ from 0 (R65, R67). -/
def Statement (i : Instr) : Prop :=
  opField (encode i) = i.opcode ∧ immField (encode i) = i.imm ∧ reservedField (encode i) = 0#16
    ∧ (i.opcode = 0x06#8 ∨ i.imm = 0#8)

theorem nop : Statement .nop := ⟨rfl, rfl, rfl, .inr rfl⟩
theorem rbWrite : Statement .rbWrite := ⟨rfl, rfl, rfl, .inr rfl⟩
theorem rbRead : Statement .rbRead := ⟨rfl, rfl, rfl, .inr rfl⟩
theorem rbPeek : Statement .rbPeek := ⟨rfl, rfl, rfl, .inr rfl⟩
theorem rbPeekb : Statement .rbPeekb := ⟨rfl, rfl, rfl, .inr rfl⟩
theorem rbPeekhdr : Statement .rbPeekhdr := ⟨rfl, rfl, rfl, .inr rfl⟩
theorem rbSkipuntil (v : Byte) : Statement (.rbSkipuntil v) := by
  unfold Statement
  revert v
  decide
theorem rbClear : Statement .rbClear := ⟨rfl, rfl, rfl, .inr rfl⟩
theorem pcEncode : Statement .pcEncode := ⟨rfl, rfl, rfl, .inr rfl⟩
theorem pcDecode : Statement .pcDecode := ⟨rfl, rfl, rfl, .inr rfl⟩
theorem pcHcs : Statement .pcHcs := ⟨rfl, rfl, rfl, .inr rfl⟩
theorem fcBuild : Statement .fcBuild := ⟨rfl, rfl, rfl, .inr rfl⟩
theorem fcSend : Statement .fcSend := ⟨rfl, rfl, rfl, .inr rfl⟩
theorem fcTryparse : Statement .fcTryparse := ⟨rfl, rfl, rfl, .inr rfl⟩
theorem fcRecv : Statement .fcRecv := ⟨rfl, rfl, rfl, .inr rfl⟩
theorem crRecv : Statement .crRecv := ⟨rfl, rfl, rfl, .inr rfl⟩
theorem crTick : Statement .crTick := ⟨rfl, rfl, rfl, .inr rfl⟩
theorem crEvictconn : Statement .crEvictconn := ⟨rfl, rfl, rfl, .inr rfl⟩

end Sys2Proof.Laws.EncodeFields
end

