-- ==== Sys2Proof/Tests/Slice0.lean ====
section
/-! SUPPORT. The model's own tests. The expected results are those of 95_test_vectors.md (named by its row) or of the
rule's own example; decode tests are words written out from the fields of 30_encoding.md R65. The last part shows, for
every statement with hypotheses, concrete states that meet them. -/

open Sys2Proof Sys2Proof.Machine Sys2Proof.Claims

namespace Sys2Proof.Tests

/-! ## Small states -/

/-- 95 "Conventions" with the ring capacity and the SRC and DST sizes chosen. -/
def sized (cap src dst : Nat) : Params := { Config.params with rbCapReq := cap, srcSize := src, dstSize := dst }

/-- Eight argument values, the missing ones 0. -/
def argsOf (l : List Word) : Args :=
  ⟨l.getD 0 0, l.getD 1 0, l.getD 2 0, l.getD 3 0, l.getD 4 0, l.getD 5 0, l.getD 6 0, l.getD 7 0⟩

/-- An FCU after reset whose host has loaded `src` at SRC address `a` and set the ARG registers. -/
def loaded (p : Params) (a : Nat) (src : List Byte) (args : List Word) : State :=
  { State.resetWith p with src := cellsFrom a src, args := argsOf args }

/-- An FCU whose ring holds `bytes`, with the oldest at index `rd`, and whose ARG registers are set. -/
def ringWith (p : Params) (rd : Nat) (bytes : List Byte) (args : List Word) : State :=
  { State.resetWith p with
    ring := { mem := ringStore (ringCap p) [] rd bytes, rd := rd, cnt := bytes.length }
    args := argsOf args }

/-- A slot that holds the bytes `bytes` at offset `off` of a reassembly of `total` bytes. -/
def slotWith (conn : Half) (pid total : Word) (off : Nat) (bytes : List Byte) (idle : Word) : Slot :=
  { valid := true, conn := conn, pid := pid, total := total, rem := total - BitVec.ofNat 32 bytes.length
    fill := List.range' off bytes.length, data := cellsFrom off bytes, idle := idle }

/-- `s` with the slots `slots`. -/
def withSlots (s : State) (slots : List Slot) : State := { s with slots := slots }

/-- What the outcome of one step satisfies, if it is a next state. -/
def after (o : Host.Outcome State Fault Refusal) (p : State → Bool) : Bool :=
  match o with
  | .next t => p t
  | .fault _ => false
  | .refused _ => false

/-- The bytes held by the ring, as the ring's readers see them. -/
def ringIs (s : State) (bytes : List Byte) : Bool :=
  decide (s.ring.cnt = bytes.length) && decide (ringBytes s 0 s.ring.cnt = .ok bytes)

/-- The status and the first two results. -/
def ends (s : State) (st : Status) (r0 r1 : Word) : Bool :=
  decide (s.status = st) && decide (s.res.r0 = r0) && decide (s.res.r1 = r1)

/-- `"ping"` and `"ABCDEFGHIJ"`. -/
def pingText : List Byte := [0x70, 0x69, 0x6E, 0x67]
def letters : List Byte := [0x41, 0x42, 0x43, 0x44, 0x45, 0x46, 0x47, 0x48, 0x49, 0x4A]
/-- The 15-byte ping frame (30 R90). -/
def pingFrame : List Byte := [0x00, 0x07, 0x00, 0x08, 0x00, 0x0F, 0x2C, 0x07, 0x70, 0x69, 0x6E, 0x67, 0xAF, 0x42, 0x00]
/-- The first chunk frame of R132's example. -/
def chunkFrame : List Byte := [0x06, 0x09, 0x00, 0x16, 0x00, 0x25, 0x6E, 0x02, 0x05, 0x02, 0x01, 0x01, 0x01, 0x01, 0x01, 0x01,
  0x01, 0x02, 0x0A, 0x01, 0x01, 0x07, 0x41, 0x42, 0x43, 0x44, 0x1B, 0x51, 0x00]

/-! ## WellFormed: one ill-formed term for each check (R7, R68, R71) -/

theorem test_params_reset_wf : Config.params.wellFormed = true := by decide
theorem test_params_ring_empty : (sized 0 16 16).wellFormed = false := by decide
theorem test_params_ring_too_large : (sized (2 ^ 30 + 1) 16 16).wellFormed = false := by decide
theorem test_params_src_empty : (sized 8 0 16).wellFormed = false := by decide
theorem test_params_src_too_large : (sized 8 (2 ^ 32) 16).wellFormed = false := by decide
theorem test_params_dst_empty : (sized 8 16 0).wellFormed = false := by decide
theorem test_params_dst_too_large : (sized 8 16 (2 ^ 32)).wellFormed = false := by decide
theorem test_params_no_slot : Params.wellFormed { Config.params with crSlots := 0 } = false := by decide
theorem test_params_slots_too_many : Params.wellFormed { Config.params with crSlots := 65536 } = false := by decide
theorem test_params_total_empty : Params.wellFormed { Config.params with crMaxTotal := 0 } = false := by decide
theorem test_params_total_too_large : Params.wellFormed { Config.params with crMaxTotal := 2 ^ 32 } = false := by decide
theorem test_params_no_idle : Params.wellFormed { Config.params with crIdleTicks := 0 } = false := by decide
theorem test_params_idle_too_large : Params.wellFormed { Config.params with crIdleTicks := 2 ^ 32 } = false := by decide
theorem test_illegal_params_give_no_machine : State.elaborate (sized 0 16 16) = none := by decide
theorem test_word_unassigned : legalWord 0x00000008 = false := by decide
theorem test_word_reserved_bits : legalWord 0x00010006 = false := by decide
theorem test_word_immediate : legalWord 0x00000100 = false := by decide
theorem test_line_set_read_only : AsmLine.wellFormed (.set .status 0) = false := by decide
theorem test_line_too_many_args : AsmLine.wellFormed (.args (List.replicate 9 0)) = false := by decide

/-! ## Decoding: words written field by field, reserved ++ IMM8 ++ OP (R65, R69) -/

theorem test_decode_nop : decode (0x0000#16 ++ 0x00#8 ++ 0x00#8) = .ok .nop := by decide
theorem test_decode_rbPeekhdr : decode (0x0000#16 ++ 0x00#8 ++ 0b00000101#8) = .ok .rbPeekhdr := by decide
theorem test_decode_rbSkipuntil : decode (0x0000#16 ++ 0b10011001#8 ++ 0b00000110#8) = .ok (.rbSkipuntil 0x99) := by decide
theorem test_decode_pcDecode : decode (0x0000#16 ++ 0x00#8 ++ 0b00010001#8) = .ok .pcDecode := by decide
theorem test_decode_fcTryparse : decode (0x0000#16 ++ 0x00#8 ++ 0b00100010#8) = .ok .fcTryparse := by decide
theorem test_decode_crTick : decode (0x0000#16 ++ 0x00#8 ++ 0b00110001#8) = .ok .crTick := by decide
theorem test_decode_0F : decode 0x0000000F = .error .unassignedOpcode := by decide
theorem test_decode_1F : decode 0x0000001F = .error .unassignedOpcode := by decide
theorem test_decode_24 : decode 0x00000024 = .error .unassignedOpcode := by decide
theorem test_decode_FF : decode 0x000000FF = .error .unassignedOpcode := by decide
theorem test_decode_reserved : decode 0x00019906 = .error .reservedBits := by decide
theorem test_decode_immediate : decode 0x00000120 = .error .immediate := by decide
theorem test_table_word : decodeTableWord 32 0x23 = some .fcRecv := by decide
theorem test_table_word_too_wide : decodeTableWord 32 (2 ^ 32 + 0x23) = none := by decide
theorem test_fetch_word_runs : after (step (State.reset.withFetchWord 32 0x00000006))
    (fun t => ends t .notFound 0 0 && decide (t.cmd = 0x00000006)) = true := by decide
theorem test_fetch_word_illegal : after (step (State.reset.withFetchWord 32 0x00000133))
    (fun t => decide (t.status = .illegalCmd) && decide (t.cmd = 0x00000133)) = true := by decide

/-! ## The primitives (00 R12, R13, R19; 95 §PRIM) -/

theorem test_f16_abcde : f16 [0x61, 0x62, 0x63, 0x64, 0x65] = 0xC8F0 := by decide
theorem test_f16_ff : f16 [0xFF] = 0x0000 := by decide
theorem test_hcs : hcs 0x00 7 8 = 0x2C0F := by decide
theorem test_cobs_full_group : cobs (List.replicate 254 0x01) = 0xFF :: List.replicate 254 0x01 ++ [0x01] := by
  decide +kernel
theorem test_uncobs_noncanonical : uncobs (0xFF :: List.replicate 254 0x01) = some (List.replicate 254 0x01) := by
  decide +kernel

/-! ## One step of each command -/

theorem test_nop : after (exec .nop { State.reset with status := .illegalArg }) (fun t => decide (t = State.reset)) = true := by
  decide

/-- 60 R181 and 10 R34 through the host's port: STATUS, and CFG_CR at the last address of its word. -/
theorem test_read_status : hostCsrRead 0x004 { State.reset with status := .notFound } = 0x0000000D := by decide
theorem test_read_cfgCr : hostCsrRead 0x0D7 State.reset = 0x00010002 := by decide

/-- The SRC bytes of 40's examples. -/
def rbSrc : List Byte := [0x11, 0x22, 0x33, 0x44, 0x55, 0x66, 0x77, 0x88, 0x99, 0xAA]
/-- RB1: 6 bytes into the empty ring. -/
theorem test_rbWrite : after (exec .rbWrite (loaded (sized 5 16 16) 0 rbSrc [0, 6])) (fun t =>
    ends t .ok 6 0 && ringIs t (rbSrc.take 6) && decide (t.ring.rd = 0)) = true := by decide
/-- RB4: only 2 of 5 bytes fit, and they wrap around. -/
theorem test_rbWrite_short : after (exec .rbWrite { ringWith (sized 5 16 16) 4 (rbSrc.drop 4) [0, 5] with src := cellsFrom 0 rbSrc })
    (fun t => ends t .ok 2 0 && ringIs t [0x55, 0x66, 0x77, 0x88, 0x99, 0xAA, 0x11, 0x22] && decide (t.ring.rd = 4)) = true := by
  decide
/-- RB2 -/
theorem test_rbRead : after (exec .rbRead (ringWith (sized 5 16 16) 0 (rbSrc.take 6) [0, 4, 0])) (fun t =>
    ends t .ok 4 0 && ringIs t [0x55, 0x66] && decide (t.ring.rd = 4)
      && decide (t.dst.readBytes 0 4 = some [0x11, 0x22, 0x33, 0x44])) = true := by decide
/-- RB13: no byte is read, one is skipped. -/
theorem test_rbRead_skip_only : after (exec .rbRead (ringWith (sized 5 16 16) 6 [0x02] [0, 0, 1])) (fun t =>
    ends t .ok 0 0 && ringIs t [] && decide (t.ring.rd = 7) && decide (t.dst = [])) = true := by decide
/-- The full ring of RB5 to RB9, `rd = 4`. -/
def fullRing : List Byte := [0x55, 0x66, 0x77, 0x88, 0x99, 0xAA, 0x11, 0x22]
/-- RB5 -/
theorem test_rbPeek : after (exec .rbPeek (ringWith (sized 5 16 16) 4 fullRing [0, 3, 1])) (fun t =>
    ends t .ok 3 0 && ringIs t fullRing && decide (t.dst.readBytes 0 3 = some [0x66, 0x77, 0x88])) = true := by decide
/-- RB6, RB7 -/
theorem test_rbPeekb : after (exec .rbPeekb (ringWith (sized 5 16 16) 4 fullRing [7])) (fun t => ends t .ok 0x22 0) = true := by decide
theorem test_rbPeekb_past_end : after (exec .rbPeekb (ringWith (sized 5 16 16) 4 fullRing [8]))
    (fun t => ends t .needMore 0 0) = true := by decide
/-- PH1: the header wraps around. -/
theorem test_rbPeekhdr : after (exec .rbPeekhdr (ringWith (sized 16 16 16) 15 pingFrame [0])) (fun t =>
    decide (t.status = .ok) && decide (t.hdr = ⟨0x00, 0x0007, 0x0008, 0x2C0F, 0x2C0F⟩)) = true := by decide
/-- PH3 -/
theorem test_rbPeekhdr_short : after (exec .rbPeekhdr (ringWith (sized 16 16 16) 15 pingFrame [9])) (fun t =>
    decide (t.status = .needMore) && decide (t.hdr = ⟨0, 0, 0, 0, 0⟩)) = true := by decide
/-- RB12 -/
theorem test_rbSkipuntil : after (exec (.rbSkipuntil 0x00) (ringWith (sized 5 16 16) 4 [0x01, 0x00, 0x02] [0])) (fun t =>
    ends t .ok 2 1 && ringIs t [0x02] && decide (t.ring.rd = 6)) = true := by decide
/-- RB19: the search starts past the sentinel, and past the end. -/
theorem test_rbSkipuntil_past_end : after (exec (.rbSkipuntil 0x11) (ringWith (sized 5 16 16) 7 [0x11, 0x22, 0x33] [5])) (fun t =>
    ends t .notFound 3 0 && ringIs t [] && decide (t.ring.rd = 2)) = true := by decide
theorem test_rbClear : after (exec .rbClear (ringWith (sized 5 16 16) 4 fullRing [])) (fun t =>
    ends t .ok 0 0 && ringIs t [] && decide (t.ring.rd = 0)) = true := by decide

/-- PC5 -/
theorem test_pcEncode : after (exec .pcEncode (loaded Config.params 0 [0x11, 0x22, 0x00, 0x33] [0, 4, 0])) (fun t =>
    ends t .ok 8 0xDD66 && decide (t.dst.readBytes 0 8 = some [0x03, 0x11, 0x22, 0x04, 0x33, 0x66, 0xDD, 0x00])) = true := by decide
/-- 95 §PC, refusals: 8 bytes do not fit a DST of 7. -/
theorem test_pcEncode_no_room : after (exec .pcEncode (loaded (sized 8 16 7) 0 pingText [0, 4, 0])) (fun t =>
    ends t .outOfRange 0 0 && decide (t.dst = [])) = true := by decide
/-- PD8 -/
theorem test_pcDecode : after (exec .pcDecode (loaded Config.params 0 [0x07, 0x70, 0x69, 0x6F, 0x67, 0xAF, 0x42] [0, 7, 0])) (fun t =>
    ends t .plChecksum 4 0x44B0 && decide (t.res.r2 = 0x42AF)
      && decide (t.dst.readBytes 0 4 = some [0x70, 0x69, 0x6F, 0x67])) = true := by decide
/-- PD5 -/
theorem test_pcDecode_malformed : after (exec .pcDecode (loaded Config.params 0 [0x02, 0x00, 0x01] [0, 3, 0])) (fun t =>
    ends t .plMalformed 0 0 && decide (t.freeCtr = 3)) = true := by decide
/-- 95 §PC, PC.HCS: only ARG0[7:0] counts. -/
theorem test_pcHcs : after (exec .pcHcs (loaded Config.params 0 [] [0x106, 9, 22])) (fun t => ends t .ok 0x00006E25 0) = true := by
  decide

/-- FC1 -/
theorem test_fcBuild : after (exec .fcBuild { loaded Config.params 0 pingText [0, 4, 0] with tx := ⟨0, 7, 0, 0, 0, 0, 0, 0⟩ }) (fun t =>
    ends t .ok 15 0x42AF && decide (t.res.r2 = 0x2C0F) && decide (t.dst.readBytes 0 15 = some pingFrame)) = true := by decide
/-- R77's table with every field present and every byte different, and R89 on it. -/
theorem test_metadata_fields :
    metaBytes 0x1F ⟨0x0201, 0x06050403, 0x0A090807, 0x0E0D0C0B, 0x1211100F⟩
      = [0x01, 0x02, 0x03, 0x04, 0x05, 0x06, 0x07, 0x08, 0x09, 0x0A, 0x0B, 0x0C, 0x0D, 0x0E, 0x0F, 0x10, 0x11, 0x12]
    ∧ parseMeta 0x1F [0x01, 0x02, 0x03, 0x04, 0x05, 0x06, 0x07, 0x08, 0x09, 0x0A, 0x0B, 0x0C, 0x0D, 0x0E, 0x0F, 0x10, 0x11,
        0x12, 0x41] = (⟨0x0201, 0x06050403, 0x0A090807, 0x0E0D0C0B, 0x1211100F⟩, [0x41]) := by decide
/-- FC3 -/
theorem test_fcBuild_metadata : after (exec .fcBuild { loaded Config.params 0 [] [0, 0, 0] with tx := ⟨7, 2, 3, 0, 0, 0, 0, 0⟩ }) (fun t =>
    decide (t.res.r0 = 25) && decide (t.dst.readBytes 0 25 = some [0x07, 0x02, 0x00, 0x12, 0x00, 0x1B, 0x4F, 0x02, 0x03, 0x01, 0x01,
      0x01, 0x01, 0x01, 0x01, 0x01, 0x01, 0x01, 0x01, 0x01, 0x01, 0x03, 0x03, 0x2A, 0x00])) = true := by decide
/-- FS3: the packetID counter wraps past 0. -/
theorem test_fcSend_wraps : after (exec .fcSend { loaded Config.params 0 [0x41, 0x42] [0, 2, 0] with
      tx := ⟨0, 0, 0, 0, 0, 0, 0, 1⟩, pktCtr := 0xFFFFFFFF }) (fun t =>
    ends t .ok 48 2 && decide (t.res.r2 = 1) && decide (t.pktCtr = 1)
      && decide (t.dst.readBytes 24 24 = some [0x04, 0x00, 0x00, 0x11, 0x00, 0x15, 0x36, 0x02, 0x01, 0x01, 0x01, 0x02, 0x01, 0x01,
        0x01, 0x02, 0x02, 0x01, 0x01, 0x04, 0x42, 0x46, 0x62, 0x00])) = true := by decide
/-- R132's example. -/
theorem test_fcSend_chunks : after (exec .fcSend { loaded Config.params 0 letters [0, 10, 0] with tx := ⟨2, 9, 5, 0, 0, 0, 0, 4⟩ }) (fun t =>
    ends t .ok 85 3 && decide (t.res.r2 = 1) && decide (t.pktCtr = 1) && decide (t.dst.readBytes 0 29 = some chunkFrame)) = true := by
  decide
/-- TP1 and TP2 -/
theorem test_fcTryparse : after (exec .fcTryparse (ringWith Config.params 0 pingFrame [])) (fun t =>
    ends t .ok 15 0 && ringIs t pingFrame) = true := by decide
theorem test_fcTryparse_incomplete : after (exec .fcTryparse (ringWith Config.params 0 (pingFrame.take 14) [])) (fun t =>
    ends t .needMore 0 0 && decide (t.hdr = ⟨0x00, 0x0007, 0x0008, 0x2C0F, 0x2C0F⟩)) = true := by decide
/-- FR10: RSP and REQ, a request id, an empty payload. -/
theorem test_fcRecv : after (exec .fcRecv (ringWith Config.params 60 [0x03, 0x34, 0x12, 0x06, 0x00, 0x4F, 0x22, 0x05, 0xEF, 0xBE, 0xAE,
      0x9E, 0x00] [])) (fun t =>
    ends t .ok 13 0 && ringIs t [] && decide (t.rx.id = 0x1234) && decide (t.rx.reqid = 0xBEEF) && decide (t.rx.len = 0)) = true := by
  decide
/-- FR5: a checksum error consumes through the first 0x00, which is byte 0. -/
theorem test_fcRecv_checksum : after (exec .fcRecv (ringWith Config.params 0 (pingFrame.set 10 0x6F) [])) (fun t =>
    ends t .plChecksum 1 0 && ringIs t ((pingFrame.set 10 0x6F).drop 1) && decide (t.rx.pcsCalc = 0x44B0)
      && decide (t.rx.pcsRcvd = 0x42AF)) = true := by decide

/-- CR15: a single chunk never holds a slot. -/
theorem test_crRecv_single : after (exec .crRecv (loaded Config.params 0 letters [0, 10, 0, 3, 0, 10, 2])) (fun t =>
    ends t .assembled 10 0 && decide (slotsUsed t.slots = 0) && decide (t.dst.readBytes 0 10 = some letters)) = true := by decide
/-- CR4's second chunk overlaps the first, and the entry is discarded. -/
theorem test_crRecv_overlap : after (exec .crRecv (withSlots (loaded Config.params 0 letters [2, 4, 100, 8, 2, 10, 1])
      [slotWith 1 8 10 0 (letters.take 4) 0, Slot.reset])) (fun t =>
    ends t .chunkViolation 0 0 && decide (slotsUsed t.slots = 0)) = true := by decide
/-- CR22: the third idle tick evicts. -/
theorem test_crTick_evicts : after (exec .crTick (withSlots State.reset [slotWith 1 7 10 0 (letters.take 4) 2, Slot.reset])) (fun t =>
    ends t .ok 1 0 && decide (slotsUsed t.slots = 0) && decide (t.crEvicts = 1)) = true := by decide
/-- R160's example. -/
theorem test_crEvictconn : after (exec .crEvictconn { withSlots State.reset [slotWith 4 1 10 0 [0x41] 0, slotWith 5 1 10 0 [0x41] 0,
      slotWith 4 2 10 0 [0x41] 0] with args := argsOf [4] }) (fun t =>
    ends t .ok 2 0 && decide (slotsUsed t.slots = 1) && decide (t.crEvicts = 0)) = true := by decide

/-! ## Witnesses: for every statement with hypotheses, states and operands that meet them all together -/

/-- The next state of an outcome, or `s` if there is none. -/
def nextOr (s : State) (o : Host.Outcome State Fault Refusal) : State :=
  match o with
  | .next t => t
  | .fault _ => s
  | .refused _ => s

/-- The state after the host has lined up the actions `l`. -/
def awaiting (l : List HostAction) : State := { State.reset with inputs := l }

theorem reset_inv : State.reset.Inv := ⟨by decide, by decide, by decide, by decide, by decide⟩

theorem witness_IllegalWordsRefused : ∃ (w : Word) (s : State) (rest : List HostAction),
    (¬ ∃ i, decode w = .ok i) ∧ s.inputs = .csrWrite 0x000 w :: rest := by
  refine ⟨0x80000021, awaiting [.csrWrite 0x000 0x80000021], [], ?_, rfl⟩
  rintro ⟨i, h⟩
  rw [show decode 0x80000021 = .error .reservedBits by decide] at h
  cases h

theorem witness_StepRunsDecodedCommand : ∃ (s : State) (rest : List HostAction) (w : Word) (i : Instr),
    s.inputs = .csrWrite 0x000 w :: rest ∧ decode w = .ok i :=
  ⟨awaiting [.csrWrite 0x000 0x9906, .tick], [.tick], 0x9906, .rbSkipuntil 0x99, rfl, by decide⟩

theorem witness_StepWaitsWithoutInput : State.reset.inputs = [] := rfl

/-- A RW row, a RO row, the first address past the map, and a reserved address inside it. -/
theorem witness_CsrAccess :
    (⟨0x060, .txFlags, 8, true⟩ ∈ csrMap ∧ 3 < 4) ∧ (⟨0x0E4, .cfgDst, 32, false⟩ ∈ csrMap ∧ 0 < 4)
      ∧ (∀ row ∈ csrMap, row.addr ≠ 0x0E8 / 4 * 4) ∧ (∀ row ∈ csrMap, row.addr ≠ 0x05F / 4 * 4)
      ∧ (awaiting [.csrRead 0x0C8]).inputs = .csrRead 0x0C8 :: [] := by decide

/-- R21's first and last row, with the value each shows after reset. -/
theorem witness_CsrReadsShowState :
    ((⟨0x000, .cmd, 32, true⟩, 0) ∈ csrTable State.reset ∧ 0 < 4)
      ∧ ((⟨0x0E4, .cfgDst, 32, false⟩, 4096) ∈ csrTable State.reset ∧ 3 < 4) ∧ State.reset.Inv :=
  ⟨by decide, by decide, reset_inv⟩

/-- A RW register, and a line that sets all eight ARG registers. -/
theorem witness_AssemblyLinesAreHostActions :
    (⟨0x07C, .txMaxpl, 32, true⟩, 0) ∈ csrTable State.reset ∧ (List.replicate 8 (1 : Word)).length ≤ 8 := by decide

/-- Each port at the last address of its memory and at the first past it. -/
theorem witness_BytePorts :
    ((awaiting [.srcWrite 4095 300]).inputs = .srcWrite 4095 300 :: [] ∧ 4095 < State.reset.params.srcSize)
      ∧ ((awaiting [.srcWrite 4096 1]).inputs = .srcWrite 4096 1 :: [] ∧ State.reset.params.srcSize ≤ 4096)
      ∧ ((awaiting [.srcRead 4095]).inputs = .srcRead 4095 :: [] ∧ State.reset.src.read 4095 = none)
      ∧ (({ awaiting [.srcRead 4095] with src := [(4095, 7)] } : State).src.read 4095 = some 7)
      ∧ ((awaiting [.dstRead 4095]).inputs = .dstRead 4095 :: [] ∧ State.reset.dst.read 4095 = none)
      ∧ (({ awaiting [.dstRead 4095] with dst := [(4095, 7)] } : State).dst.read 4095 = some 7)
      ∧ ((awaiting [.dstRead 4096]).inputs = .dstRead 4096 :: [] ∧ State.reset.params.dstSize ≤ 4096) := by decide

theorem witness_ResetState : (awaiting [.reset, .tick]).inputs = .reset :: [.tick] := rfl

theorem witness_RingCapacityIsLeastPowerOfTwo :
    (sized 1 1 1).wellFormed = true ∧ (sized (2 ^ 30) 1 1).wellFormed = true ∧ ringCap (sized (2 ^ 30) 1 1) = 2 ^ 30 := by
  decide

theorem witness_ResetMeetsInvariants : State.elaborate (sized 5 16 16) = some (State.resetWith (sized 5 16 16)) := by decide

theorem witness_StepKeepsInvariants : ∃ s t : State, s.Inv ∧ step s = .next t ∧ t ≠ s :=
  ⟨awaiting [.srcWrite 0 1], nextOr State.reset (step (awaiting [.srcWrite 0 1])),
    ⟨by decide, by decide, by decide, by decide, by decide⟩, rfl, by decide⟩

theorem witness_StepIsSafe : ∃ (i : Instr) (s : State) (f : Fault), s.Inv ∧ exec i s = .fault f :=
  ⟨.pcEncode, loaded Config.params 0 [] [0, 1], .unwritten .src 0,
    ⟨by decide, by decide, by decide, by decide, by decide⟩, rfl⟩

/-- 65533 payload bytes, whose stuffed region is longer than 65535 bytes. -/
def longPayload : List Byte := List.replicate 65533 0x01

theorem long_dataLength (flags : Byte) (m : MetaFields) : 65535 < dataLength flags m longPayload := by
  have h := (stuff_length (metaBytes flags m ++ longPayload)).1
  have hl : longPayload.length = 65533 := List.length_replicate
  rw [List.length_append, hl] at h
  unfold dataLength
  omega

/-- FC.BUILD of that payload. -/
def longState : State := loaded (sized 64 70000 70000) 0 longPayload [0, 65533, 0]

theorem long_srcHolds : SrcHolds longState 0 longPayload := by
  refine ⟨wf_cellsFrom 0 longPayload, fun i h => ?_⟩
  show Memory.read (cellsFrom 0 longPayload) (0 + i) = _
  rw [read_cellsFrom]
  simp [h]

theorem tooLong_of {s : State} {p : List Byte} (hin : inSrc s (opArg0 s) (opArg1 s)) (hp : SrcHolds s (opArg0 s) p)
    (hl : p.length = opArg1 s) (hL : 65535 < dataLength s.tx.flags (txMeta s) p) :
    exec .fcBuild s = .next { s with status := .tooLong } := by
  have hr : s.src.readBytes (opArg0 s) (opArg1 s) = some p := (Memory.readBytes_eq_some hp.1).mpr ⟨hl, hp.2⟩
  have hb : buildFrame s.tx.flags s.tx.id (txMeta s) p = none := by
    unfold buildFrame
    exact if_pos hL
  exact execFcBuild_eq_next.mpr (.inr ⟨hin, p, hr, .inl ⟨hb, rfl⟩⟩)

theorem long_tooLong : exec .fcBuild longState = .next { longState with status := .tooLong } :=
  tooLong_of (by decide) long_srcHolds (List.length_replicate.trans (by decide)) (long_dataLength _ _)

/-- ILLEGAL_ARG, TOO_LONG and OUT_OF_RANGE, each from a command that gives it. -/
theorem witness_RefusedCommandsCommitOnlyStatus :
    (∃ s t, exec .fcSend s = .next t ∧ t.status = .illegalArg) ∧ (∃ s t, exec .fcBuild s = .next t ∧ t.status = .tooLong)
      ∧ ∃ s t, exec .rbWrite s = .next t ∧ t.status = .outOfRange :=
  ⟨⟨State.reset, _, rfl, rfl⟩, ⟨longState, _, long_tooLong, rfl⟩, ⟨loaded Config.params 0 [] [4095, 2], _, rfl, rfl⟩⟩

/-- For each of the ten parts, a command that leaves it alone and ends in a next state. -/
theorem witness_CommandsWriteOnlyWhatR70Lists :
    (∃ t, exec .nop State.reset = .next t)
      ∧ (writes .nop).res0 = false ∧ (writes .nop).res1 = false ∧ (writes .nop).res2 = false ∧ (writes .nop).hdr = false
      ∧ (writes .nop).rx = false ∧ (writes .nop).ring = false ∧ (writes .nop).dst = false ∧ (writes .nop).slots = false
      ∧ (writes .nop).pktCtr = false ∧ (writes .nop).evicts = false
      ∧ (∃ t, exec .fcRecv State.reset = .next t) ∧ (writes .fcRecv).pktCtr = false :=
  ⟨⟨_, rfl⟩, rfl, rfl, rfl, rfl, rfl, rfl, rfl, rfl, rfl, rfl, ⟨_, rfl⟩, rfl⟩

theorem witness_ObservationRegistersNotRead : ∃ s t, exec .crTick s = .next t ∧ t.crEvicts = 1 :=
  ⟨withSlots State.reset [slotWith 1 7 10 0 (letters.take 4) 2, Slot.reset], _, rfl, by decide⟩

theorem witness_CommandOutcomes : ∃ s t, exec .rbRead s = .next t ∧ t.status = .needMore :=
  ⟨loaded Config.params 0 [] [0, 1, 0], _, rfl, by decide⟩

/-- The three shapes: no check after the SRC check, PC.DECODE's DST check, FC.SEND's argument check at both bounds. -/
theorem witness_UnwrittenSrcFaults :
    (∃ s : State, s.src.wf ∧ srcRange s .pcEncode = some (4095, 1) ∧ 0 < 1 ∧ s.src.read (4095 + 0) = none
      ∧ 4095 + s.args.a1.toNat ≤ s.params.srcSize)
    ∧ (∃ s : State, s.src.wf ∧ srcRange s .pcDecode = some (0, 2) ∧ 1 < 2 ∧ s.src.read (0 + 1) = none
      ∧ 0 + s.args.a1.toNat ≤ s.params.srcSize ∧ s.args.a2.toNat + s.args.a1.toNat ≤ s.params.dstSize)
    ∧ (∃ s : State, s.src.wf ∧ srcRange s .fcSend = some (0, 2) ∧ 1 < 2 ∧ s.src.read (0 + 1) = none
      ∧ 0 + s.args.a1.toNat ≤ s.params.srcSize
      ∧ s.tx.flags.getLsbD 2 = false ∧ 1 ≤ s.tx.maxpl.toNat ∧ s.tx.maxpl.toNat ≤ 65257) :=
  ⟨⟨loaded Config.params 0 [] [4095, 1], by decide⟩, ⟨loaded Config.params 0 [7] [0, 2, 4094], by decide⟩,
    ⟨{ loaded Config.params 0 [7] [0, 2, 0] with tx := ⟨0, 0, 0, 0, 0, 0, 0, 65257⟩ }, by decide⟩⟩

/-- A write one byte past SRC, and one that ends at SRC's end and of which a ring with one free byte takes half. -/
theorem witness_RbWriteAppendsWhatFits :
    (∃ s : State, s.ring.cnt ≤ ringCap s.params ∧ s.params.srcSize < s.args.a0.toNat + s.args.a1.toNat)
    ∧ ∃ s : State, s.ring.cnt ≤ ringCap s.params ∧ s.args.a0.toNat + s.args.a1.toNat ≤ s.params.srcSize
      ∧ SrcHolds s s.args.a0.toNat [0x11] ∧ 1 = min s.args.a1.toNat (ringCap s.params - s.ring.cnt) :=
  ⟨⟨loaded (sized 5 16 16) 0 [] [15, 2], by decide⟩,
    ⟨{ ringWith (sized 5 16 16) 4 (fullRing.take 7) [14, 2] with src := cellsFrom 14 [0x11] }, by decide⟩⟩

/-- RB.READ and RB.PEEK: one byte past DST; one byte too few held; the whole ring to DST's end. -/
theorem witness_RbReadCopiesAndConsumes :
    (∃ s : State, s.params.dstSize < s.args.a0.toNat + s.args.a1.toNat)
    ∧ (∃ s : State, s.args.a0.toNat + s.args.a1.toNat ≤ s.params.dstSize ∧ s.ring.cnt < s.args.a2.toNat + s.args.a1.toNat)
    ∧ ∃ s : State, s.args.a0.toNat + s.args.a1.toNat ≤ s.params.dstSize ∧ RingHolds s s.args.a2.toNat [0x33]
      ∧ 1 = s.args.a1.toNat :=
  ⟨⟨ringWith (sized 5 16 16) 7 [0x11, 0x22, 0x33] [15, 2, 0], by decide⟩,
    ⟨ringWith (sized 5 16 16) 7 [0x11, 0x22, 0x33] [15, 1, 3], by decide⟩,
    ⟨ringWith (sized 5 16 16) 7 [0x11, 0x22, 0x33] [15, 1, 2], by decide⟩⟩
theorem witness_RbPeekCopiesOnly :
    (∃ s : State, s.params.dstSize < s.args.a0.toNat + s.args.a1.toNat)
    ∧ (∃ s : State, s.args.a0.toNat + s.args.a1.toNat ≤ s.params.dstSize ∧ s.ring.cnt < s.args.a2.toNat + s.args.a1.toNat)
    ∧ ∃ s : State, s.args.a0.toNat + s.args.a1.toNat ≤ s.params.dstSize ∧ RingHolds s s.args.a2.toNat [0x22, 0x33]
      ∧ 2 = s.args.a1.toNat :=
  ⟨⟨ringWith (sized 5 16 16) 7 [0x11, 0x22, 0x33] [16, 1, 0], by decide⟩,
    ⟨ringWith (sized 5 16 16) 7 [0x11, 0x22, 0x33] [0, 3, 1], by decide⟩,
    ⟨ringWith (sized 5 16 16) 7 [0x11, 0x22, 0x33] [14, 2, 1], by decide⟩⟩

theorem witness_RbPeekbReturnsOneByte :
    (∃ s : State, s.ring.cnt ≤ s.args.a0.toNat) ∧ ∃ s : State, RingHolds s s.args.a0.toNat [0x33] :=
  ⟨⟨ringWith (sized 5 16 16) 7 [0x11, 0x22, 0x33] [3], by decide⟩, ⟨ringWith (sized 5 16 16) 7 [0x11, 0x22, 0x33] [2], by decide⟩⟩

theorem witness_RbPeekhdrParsesHeader :
    (∃ s : State, s.ring.cnt < s.args.a0.toNat + 7)
    ∧ ∃ s : State, RingHolds s s.args.a0.toNat [0x70, 0x69, 0x6E, 0x67, 0xAF, 0x42, 0x00] :=
  ⟨⟨ringWith (sized 16 16 16) 15 pingFrame [9], by decide⟩, ⟨ringWith (sized 16 16 16) 15 pingFrame [8], by decide⟩⟩

/-- The sentinel is the last byte held; it is nowhere from `skip` on. -/
theorem witness_RbSkipuntilConsumesThroughSentinel :
    (∃ s : State, s.ring.Inv s.params ∧ s.args.a0.toNat ≤ 2 ∧ 2 < s.ring.cnt ∧ ringByte s 2 = .ok 0x11#8
      ∧ ∀ j, s.args.a0.toNat ≤ j → j < 2 → ringByte s j ≠ .ok 0x11#8)
    ∧ ∃ s : State, s.ring.Inv s.params ∧ ∀ j, s.args.a0.toNat ≤ j → j < s.ring.cnt → ringByte s j ≠ .ok 0x11#8 := by
  refine ⟨⟨ringWith (sized 5 16 16) 7 [0x11, 0x22, 0x11] [1], by decide, by decide, by decide, by decide, fun j h h' => ?_⟩,
    ⟨ringWith (sized 5 16 16) 7 [0x11, 0x22, 0x33] [1], by decide, fun j h h' => ?_⟩⟩
  · have hj : j = 1 := Nat.le_antisymm (Nat.le_of_lt_succ h') h
    subst hj
    decide
  · have h2 : 1 ≤ j := h
    have h3 : j < 3 := h'
    have hj : j = 1 ∨ j = 2 := by omega
    rcases hj with rfl | rfl <;> decide

/-- A byte is written and read back; the operations fit; and one write that fits SRC. -/
theorem witness_RingIsFifo : ∃ (ops : List RingOp) (s t : State) (ins outs q : List Byte), s.Inv
    ∧ (∀ op ∈ ops, op.fits s.params) ∧ RingHolds s 0 q ∧ q.length = s.ring.cnt ∧ Queue ops s ins outs t := by
  refine ⟨[.write [0x11, 0x22], .read 1], State.reset, _, _, _, [], reset_inv, ?_, by decide, rfl,
    .cons rfl (.cons rfl (.nil _))⟩
  intro op h
  rcases List.mem_cons.mp h with rfl | h
  · show 2 ≤ 4096
    decide
  · rcases List.mem_cons.mp h with rfl | h
    · show 1 ≤ 4096
      decide
    · cases h

/-- UNSTUFF: a region that R14 gives BAD for (PD5), one that leaves a single byte, one that leaves just the checksum, and
the ping frame's. -/
theorem witness_StuffingIsTheSpecsLoops :
    uncobsLoop [0x02, 0x00, 0x01] 4 0 [] = none
      ∧ (uncobsLoop [0x02, 0x41] 3 0 [] = some [0x41] ∧ [(0x41 : Byte)].length < 2)
      ∧ uncobsLoop [0x01, 0x01, 0x01] 4 0 [] = some ([] ++ [0x00, 0x00])
      ∧ uncobsLoop [0x07, 0x70, 0x69, 0x6E, 0x67, 0xAF, 0x42] 8 0 [] = some (pingText ++ [0xAF, 0x42]) := by decide

/-- PC.ENCODE: SRC too short; DST one byte too short; DST just long enough. -/
theorem witness_PcEncodeStuffsContent :
    (∃ s : State, s.params.srcSize < s.args.a0.toNat + s.args.a1.toNat)
    ∧ (∃ s : State, s.args.a0.toNat + s.args.a1.toNat ≤ s.params.srcSize ∧ SrcHolds s s.args.a0.toNat pingText
      ∧ pingText.length = s.args.a1.toNat ∧ s.params.dstSize < s.args.a2.toNat + (stuff pingText).length)
    ∧ ∃ s : State, s.args.a0.toNat + s.args.a1.toNat ≤ s.params.srcSize ∧ SrcHolds s s.args.a0.toNat pingText
      ∧ pingText.length = s.args.a1.toNat ∧ s.args.a2.toNat + (stuff pingText).length ≤ s.params.dstSize :=
  ⟨⟨loaded (sized 8 16 16) 0 [] [16, 1], by decide⟩, ⟨loaded (sized 8 16 16) 12 pingText [12, 4, 9], by decide⟩,
    ⟨loaded (sized 8 16 16) 12 pingText [12, 4, 8], by decide⟩⟩

/-- PC.DECODE: either range too long; a region that does not decode; a region that does, up to the ends. -/
theorem witness_PcDecodeUnstuffsRegion :
    (∃ s : State, s.params.srcSize < s.args.a0.toNat + s.args.a1.toNat)
    ∧ (∃ s : State, s.params.dstSize < s.args.a2.toNat + s.args.a1.toNat)
    ∧ (∃ s : State, s.args.a0.toNat + s.args.a1.toNat ≤ s.params.srcSize ∧ s.args.a2.toNat + s.args.a1.toNat ≤ s.params.dstSize
      ∧ SrcHolds s s.args.a0.toNat [0x02, 0x00, 0x01] ∧ 3 = s.args.a1.toNat ∧ unstuff [0x02, 0x00, 0x01] = none)
    ∧ ∃ (s : State) (u : Unstuffed), s.args.a0.toNat + s.args.a1.toNat ≤ s.params.srcSize
      ∧ s.args.a2.toNat + s.args.a1.toNat ≤ s.params.dstSize
      ∧ SrcHolds s s.args.a0.toNat [0x01, 0x01, 0x01] ∧ 3 = s.args.a1.toNat ∧ unstuff [0x01, 0x01, 0x01] = some u :=
  ⟨⟨loaded (sized 8 16 16) 0 [] [15, 2, 0], by decide⟩, ⟨loaded (sized 8 16 16) 0 [] [0, 2, 15], by decide⟩,
    ⟨loaded (sized 8 16 16) 13 [0x02, 0x00, 0x01] [13, 3, 13], by decide⟩,
    ⟨loaded (sized 8 16 16) 13 [0x01, 0x01, 0x01] [13, 3, 13], ⟨[], 0, 0⟩, by decide⟩⟩

/-- PC4: "ping" is encoded, and its 7 stuffed bytes are placed in another FCU's SRC. -/
theorem witness_EncodeDecodeRoundTrip : ∃ s t u : State, s.Inv ∧ SrcHolds s s.args.a0.toNat pingText
    ∧ pingText.length = s.args.a1.toNat ∧ exec .pcEncode s = .next t ∧ t.status = .ok ∧ u.src.wf
    ∧ (∀ i < t.res.r0.toNat - 1, u.src.read (u.args.a0.toNat + i) = t.dst.read (s.args.a2.toNat + i))
    ∧ u.args.a1.toNat + 1 = t.res.r0.toNat
    ∧ u.args.a0.toNat + u.args.a1.toNat ≤ u.params.srcSize ∧ u.args.a2.toNat + u.args.a1.toNat ≤ u.params.dstSize :=
  ⟨loaded Config.params 0 pingText [0, 4, 0],
    nextOr State.reset (exec .pcEncode (loaded Config.params 0 pingText [0, 4, 0])),
    loaded Config.params 5 [0x07, 0x70, 0x69, 0x6E, 0x67, 0xAF, 0x42] [5, 7, 4089],
    ⟨by decide, by decide, by decide, by decide, by decide⟩, by decide, by decide, rfl, by decide, by decide, by decide,
    by decide, by decide, by decide⟩

/-- A content of exactly its metadata (R132's first chunk without payload), and an empty content with no metadata. -/
theorem witness_MetadataLayout :
    metaLen 0x06 = [0x05, 0x00, 0x01, 0x00, 0x00, 0x00, 0x00, 0x00, 0x00, 0x00, 0x0A, 0x00, 0x00, (0x00 : Byte)].length
      ∧ metaLen 0xE0 ≤ ([] : List Byte).length := by decide

/-- FC.BUILD: SRC too short; the region too long; DST one byte too short; DST just long enough. -/
theorem witness_FcBuildWritesFrame :
    (∃ s : State, s.params.srcSize < s.args.a0.toNat + s.args.a1.toNat)
    ∧ (∃ (s : State) (p : List Byte), s.args.a0.toNat + s.args.a1.toNat ≤ s.params.srcSize ∧ SrcHolds s s.args.a0.toNat p
      ∧ p.length = s.args.a1.toNat ∧ 65535 < dataLength s.tx.flags (txMeta s) p)
    ∧ (∃ s : State, s.args.a0.toNat + s.args.a1.toNat ≤ s.params.srcSize ∧ SrcHolds s s.args.a0.toNat pingText
      ∧ pingText.length = s.args.a1.toNat ∧ dataLength s.tx.flags (txMeta s) pingText ≤ 65535
      ∧ s.params.dstSize < s.args.a2.toNat + (7 + dataLength s.tx.flags (txMeta s) pingText))
    ∧ ∃ s : State, s.args.a0.toNat + s.args.a1.toNat ≤ s.params.srcSize ∧ SrcHolds s s.args.a0.toNat pingText
      ∧ pingText.length = s.args.a1.toNat ∧ dataLength s.tx.flags (txMeta s) pingText ≤ 65535
      ∧ s.args.a2.toNat + (7 + dataLength s.tx.flags (txMeta s) pingText) ≤ s.params.dstSize :=
  ⟨⟨loaded (sized 8 4 70) 0 [] [0, 5, 0], by decide⟩,
    ⟨longState, longPayload, by decide, long_srcHolds, List.length_replicate.trans (by decide), long_dataLength _ _⟩,
    ⟨loaded (sized 8 16 16) 12 pingText [12, 4, 2], by decide⟩, ⟨loaded (sized 8 16 16) 12 pingText [12, 4, 1], by decide⟩⟩

/-- "ping" at the end of SRC, with TX_FLAGS, TX_MAXPL, `n` and `d` chosen. -/
def sending (flags : Byte) (maxpl n d : Word) : State :=
  { loaded (sized 8 16 60) 12 pingText [12, n, d] with tx := ⟨flags, 7, 0, 0, 0, 0, 0, maxpl⟩ }

/-- FC.SEND: each of the three bad arguments; SRC too short; a payload of exactly TX_MAXPL bytes, DST one byte too short
and just long enough. -/
theorem witness_FcSendOneFrame :
    (sending 0x04 4 4 0).tx.flags.getLsbD 2 = true ∧ (sending 0 0 4 0).tx.maxpl.toNat < 1
    ∧ 65257 < (sending 0 65258 4 0).tx.maxpl.toNat
    ∧ (∃ s : State, s.tx.flags.getLsbD 2 = false ∧ 1 ≤ s.tx.maxpl.toNat ∧ s.tx.maxpl.toNat ≤ 65257
      ∧ s.params.srcSize < s.args.a0.toNat + s.args.a1.toNat)
    ∧ (∃ s : State, s.tx.flags.getLsbD 2 = false ∧ 1 ≤ s.tx.maxpl.toNat ∧ s.tx.maxpl.toNat ≤ 65257
      ∧ s.args.a0.toNat + s.args.a1.toNat ≤ s.params.srcSize ∧ SrcHolds s s.args.a0.toNat pingText
      ∧ pingText.length = s.args.a1.toNat ∧ s.args.a1.toNat ≤ s.tx.maxpl.toNat
      ∧ s.params.dstSize < s.args.a2.toNat + (frame s.tx.flags s.tx.id ⟨s.tx.reqid, 0, 0, 0, s.tx.ulen⟩ pingText).length)
    ∧ ∃ s : State, s.tx.flags.getLsbD 2 = false ∧ 1 ≤ s.tx.maxpl.toNat ∧ s.tx.maxpl.toNat ≤ 65257
      ∧ s.args.a0.toNat + s.args.a1.toNat ≤ s.params.srcSize ∧ SrcHolds s s.args.a0.toNat pingText
      ∧ pingText.length = s.args.a1.toNat ∧ s.args.a1.toNat ≤ s.tx.maxpl.toNat
      ∧ s.args.a2.toNat + (frame s.tx.flags s.tx.id ⟨s.tx.reqid, 0, 0, 0, s.tx.ulen⟩ pingText).length ≤ s.params.dstSize :=
  ⟨by decide, by decide, by decide, ⟨sending 0 65257 5 0, by decide⟩, ⟨sending 0 4 4 46, by decide⟩, ⟨sending 0 4 4 45, by decide⟩⟩

/-- A payload of TX_MAXPL + 1 bytes; DST one byte too short for the two frames (28 + 25 = 53 bytes), and just long enough. -/
theorem witness_FcSendChunks :
    (∃ s : State, s.tx.flags.getLsbD 2 = false ∧ 1 ≤ s.tx.maxpl.toNat ∧ s.tx.maxpl.toNat ≤ 65257
      ∧ s.args.a0.toNat + s.args.a1.toNat ≤ s.params.srcSize ∧ SrcHolds s s.args.a0.toNat pingText
      ∧ pingText.length = s.args.a1.toNat ∧ s.tx.maxpl.toNat < s.args.a1.toNat
      ∧ (exec .fcSend s = .next { s with status := .outOfRange }))
    ∧ ∃ s : State, s.tx.flags.getLsbD 2 = false ∧ 1 ≤ s.tx.maxpl.toNat ∧ s.tx.maxpl.toNat ≤ 65257
      ∧ s.args.a0.toNat + s.args.a1.toNat ≤ s.params.srcSize ∧ SrcHolds s s.args.a0.toNat pingText
      ∧ pingText.length = s.args.a1.toNat ∧ s.tx.maxpl.toNat < s.args.a1.toNat
      ∧ after (exec .fcSend s) (fun t => decide (t.status = .ok) && decide (t.res.r1 = 2)) = true :=
  ⟨⟨sending 0 3 4 12, by decide, by decide, by decide, by decide, by decide, by decide, by decide, rfl⟩,
    ⟨sending 0 3 4 0, by decide, by decide, by decide, by decide, by decide, by decide, by decide, by decide⟩⟩

/-- The header of the ping frame. -/
def pingHdr : HdrRegs := ⟨0x00, 0x0007, 0x0008, 0x2C0F, 0x2C0F⟩

/-- The ring of 64 bytes holds `bytes`, from index 60 on. -/
def holding (bytes : List Byte) (args : List Word) : State := ringWith Config.params 60 bytes args

theorem holding_inv (bytes : List Byte) (args : List Word) (h : (holding bytes args).ring.Inv Config.params) :
    (holding bytes args).Inv :=
  ⟨by show Config.params.wellFormed = true; decide, h, Memory.fits_nil _, Memory.fits_nil _,
    by show SlotsInv Config.params (List.replicate 2 Slot.reset); decide⟩

/-- A header from the first seven bytes of `b`. -/
theorem headerAt_of {s : State} {h : HdrRegs} (b : List Byte)
    (hr : RingHolds s 0 [b.getD 0 0, b.getD 1 0, b.getD 2 0, b.getD 3 0, b.getD 4 0, b.getD 5 0, b.getD 6 0])
    (hh : h = { flags := b.getD 0 0, id := b.getD 2 0 ++ b.getD 1 0, len := b.getD 4 0 ++ b.getD 3 0,
                cksum := b.getD 6 0 ++ b.getD 5 0
                computed := BitVec.ofNat 16 (f16 [b.getD 0 0, b.getD 1 0, b.getD 2 0, b.getD 3 0, b.getD 4 0]) }) :
    HeaderAt s h := ⟨_, _, _, _, _, _, _, hr, hh⟩

theorem pingHdr_at : HeaderAt (holding pingFrame []) pingHdr := headerAt_of pingFrame (by decide) (by decide)
theorem pingHdr_good : HeaderGood (holding pingFrame []) pingHdr := by
  unfold HeaderGood
  decide
theorem ping_frameAt : FrameAt (holding pingFrame []) pingHdr := ⟨pingHdr_at, pingHdr_good, by decide, by decide⟩

/-- FC.TRYPARSE: 6 bytes; a bad checksum (TP5); `dataLength` 3 (TP6) and one more than the ring holds (TP7); one byte
missing (TP2); no terminator (TP9); a frame (TP1). -/
theorem witness_FcTryparseChecksInOrder :
    (holding (pingFrame.take 6) []).ring.cnt < 7
    ∧ (HeaderAt (holding (pingFrame.set 5 0xF0) []) ⟨0x00, 0x0007, 0x0008, 0x2CF0, 0x2C0F⟩ ∧ 0x2CF0#16 ≠ 0x2C0F#16)
    ∧ (HeaderAt (holding [0x00, 0x07, 0x00, 0x03, 0x00, 0x0A, 0x22, 0x01, 0x01, 0x00] []) ⟨0x00, 0x0007, 0x0003, 0x220A, 0x220A⟩
      ∧ (0x0003#16).toNat < 4)
    ∧ (HeaderAt (holding [0x00, 0x07, 0x00, 0x3A, 0x00, 0x41, 0x90] []) ⟨0x00, 0x0007, 0x003A, 0x9041, 0x9041⟩
      ∧ ringCap Config.params < 7 + (0x003A#16).toNat)
    ∧ (HeaderAt (holding (pingFrame.take 14) []) pingHdr ∧ 4 ≤ pingHdr.len.toNat ∧ 7 + pingHdr.len.toNat ≤ ringCap Config.params
      ∧ (holding (pingFrame.take 14) []).ring.cnt < 7 + pingHdr.len.toNat)
    ∧ (HeaderAt (holding (pingFrame.set 14 0x01) []) pingHdr
      ∧ 7 + pingHdr.len.toNat ≤ (holding (pingFrame.set 14 0x01) []).ring.cnt
      ∧ ringByte (holding (pingFrame.set 14 0x01) []) (7 + pingHdr.len.toNat - 1) = .ok 0x01#8)
    ∧ FrameAt (holding pingFrame []) pingHdr :=
  ⟨by decide, ⟨headerAt_of (pingFrame.set 5 0xF0) (by decide) (by decide), by decide⟩, ⟨headerAt_of [0x00, 0x07, 0x00, 0x03, 0x00, 0x0A, 0x22] (by decide) (by decide), by decide⟩,
    ⟨headerAt_of [0x00, 0x07, 0x00, 0x3A, 0x00, 0x41, 0x90] (by decide) (by decide), by decide⟩, ⟨headerAt_of pingFrame (by decide) (by decide), by decide⟩,
    ⟨headerAt_of pingFrame (by decide) (by decide), by decide, by decide⟩, ping_frameAt⟩

/-- FR4's ring: the code byte overruns the region. -/
def malformedFrame : List Byte := pingFrame.set 7 0x09
/-- FR8's frame: a CHK frame whose content is shorter than its metadata. -/
def shortFrame : List Byte := [0x04, 0x01, 0x00, 0x08, 0x00, 0x0D, 0x28, 0x07, 0x41, 0x42, 0x43, 0x44, 0x0B, 0x96, 0x00]
/-- FR5's ring: the payload checksum differs. -/
def checksumFrame : List Byte := pingFrame.set 10 0x6F

/-- FC.RECV's failures: under 7 bytes; one byte missing; no terminator (FR7); FR4; FR8; FR5. -/
theorem witness_FcRecvFailures :
    ((holding (pingFrame.take 6) []).Inv ∧ (holding (pingFrame.take 6) []).ring.cnt < 7)
    ∧ ((holding (pingFrame.take 14) []).Inv ∧ HeaderAt (holding (pingFrame.take 14) []) pingHdr
      ∧ HeaderGood (holding (pingFrame.take 14) []) pingHdr
      ∧ (holding (pingFrame.take 14) []).ring.cnt < 7 + pingHdr.len.toNat)
    ∧ ((holding (pingFrame.set 14 0x01) []).Inv ∧ HeaderAt (holding (pingFrame.set 14 0x01) []) pingHdr
      ∧ 7 + pingHdr.len.toNat ≤ (holding (pingFrame.set 14 0x01) []).ring.cnt
      ∧ ¬ FrameAt (holding (pingFrame.set 14 0x01) []) pingHdr)
    ∧ ((holding malformedFrame []).Inv ∧ FrameAt (holding malformedFrame []) pingHdr
      ∧ RegionGives (holding malformedFrame []) pingHdr none)
    ∧ (∃ (h : HdrRegs) (u : Unstuffed), (holding shortFrame []).Inv ∧ FrameAt (holding shortFrame []) h
      ∧ RegionGives (holding shortFrame []) h (some u) ∧ u.content.length < metaLen h.flags)
    ∧ ∃ u : Unstuffed, (holding checksumFrame []).Inv ∧ FrameAt (holding checksumFrame []) pingHdr
      ∧ RegionGives (holding checksumFrame []) pingHdr (some u) ∧ metaLen pingHdr.flags ≤ u.content.length
      ∧ u.computed ≠ u.carried := by
  refine ⟨⟨holding_inv _ _ (by decide), by decide⟩,
    ⟨holding_inv _ _ (by decide), headerAt_of pingFrame (by decide) (by decide), ⟨by decide, by decide, by decide⟩, by decide⟩,
    ⟨holding_inv _ _ (by decide), headerAt_of pingFrame (by decide) (by decide), by decide, fun hf => ?_⟩,
    ⟨holding_inv _ _ (by decide), ⟨headerAt_of pingFrame (by decide) (by decide), ⟨by decide, by decide, by decide⟩, by decide, by decide⟩,
      ⟨[0x09, 0x70, 0x69, 0x6E, 0x67, 0xAF, 0x42], by decide, by decide, by decide⟩⟩,
    ⟨⟨0x04, 0x0001, 0x0008, 0x280D, 0x280D⟩, ⟨[0x41, 0x42, 0x43, 0x44], 0x960B, 0x960B⟩, holding_inv _ _ (by decide),
      ⟨headerAt_of shortFrame (by decide) (by decide), ⟨by decide, by decide, by decide⟩, by decide, by decide⟩,
      ⟨[0x07, 0x41, 0x42, 0x43, 0x44, 0x0B, 0x96], by decide, by decide, by decide⟩, by decide⟩,
    ⟨⟨[0x70, 0x69, 0x6F, 0x67], 0x42AF, 0x44B0⟩, holding_inv _ _ (by decide),
      ⟨headerAt_of pingFrame (by decide) (by decide), ⟨by decide, by decide, by decide⟩, by decide, by decide⟩,
      ⟨[0x07, 0x70, 0x69, 0x6F, 0x67, 0xAF, 0x42], by decide, by decide, by decide⟩, by decide, by decide⟩⟩
  exact absurd hf.2.2.2 (by decide)

theorem ping_valid (args : List Word) (h : HeaderAt (holding pingFrame args) pingHdr)
    (ht : ringByte (holding pingFrame args) 14 = .ok 0#8)
    (hr : RingHolds (holding pingFrame args) 7 [0x07, 0x70, 0x69, 0x6E, 0x67, 0xAF, 0x42]) :
    ValidFrameAt (holding pingFrame args) pingHdr ⟨pingText, 0x42AF, 0x42AF⟩ :=
  ⟨⟨h, ⟨by decide, by decide, by show 15 ≤ ringCap Config.params; decide⟩, by show 15 ≤ 15; decide, ht⟩,
    ⟨_, hr, by decide, by decide⟩, by decide, by decide⟩

/-- The ping frame (FR1), with DST one byte too short for its payload (as FR6) and just long enough. -/
theorem witness_FcRecvDeliversPayload :
    (∃ s : State, ValidFrameAt s pingHdr ⟨pingText, 0x42AF, 0x42AF⟩ ∧ pingHdr.flags.getLsbD 2 = false
      ∧ parseMeta pingHdr.flags pingText = (⟨0, 0, 0, 0, 0⟩, pingText) ∧ s.params.dstSize < s.args.a0.toNat + pingText.length)
    ∧ ∃ s : State, ValidFrameAt s pingHdr ⟨pingText, 0x42AF, 0x42AF⟩ ∧ pingHdr.flags.getLsbD 2 = false
      ∧ parseMeta pingHdr.flags pingText = (⟨0, 0, 0, 0, 0⟩, pingText) ∧ s.args.a0.toNat + pingText.length ≤ s.params.dstSize :=
  ⟨⟨holding pingFrame [4093], ping_valid _ (headerAt_of pingFrame (by decide) (by decide)) (by decide) (by decide),
      by decide, by decide, by decide⟩,
    ⟨holding pingFrame [4092], ping_valid _ (headerAt_of pingFrame (by decide) (by decide)) (by decide) (by decide),
      by decide, by decide, by decide⟩⟩

/-- The header, the content, the metadata and the payload of R132's first chunk frame. -/
def chunkHdr : HdrRegs := ⟨0x06, 0x0009, 0x0016, 0x6E25, 0x6E25⟩
def chunkContent : List Byte := [0x05, 0x00, 0x01, 0x00, 0x00, 0x00, 0x00, 0x00, 0x00, 0x00, 0x0A, 0x00, 0x00, 0x00, 0x41, 0x42, 0x43, 0x44]
def chunkMeta : MetaFields := ⟨5, 1, 0, 10, 0⟩
/-- The CR.RECV state that offers the same chunk. -/
def chunkCr (d conn : Word) : State := loaded Config.params 0 (letters.take 4) [0, 4, d, 1, 0, 10, conn]

/-- FK1's chunk through FC.RECV and through CR.RECV: accepted; and the completing chunk of a one-byte-short DST. -/
theorem witness_FcRecvHandsChunkToReassembler : ∃ s c ct : State, s.Inv
    ∧ ValidFrameAt s chunkHdr ⟨chunkContent, 0x511B, 0x511B⟩ ∧ chunkHdr.flags.getLsbD 2 = true
    ∧ parseMeta chunkHdr.flags chunkContent = (chunkMeta, letters.take 4)
    ∧ c.params = { s.params with srcSize := c.params.srcSize } ∧ c.slots = s.slots ∧ c.dst = s.dst
    ∧ SrcHolds c 0 (letters.take 4) ∧ (letters.take 4).length ≤ c.params.srcSize
    ∧ c.args = { a0 := 0, a1 := BitVec.ofNat 32 (letters.take 4).length, a2 := s.args.a0, a3 := chunkMeta.pktid
                 a4 := chunkMeta.offset, a5 := chunkMeta.total, a6 := s.connId.setWidth 32, a7 := 0 }
    ∧ exec .crRecv c = .next ct ∧ ct.status = .chunkAccepted :=
  ⟨holding chunkFrame [200], chunkCr 200 0, nextOr State.reset (exec .crRecv (chunkCr 200 0)), holding_inv _ _ (by decide),
    ⟨⟨headerAt_of chunkFrame (by decide) (by decide), ⟨by decide, by decide, by decide⟩, by decide, by decide⟩,
      ⟨(chunkFrame.drop 7).take 21, by decide, by decide, by decide⟩, by decide, by decide⟩,
    by decide, by decide, rfl, rfl, rfl, by decide, by decide, by decide, rfl, by decide⟩

/-- The same frame as the completing chunk of a slot that lacks only its bytes. -/
theorem witness_FcRecvHandsChunkToReassembler_outOfRange : ∃ s c ct : State, s.Inv
    ∧ ValidFrameAt s chunkHdr ⟨chunkContent, 0x511B, 0x511B⟩ ∧ c.params = { s.params with srcSize := c.params.srcSize }
    ∧ c.slots = s.slots ∧ c.dst = s.dst ∧ SrcHolds c 0 (letters.take 4) ∧ (letters.take 4).length ≤ c.params.srcSize
    ∧ c.args = { a0 := 0, a1 := BitVec.ofNat 32 (letters.take 4).length, a2 := s.args.a0, a3 := chunkMeta.pktid
                 a4 := chunkMeta.offset, a5 := chunkMeta.total, a6 := s.connId.setWidth 32, a7 := 0 }
    ∧ exec .crRecv c = .next ct ∧ ct.status = .outOfRange := by
  refine ⟨withSlots (holding chunkFrame [4087]) [slotWith 0 1 10 4 (letters.drop 4) 2, Slot.reset],
    withSlots (chunkCr 4087 0) [slotWith 0 1 10 4 (letters.drop 4) 2, Slot.reset],
    nextOr State.reset (exec .crRecv (withSlots (chunkCr 4087 0) [slotWith 0 1 10 4 (letters.drop 4) 2, Slot.reset])),
    ⟨by decide, by decide, by decide, by decide, by decide⟩,
    ⟨⟨headerAt_of chunkFrame (by decide) (by decide), ⟨by decide, by decide, by decide⟩, by decide, by decide⟩,
      ⟨(chunkFrame.drop 7).take 21, by decide, by decide, by decide⟩, by decide, by decide⟩,
    rfl, rfl, rfl, by decide, by decide, by decide, rfl, by decide⟩

/-- FC1's frame, carried to the empty ring of another FCU that just holds it. -/
def builtState : State := nextOr State.reset (exec .fcBuild (loaded Config.params 0 pingText [0, 4, 0]))
def carriedState : State := { loaded (sized 16 16 16) 1 ((builtState.dst.readBytes 0 15).getD []) [1, 15] with connId := 3 }
theorem witness_BuiltFrameRoundTrip : ∃ s t u : State, s.Inv ∧ SrcHolds s s.args.a0.toNat pingText
    ∧ pingText.length = s.args.a1.toNat ∧ exec .fcBuild s = .next t ∧ t.status = .ok
    ∧ u.Inv ∧ u.ring.cnt = 0 ∧ t.res.r0.toNat ≤ ringCap u.params
    ∧ (∀ i < t.res.r0.toNat, u.src.read (u.args.a0.toNat + i) = t.dst.read (s.args.a2.toNat + i))
    ∧ u.args.a1 = t.res.r0 ∧ u.args.a0.toNat + u.args.a1.toNat ≤ u.params.srcSize
    ∧ s.tx.flags.getLsbD 2 = false ∧ 12 + pingText.length ≤ u.params.dstSize :=
  ⟨loaded Config.params 0 pingText [0, 4, 0], builtState, carriedState, ⟨by decide, by decide, by decide, by decide, by decide⟩,
    by decide, by decide, rfl, by decide, ⟨by decide, by decide, by decide, by decide, by decide⟩, by decide, by decide,
    by decide, by decide, by decide, by decide, by decide⟩

/-- A full ring whose header is bad (TP7 at the bound); a failure; a ring too small for a header. -/
theorem witness_RecvMakesProgress :
    (∃ s t : State, s.Inv ∧ exec .fcRecv s = .next t ∧ s.ring.cnt = ringCap s.params ∧ 7 ≤ ringCap s.params
      ∧ t.status = .hdrCorrupt)
    ∧ (∃ s t : State, s.Inv ∧ exec .fcRecv s = .next t ∧ t.status = .plChecksum ∧ ringByte s 0 = .ok 0#8)
    ∧ ∃ s t : State, s.Inv ∧ exec .fcRecv s = .next t ∧ ringCap s.params < 7 :=
  ⟨⟨ringWith (sized 8 16 16) 3 [0x00, 0x07, 0x00, 0x3A, 0x00, 0x41, 0x90, 0x01] [],
      nextOr State.reset (exec .fcRecv (ringWith (sized 8 16 16) 3 [0x00, 0x07, 0x00, 0x3A, 0x00, 0x41, 0x90, 0x01] [])),
      ⟨by decide, by decide, by decide, by decide, by decide⟩, rfl, by decide, by decide, by decide⟩,
    ⟨holding checksumFrame [], nextOr State.reset (exec .fcRecv (holding checksumFrame [])), holding_inv _ _ (by decide), rfl,
      by decide, by decide⟩,
    ⟨ringWith (sized 4 16 16) 3 (fullRing.take 4) [], nextOr State.reset (exec .fcRecv (ringWith (sized 4 16 16) 3 (fullRing.take 4) [])),
      ⟨by decide, by decide, by decide, by decide, by decide⟩, rfl, by decide⟩⟩

/-- P2's ring: a ping frame with a flipped header checksum, then a good one. -/
theorem witness_ResyncStaysInsideFrame : ∃ (s t : State) (X Y : List Byte), s.Inv ∧ X.getLast? = some 0#8
    ∧ RingHolds s 0 (X ++ Y) ∧ s.ring.cnt = (X ++ Y).length ∧ exec .fcRecv s = .next t ∧ t.status = .hdrCorrupt :=
  ⟨holding (pingFrame.set 5 0xF0 ++ pingFrame) [], nextOr State.reset (exec .fcRecv (holding (pingFrame.set 5 0xF0 ++ pingFrame) [])),
    pingFrame.set 5 0xF0, pingFrame, holding_inv _ _ (by decide), by decide, by decide, by decide, rfl, by decide⟩

/-- The bytes the ring holds from a position on are determined by their number. -/
theorem ringHolds_unique {s : State} {i : Nat} {a b : List Byte} (ha : RingHolds s i a) (hb : RingHolds s i b)
    (h : a.length = b.length) : a = b :=
  List.ext_getElem h fun j h1 h2 => Except.ok.inj ((ha.2 j h1).symm.trans (hb.2 j h2))

theorem headerAt_unique {s : State} {h h' : HdrRegs} (hh : HeaderAt s h) (hh' : HeaderAt s h') : h = h' := by
  obtain ⟨b0, b1, b2, b3, b4, b5, b6, hr, rfl⟩ := hh
  obtain ⟨c0, c1, c2, c3, c4, c5, c6, hr', rfl⟩ := hh'
  obtain ⟨rfl, rfl, rfl, rfl, rfl, rfl, rfl⟩ : b0 = c0 ∧ b1 = c1 ∧ b2 = c2 ∧ b3 = c3 ∧ b4 = c4 ∧ b5 = c5 ∧ b6 = c6 := by
    simpa using ringHolds_unique hr hr' rfl
  rfl

/-- There is at most one valid frame at the front of the ring. -/
theorem validFrameAt_unique {s : State} {h h' : HdrRegs} {u u' : Unstuffed} (hv : ValidFrameAt s h u)
    (hv' : ValidFrameAt s h' u') : h = h' ∧ u = u' := by
  obtain rfl := headerAt_unique hv.1.1 hv'.1.1
  obtain ⟨r, hr, hl, he⟩ := hv.2.1
  obtain ⟨r', hr', hl', he'⟩ := hv'.2.1
  obtain rfl := ringHolds_unique hr hr' (Nat.succ.inj (hl.trans hl'.symm))
  exact ⟨rfl, Option.some.inj (he.symm.trans he')⟩

/-- What the statement asks of a corrupted frame `X` that a ping frame follows. -/
def Resync (s : State) (X : List Byte) : Prop :=
  s.Inv ∧ X.getLast? = some 0#8 ∧ RingHolds s 0 (X ++ pingFrame) ∧ s.ring.cnt = (X ++ pingFrame).length
    ∧ ValidFrameAt { s with ring := consumed s X.length } pingHdr ⟨pingText, 0x42AF, 0x42AF⟩
    ∧ parseMeta pingHdr.flags pingText = (⟨0, 0, 0, 0, 0⟩, pingText)
    ∧ (∀ h' : HdrRegs, HeaderAt s h' → h'.cksum = h'.computed →
        7 + h'.len.toNat ≤ X.length ∧ ∀ u' : Unstuffed, ¬ ValidFrameAt s h' u')
    ∧ (∀ j, 0 < j → j < X.length → ¬ MatchingHeader ((X ++ pingFrame).drop j))
    ∧ pingHdr.flags.getLsbD 2 = false ∧ s.args.a0.toNat + pingText.length ≤ s.params.dstSize

/-- P2's ring: a flipped header checksum. -/
theorem resync_flipped_header : Resync (holding (pingFrame.set 5 0xF0 ++ pingFrame) []) (pingFrame.set 5 0xF0) := by
  refine ⟨holding_inv _ _ (by decide), by decide, by decide, by decide, ?_, by decide, fun h hh hc => ?_, ?_, by decide, by decide⟩
  · exact ⟨⟨headerAt_of pingFrame (by decide) (by decide), ⟨by decide, by decide, by decide⟩, by decide, by decide⟩,
      ⟨[0x07, 0x70, 0x69, 0x6E, 0x67, 0xAF, 0x42], by decide, by decide, by decide⟩, by decide, by decide⟩
  · obtain rfl := headerAt_unique hh
      (headerAt_of (h := ⟨0x00, 0x0007, 0x0008, 0x2CF0, 0x2C0F⟩) (pingFrame.set 5 0xF0) (by decide) (by decide))
    exact absurd hc (by decide)
  · unfold MatchingHeader
    intro j h0 h1
    have h2 : j < 15 := h1
    revert h0
    clear h1
    revert j
    decide

/-- A payload that its checksum does not match (FR5), under a header that does match. -/
theorem resync_flipped_payload : Resync (holding (checksumFrame ++ pingFrame) [4092]) checksumFrame := by
  refine ⟨holding_inv _ _ (by decide), by decide, by decide, by decide, ?_, by decide, fun h hh hc => ?_, ?_, by decide, by decide⟩
  · exact ⟨⟨headerAt_of pingFrame (by decide) (by decide), ⟨by decide, by decide, by decide⟩, by decide, by decide⟩,
      ⟨[0x07, 0x70, 0x69, 0x6E, 0x67, 0xAF, 0x42], by decide, by decide, by decide⟩, by decide, by decide⟩
  · obtain rfl := headerAt_unique hh (headerAt_of (h := pingHdr) checksumFrame (by decide) (by decide))
    refine ⟨by decide, fun u hu => ?_⟩
    obtain ⟨r, hr, hl, he⟩ := hu.2.1
    obtain rfl := ringHolds_unique hr
      (b := [0x07, 0x70, 0x69, 0x6F, 0x67, 0xAF, 0x42]) (by decide) (Nat.succ.inj hl)
    obtain rfl : (⟨[0x70, 0x69, 0x6F, 0x67], 0x42AF, 0x44B0⟩ : Unstuffed) = u := Option.some.inj he
    exact absurd hu.2.2.2 (by decide)
  · unfold MatchingHeader
    intro j h0 h1
    have h2 : j < 15 := h1
    revert h0
    clear h1
    revert j
    decide

/-- P2's ring, and one with a flipped payload checksum whose payload DST just holds. -/
theorem witness_ResyncDeliversNextFrame : (∃ (s : State) (X : List Byte), Resync s X)
    ∧ ∃ (s : State) (X : List Byte) (h : HdrRegs), Resync s X ∧ HeaderAt s h ∧ h.cksum = h.computed :=
  ⟨⟨_, _, resync_flipped_header⟩,
    ⟨_, _, pingHdr, resync_flipped_payload, headerAt_of checksumFrame (by decide) (by decide), by decide⟩⟩

/-- A state whose host offers the bytes `data`, at SRC's start, as a chunk of connection 1. -/
def offering (slots : List Slot) (data : List Byte) (d pid off tot : Word) : State :=
  withSlots (loaded Config.params 0 data [0, BitVec.ofNat 32 data.length, d, pid, off, tot, 1]) slots

/-- What the CR.RECV statements ask of a state that offers `data`. -/
abbrev Offered (s : State) (data : List Byte) : Prop :=
  s.args.a0.toNat + s.args.a1.toNat ≤ s.params.srcSize ∧ SrcHolds s s.args.a0.toNat data ∧ data.length = s.args.a1.toNat

theorem offering_inv {slots : List Slot} {data : List Byte} {d pid off tot : Word}
    (h : SlotsInv Config.params slots) (hd : data.length ≤ 4096) : (offering slots data d pid off tot).Inv :=
  ⟨by show Config.params.wellFormed = true; decide, by show Ring.Inv Config.params ⟨[], 0, 0⟩; decide,
    ⟨wf_cellsFrom 0 data, fun c hc => by
      have hm : c.1 < 0 + data.length := (mem_cellsFrom hc).2
      show c.1 < 4096
      omega⟩,
    Memory.fits_nil _, h⟩

/-- The slots of CR13: both held, by the first chunks of payloads 7 and 8. -/
def bothHeld : List Slot := [slotWith 1 7 10 0 (letters.take 4) 2, slotWith 1 8 10 0 (letters.take 4) 0]
/-- One of them held. -/
def oneHeld : List Slot := [slotWith 1 7 10 0 (letters.take 4) 2, Slot.reset]

/-- An absent key: SRC too short; a zero total, an empty chunk and one that ends one byte past the total (CR7, CR8, CR10);
a total one past CR_MAX_TOTAL (CR12); no free slot (CR13); a whole payload that DST misses by a byte, and that it just
holds (CR15); a first part, in the second slot. -/
theorem witness_CrRecvOnAbsentKey :
    (∃ s : State, s.Inv ∧ s.params.srcSize < s.args.a0.toNat + s.args.a1.toNat)
    ∧ (∃ s : State, s.Inv ∧ Offered s [] ∧ Absent s 1 9 ∧ s.args.a5.toNat = 0)
    ∧ (∃ s : State, s.Inv ∧ Offered s (letters.take 3) ∧ Absent s 1 9 ∧ s.args.a5.toNat < s.args.a4.toNat + s.args.a1.toNat)
    ∧ (∃ s : State, s.Inv ∧ Offered s letters ∧ Absent s 1 9 ∧ s.args.a5.toNat ≠ 0 ∧ s.args.a1.toNat ≠ 0
        ∧ s.args.a4.toNat + s.args.a1.toNat ≤ s.args.a5.toNat ∧ s.params.crMaxTotal < s.args.a5.toNat)
    ∧ (∃ s : State, s.Inv ∧ Offered s letters ∧ Absent s 1 9 ∧ s.args.a5.toNat ≠ 0 ∧ s.args.a1.toNat ≠ 0
        ∧ s.args.a4.toNat + s.args.a1.toNat ≤ s.args.a5.toNat ∧ ∀ sl ∈ s.slots, sl.valid = true)
    ∧ (∃ s : State, s.Inv ∧ Offered s letters ∧ Absent s 1 9 ∧ s.args.a5.toNat ≤ s.params.crMaxTotal ∧ 1 < s.slots.length
        ∧ (slotAt s.slots 1).valid = false ∧ (∀ j < 1, (slotAt s.slots j).valid = true) ∧ s.args.a1.toNat = s.args.a5.toNat
        ∧ s.params.dstSize < s.args.a2.toNat + s.args.a5.toNat)
    ∧ (∃ s : State, s.Inv ∧ Offered s letters ∧ Absent s 1 9 ∧ s.args.a5.toNat ≤ s.params.crMaxTotal ∧ 1 < s.slots.length
        ∧ (slotAt s.slots 1).valid = false ∧ (∀ j < 1, (slotAt s.slots j).valid = true) ∧ s.args.a1.toNat = s.args.a5.toNat
        ∧ s.args.a2.toNat + s.args.a5.toNat ≤ s.params.dstSize)
    ∧ ∃ s : State, s.Inv ∧ Offered s letters ∧ Absent s 1 9 ∧ s.args.a5.toNat = s.params.crMaxTotal ∧ 1 < s.slots.length
        ∧ s.args.a4.toNat + s.args.a1.toNat = s.args.a5.toNat
        ∧ (slotAt s.slots 1).valid = false ∧ (∀ j < 1, (slotAt s.slots j).valid = true)
        ∧ s.args.a1.toNat < s.args.a5.toNat :=
  ⟨⟨loaded Config.params 0 [] [4095, 2], ⟨by decide, by decide, by decide, by decide, by decide⟩, by decide⟩,
    ⟨offering oneHeld [] 0 9 0 0, offering_inv (by decide) (by decide), by decide, by decide, by decide⟩,
    ⟨offering oneHeld (letters.take 3) 0 9 8 10, offering_inv (by decide) (by decide), by decide, by decide, by decide⟩,
    ⟨offering oneHeld letters 0 9 0 1025, offering_inv (by decide) (by decide), by decide, by decide, by decide, by decide,
      by decide, by decide⟩,
    ⟨offering bothHeld letters 0 9 0 10, offering_inv (by decide) (by decide), by decide, by decide, by decide, by decide,
      by decide, by decide⟩,
    ⟨offering oneHeld letters 4087 9 0 10, offering_inv (by decide) (by decide), by decide, by decide, by decide, by decide,
      by decide, by decide, by decide, by decide⟩,
    ⟨offering oneHeld letters 4086 9 0 10, offering_inv (by decide) (by decide), by decide, by decide, by decide, by decide,
      by decide, by decide, by decide, by decide⟩,
    ⟨offering oneHeld letters 0 9 1014 1024, offering_inv (by decide) (by decide), by decide, by decide, by decide, by decide,
      by decide, by decide, by decide, by decide⟩⟩

/-- The held key 7: another total (CR6), one byte of overlap (CR4); its last six bytes, with a DST one byte too short
(CR18) and one just long enough (CR14); two of them. -/
theorem witness_CrRecvOnOpenEntry :
    (∃ (s : State) (sl : Slot), s.Inv ∧ Offered s (letters.take 4) ∧ FillingAt s 0 sl (s.args.a6.setWidth 16) s.args.a3
      ∧ s.args.a5 ≠ sl.total)
    ∧ (∃ (s : State) (sl : Slot), s.Inv ∧ Offered s (letters.take 4) ∧ FillingAt s 0 sl (s.args.a6.setWidth 16) s.args.a3
      ∧ ∃ j ∈ sl.fill, s.args.a4.toNat ≤ j ∧ j < s.args.a4.toNat + s.args.a1.toNat)
    ∧ (∃ (s : State) (sl : Slot), s.Inv ∧ Offered s (letters.drop 4) ∧ FillingAt s 0 sl (s.args.a6.setWidth 16) s.args.a3
      ∧ s.args.a5 = sl.total ∧ s.args.a1.toNat ≠ 0 ∧ s.args.a4.toNat + s.args.a1.toNat ≤ s.args.a5.toNat
      ∧ (∀ j ∈ sl.fill, ¬ (s.args.a4.toNat ≤ j ∧ j < s.args.a4.toNat + s.args.a1.toNat)) ∧ s.args.a1.toNat = sl.rem.toNat
      ∧ s.params.dstSize < s.args.a2.toNat + s.args.a5.toNat)
    ∧ (∃ (s : State) (sl : Slot), s.Inv ∧ Offered s (letters.drop 4) ∧ FillingAt s 0 sl (s.args.a6.setWidth 16) s.args.a3
      ∧ s.args.a5 = sl.total ∧ s.args.a1.toNat ≠ 0 ∧ s.args.a4.toNat + s.args.a1.toNat ≤ s.args.a5.toNat
      ∧ (∀ j ∈ sl.fill, ¬ (s.args.a4.toNat ≤ j ∧ j < s.args.a4.toNat + s.args.a1.toNat)) ∧ s.args.a1.toNat = sl.rem.toNat
      ∧ s.args.a2.toNat + s.args.a5.toNat ≤ s.params.dstSize)
    ∧ ∃ (s : State) (sl : Slot), s.Inv ∧ Offered s (letters.drop 8) ∧ FillingAt s 0 sl (s.args.a6.setWidth 16) s.args.a3
      ∧ s.args.a5 = sl.total ∧ s.args.a1.toNat ≠ 0 ∧ s.args.a4.toNat + s.args.a1.toNat ≤ s.args.a5.toNat
      ∧ (∀ j ∈ sl.fill, ¬ (s.args.a4.toNat ≤ j ∧ j < s.args.a4.toNat + s.args.a1.toNat)) ∧ s.args.a1.toNat ≠ sl.rem.toNat :=
  ⟨⟨offering bothHeld (letters.take 4) 0 7 4 12, _, offering_inv (by decide) (by decide), by decide, ⟨rfl, by decide, by decide, by decide⟩, by decide⟩,
    ⟨offering bothHeld (letters.take 4) 0 7 3 10, _, offering_inv (by decide) (by decide), by decide, ⟨rfl, by decide, by decide, by decide⟩, 3, by decide, by decide⟩,
    ⟨offering bothHeld (letters.drop 4) 4087 7 4 10, _, offering_inv (by decide) (by decide), by decide, ⟨rfl, by decide, by decide, by decide⟩, by decide⟩,
    ⟨offering bothHeld (letters.drop 4) 4086 7 4 10, _, offering_inv (by decide) (by decide), by decide, ⟨rfl, by decide, by decide, by decide⟩, by decide⟩,
    ⟨offering bothHeld (letters.drop 8) 0 7 8 10, _, offering_inv (by decide) (by decide), by decide, ⟨rfl, by decide, by decide, by decide⟩, by decide⟩⟩

/-- CR.RECV with a slot of another packetID and with one of another connection; FC.RECV the same. -/
theorem witness_OtherConnectionsUntouched :
    (∃ (s t : State) (sl : Slot), s.slots[1]? = some sl ∧ sl.valid = true ∧ exec .crRecv s = .next t
      ∧ ¬ (sl.conn = s.args.a6.setWidth 16 ∧ sl.pid = s.args.a3) ∧ sl.conn = s.args.a6.setWidth 16 ∧ t.status = .assembled)
    ∧ (∃ (s t : State) (sl : Slot), s.slots[0]? = some sl ∧ sl.valid = true ∧ exec .crRecv s = .next t
      ∧ ¬ (sl.conn = s.args.a6.setWidth 16 ∧ sl.pid = s.args.a3) ∧ sl.pid = s.args.a3 ∧ t.status = .chunkAccepted)
    ∧ (∃ (s t : State) (sl : Slot), s.slots[0]? = some sl ∧ sl.valid = true ∧ exec .fcRecv s = .next t
      ∧ (∀ (h : HdrRegs) (u : Unstuffed), ValidFrameAt s h u → h.flags.getLsbD 2 = true →
          ¬ (sl.conn = s.connId ∧ sl.pid = (parseMeta h.flags u.content).1.pktid))
      ∧ sl.conn = s.connId ∧ t.status = .chunkAccepted)
    ∧ ∃ (s t : State) (sl : Slot), s.slots[0]? = some sl ∧ sl.valid = true ∧ exec .fcRecv s = .next t
      ∧ (∀ (h : HdrRegs) (u : Unstuffed), ValidFrameAt s h u → h.flags.getLsbD 2 = true →
          ¬ (sl.conn = s.connId ∧ sl.pid = (parseMeta h.flags u.content).1.pktid))
      ∧ sl.pid = chunkMeta.pktid ∧ t.status = .chunkAccepted := by
  refine ⟨⟨offering bothHeld (letters.drop 4) 0 7 4 10, _, _, rfl, rfl, rfl, by decide, by decide, by decide⟩,
    ⟨offering [slotWith 2 7 10 0 (letters.take 4) 2, Slot.reset] (letters.take 4) 0 7 0 10, _, _, rfl, rfl, rfl, by decide,
      by decide, by decide⟩,
    ⟨withSlots (holding chunkFrame [200]) [slotWith 0 2 10 0 (letters.take 4) 2, Slot.reset], _, _, rfl, rfl, rfl,
      fun h u hv _ hk => ?_, by decide, by decide⟩,
    ⟨withSlots (holding chunkFrame [200]) [slotWith 5 1 10 0 (letters.take 4) 2, Slot.reset], _, _, rfl, rfl, rfl,
      fun h u _ _ hk => absurd hk.1 (by decide), by decide, by decide⟩⟩
  have hc : ValidFrameAt (withSlots (holding chunkFrame [200]) [slotWith 0 2 10 0 (letters.take 4) 2, Slot.reset])
      chunkHdr ⟨chunkContent, 0x511B, 0x511B⟩ :=
    ⟨⟨headerAt_of chunkFrame (by decide) (by decide), ⟨by decide, by decide, by decide⟩, by decide, by decide⟩,
      ⟨(chunkFrame.drop 7).take 21, by decide, by decide, by decide⟩, by decide, by decide⟩
  obtain ⟨rfl, rfl⟩ := validFrameAt_unique hv hc
  exact absurd hk.2 (by decide)

/-- A timed FCU with a slot one tick from eviction, an invalid slot, and a tick to come; an untimed one. -/
theorem witness_TickAgesAndEvicts :
    (∃ (s : State) (rest : List HostAction) (sl sl' : Slot), s.Inv ∧ s.inputs = .tick :: rest ∧ s.params.crTimed = true
      ∧ s.slots[0]? = some sl ∧ sl.valid = true ∧ s.slots[1]? = some sl' ∧ sl'.valid = false
      ∧ s.params.crIdleTicks ≤ sl.idle.toNat + 1)
    ∧ ∃ s : State, s.Inv ∧ s.params.crTimed = false :=
  ⟨⟨withSlots (awaiting [.tick]) oneHeld, [], _, _, ⟨by decide, by decide, by decide, by decide, by decide⟩, rfl, rfl, rfl, rfl, rfl,
      rfl, by decide⟩,
    ⟨State.resetWith { Config.params with crTimed := false }, ⟨by decide, by decide, by decide, by decide, by decide⟩, rfl⟩⟩

theorem witness_EvictedOnTheLastIdleTick : ∃ (s : State) (sl : Slot), s.Inv ∧ s.params.crTimed = true
    ∧ s.slots[1]? = some sl ∧ sl.valid = true ∧ sl.idle = 0 :=
  ⟨withSlots State.reset bothHeld, _, ⟨by decide, by decide, by decide, by decide, by decide⟩, rfl, rfl, rfl, rfl⟩

theorem witness_EvictconnReleasesConnection : ∃ (s : State) (sl : Slot), s.slots[0]? = some sl ∧ sl.valid = true
    ∧ sl.conn = s.args.a0.setWidth 16 :=
  ⟨{ withSlots State.reset bothHeld with args := argsOf [0x10001] }, _, rfl, rfl, by decide⟩

theorem witness_DisconnectEvictsConnection : ∃ s : State, s.inputs = assemble [.disconnect 0x10001] ∧ slotsUsed s.slots = 2 :=
  ⟨withSlots (awaiting (assemble [.disconnect 0x10001])) bothHeld, rfl, by decide⟩

/-- CR1 to CR3: three chunks, out of order, of a ten-byte payload, with one free slot and a DST it just fits. -/
theorem witness_ReassemblyIsComplete : ∃ (s : State) (d : Nat) (cs : List (Nat × List Byte)), s.Inv ∧ 1 ≤ letters.length
    ∧ letters.length ≤ s.params.crMaxTotal ∧ d + letters.length = s.params.dstSize ∧ Tiles letters cs
    ∧ (∀ c ∈ cs, c.2.length ≤ s.params.srcSize) ∧ Absent s 1 9 ∧ ∃ sl ∈ s.slots, sl.valid = false :=
  ⟨withSlots State.reset oneHeld, 4086, [(4, (letters.drop 4).take 4), (8, letters.drop 8), (0, letters.take 4)],
    ⟨by decide, by decide, by decide, by decide, by decide⟩, by decide, by decide, by decide,
    ⟨by decide, by decide, by decide, by decide, by decide⟩, by decide, by decide, by decide⟩

end Sys2Proof.Tests
end

section
/-! The proofs of the scope chapter's statements: the ring's capacity (00 R8), the checksum in closed form (00 R12),
and that the model's byte stuffing is the spec's loops (00 R13, R14, R17, R18). -/

namespace Sys2Proof.Proofs.Scope

open Sys2Proof Sys2Proof.Machine Sys2Proof.Claims

/-! ## The ring's capacity (00 R8) -/

/-- Settles O9: the doubling search's own specification, and each smaller power of two is below RB_CAP_REQ. -/
theorem ringCapacityIsLeastPowerOfTwo : Obligations.RingCapacityIsLeastPowerOfTwo := by
  intro p hp
  have hreq : p.rbCapReq ≤ 2 ^ 30 * 1 := by simpa using (wellFormed_rbCapReq hp).2
  obtain ⟨k, hcap, -, hle, hleast⟩ := leastPow2_spec 30 Nat.one_pos hreq
  simp only [Nat.mul_one] at hcap hle hleast
  exact ⟨k, hcap, hle, fun j hj => not_lt.mp fun hlt => absurd hj (hleast j hlt).not_ge⟩

/-! ## The checksum in closed form (00 R12) -/

/-- The sum of each byte times its distance from the end, as the closed form of R12's second sum writes it. -/
def distanceSum (s : List Byte) : Nat :=
  ((List.range s.length).map (fun i => (s.length - i) * byteAt s i)).sum

theorem distanceSum_cons (b : Byte) (s : List Byte) :
    distanceSum (b :: s) = (s.length + 1) * b.toNat + distanceSum s := by
  simp [distanceSum, List.range_succ_eq_map, Function.comp_def, byteAt]

/-- R12's loop from any two sums: the first sum enters the second once for each byte to come. -/
theorem f16From_closedForm {s1 s2 : Nat} (h1 : s1 < 255) (h2 : s2 < 255) (s : List Byte) :
    f16From s1 s2 s % 256 = (s1 + (s.map BitVec.toNat).sum) % 255
      ∧ f16From s1 s2 s / 256 = (s2 + s.length * s1 + distanceSum s) % 255 := by
  induction s generalizing s1 s2 with
  | nil => simp [f16From, distanceSum]; omega
  | cons b s ih =>
    obtain ⟨hlow, hhigh⟩ := ih (s1 := (s1 + b.toNat) % 255) (s2 := (s2 + (s1 + b.toNat) % 255) % 255)
      (Nat.mod_lt _ (by decide)) (Nat.mod_lt _ (by decide))
    rw [f16From, hlow, hhigh, distanceSum_cons, List.map_cons, List.sum_cons, List.length_cons]
    refine ⟨by omega, ?_⟩
    change _ ≡ _ [MOD 255]
    have hs1 : (s1 + b.toNat) % 255 ≡ s1 + b.toNat [MOD 255] := Nat.mod_modEq _ _
    have hs2 : (s2 + (s1 + b.toNat) % 255) % 255 ≡ s2 + (s1 + b.toNat) [MOD 255] :=
      (Nat.mod_modEq _ _).trans (hs1.add_left s2)
    calc _ ≡ s2 + (s1 + b.toNat) + s.length * (s1 + b.toNat) + distanceSum s [MOD 255] :=
          (hs2.add (hs1.mul_left _)).add_right _
      _ = s2 + (s.length + 1) * s1 + ((s.length + 1) * b.toNat + distanceSum s) := by ring

/-- 255 is 0 mod 255, so the last round adds the same for 0xFF as for 0x00. -/
theorem f16From_append_ff (s1 s2 : Nat) (s : List Byte) :
    f16From s1 s2 (s ++ [0xFF#8]) = f16From s1 s2 (s ++ [0x00#8]) := by
  induction s generalizing s1 s2 with
  | nil => simp [f16From]
  | cons b s ih => exact ih _ _

/-- Settles O28: R12's loop started from two zero sums. -/
theorem f16ClosedForm : Obligations.F16ClosedForm := by
  refine ⟨fun s => ?_, f16From_append_ff 0 0⟩
  simpa [f16, distanceSum] using f16From_closedForm (s1 := 0) (s2 := 0) (by decide) (by decide) s

/-! ## COBS is R13's loop -/

/-- The variables `out`, `ci` and `code` of R13's loop when `p` is what is written of the closed groups, `x` stands at
the open code byte, and `g` is the data of the open group. -/
def openGroup (p : List Byte) (x : Byte) (g : List Byte) : List Byte × Nat × Nat :=
  (p ++ x :: g, p.length, g.length + 1)

/-- The end of R13: the open group's code byte is written. -/
def cobsClose (v : List Byte × Nat × Nat) : List Byte := v.1.set v.2.1 (BitVec.ofNat 8 v.2.2)

theorem cobsLoop_eq_cobsClose (d : List Byte) : cobsLoop d = cobsClose (d.foldl cobsRound (openGroup [] 0x00#8 [])) := rfl

theorem cobsClose_openGroup (p : List Byte) (x : Byte) (g : List Byte) :
    cobsClose (openGroup p x g) = p ++ BitVec.ofNat 8 (g.length + 1) :: g := by
  simp [cobsClose, openGroup]

theorem cobsRound_zero (p : List Byte) (x : Byte) (g : List Byte) :
    cobsRound (openGroup p x g) 0#8 = openGroup (p ++ BitVec.ofNat 8 (g.length + 1) :: g) 0x00#8 [] := by
  simp [cobsRound, openGroup]

theorem cobsRound_full {b : Byte} {g : List Byte} (hb : b ≠ 0#8) (hg : g.length + 2 = 0xFF) (p : List Byte) (x : Byte) :
    cobsRound (openGroup p x g) b = openGroup (p ++ 0xFF#8 :: (g ++ [b])) 0x00#8 [] := by
  simp [cobsRound, openGroup, hb, hg]

theorem cobsRound_data {b : Byte} {g : List Byte} (hb : b ≠ 0#8) (hg : g.length + 2 ≠ 0xFF) (p : List Byte) (x : Byte) :
    cobsRound (openGroup p x g) b = openGroup p x (g ++ [b]) := by
  simp [cobsRound, openGroup, hb, hg]

/-- The loop from any open group: the closed groups stay, and the rest is the model's. -/
theorem cobsClose_foldl_cobsRound (p : List Byte) (x : Byte) (g d : List Byte) :
    cobsClose (d.foldl cobsRound (openGroup p x g)) = p ++ cobsFrom g d := by
  induction d generalizing p x g with
  | nil => exact cobsClose_openGroup p x g
  | cons b d ih =>
    rw [List.foldl_cons, cobsFrom]
    by_cases hb : b = 0#8
    · rw [if_pos hb, hb, cobsRound_zero, ih, List.append_assoc]
    · rw [if_neg hb]
      by_cases hg : g.length + 2 = 0xFF
      · rw [if_pos hg, cobsRound_full hb hg, ih, List.append_assoc]
      · rw [if_neg hg, cobsRound_data hb hg, ih]

theorem cobs_eq_cobsLoop (d : List Byte) : cobs d = cobsLoop d := by
  rw [cobsLoop_eq_cobsClose, cobsClose_foldl_cobsRound, List.nil_append, cobs]

/-! ## UNCOBS is R14's loops

The model writes the zero that a group owes in front of the next group; the loop writes it behind the group, when
another one follows. -/

/-- The zero that the loop has already written at `i`; `z` says that the group before owes one. -/
def owedZero (e : List Byte) (i : Nat) (z : Bool) : List Byte := if z = true ∧ i < e.length then [0x00#8] else []

theorem uncobsFrom_cons_zero (k : Nat) (z : Bool) (e : List Byte) : uncobsFrom k z (0#8 :: e) = none := by
  simp [uncobsFrom]

theorem uncobsFrom_cons_code {c : Byte} (hc : c ≠ 0#8) (z : Bool) (e : List Byte) :
    uncobsFrom 0 z (c :: e) =
      (uncobsFrom (c.toNat - 1) (c != 0xFF#8) e).map ((if z then [0x00#8] else []) ++ ·) := by
  cases z <;> simp [uncobsFrom, hc]

theorem uncobsFrom_cons_data {b : Byte} (hb : b ≠ 0#8) (k : Nat) (z : Bool) (e : List Byte) :
    uncobsFrom (k + 1) z (b :: e) = (uncobsFrom k z e).map (b :: ·) := by
  simp [uncobsFrom, hb]

/-- The inner loop copies the rest of the open group, or fails where the model does. -/
theorem uncobsFrom_eq_uncobsCopy_bind (e : List Byte) (z : Bool) (n i : Nat) (out : List Byte) :
    (uncobsFrom n z (e.drop i)).map (out ++ ·) =
      (uncobsCopy e n i out).bind (fun v => (uncobsFrom 0 z (e.drop v.1)).map (v.2 ++ ·)) := by
  induction n generalizing i out with
  | zero => rfl
  | succ n ih =>
    rw [uncobsCopy]
    by_cases hi : i < e.length
    · rw [List.getElem?_eq_getElem hi, List.drop_eq_getElem_cons hi]
      by_cases hb : e[i] = 0#8
      · simp only [hb, if_true, uncobsFrom_cons_zero, Option.map_none, Option.bind_none]
      · simp only [if_neg hb, uncobsFrom_cons_data hb, ← ih, Option.map_map, Function.comp_def, List.append_assoc,
          List.singleton_append]
    · rw [List.getElem?_eq_none (by omega), List.drop_eq_nil_of_le (by omega)]
      rfl

theorem uncobsCopy_le {e : List Byte} {n i j : Nat} {out out' : List Byte}
    (h : uncobsCopy e n i out = some (j, out')) : i ≤ j := by
  induction n generalizing i out with
  | zero => cases h; exact Nat.le_refl _
  | succ n ih =>
    rw [uncobsCopy] at h
    split at h
    · cases h
    · split at h
      · cases h
      · exact Nat.le_of_succ_le (ih h)

/-- One round of the outer loop that meets a code byte. -/
theorem uncobsLoop_code {e : List Byte} {i : Nat} (hi : i < e.length) (hc : e[i] ≠ 0#8) (fuel : Nat) (out : List Byte) :
    uncobsLoop e (fuel + 1) i out =
      (uncobsCopy e (e[i].toNat - 1) (i + 1) out).bind
        (fun v => uncobsLoop e fuel v.1 (v.2 ++ owedZero e v.1 (e[i] != 0xFF#8))) := by
  rw [uncobsLoop, List.getElem?_eq_getElem hi]
  simp only [if_neg hc]
  cases uncobsCopy e (e[i].toNat - 1) (i + 1) out with
  | none => rfl
  | some v => simp only [Option.bind_some, owedZero, bne_iff_ne]; split <;> simp

/-- The outer loop at any code byte, with enough rounds left, gives what the model gives for the rest. -/
theorem uncobsLoop_eq_uncobsFrom {e : List Byte} {fuel i : Nat} (hf : e.length - i < fuel) (z : Bool) (out : List Byte) :
    uncobsLoop e fuel i (out ++ owedZero e i z) = (uncobsFrom 0 z (e.drop i)).map (out ++ ·) := by
  induction fuel generalizing i z out with
  | zero => omega
  | succ fuel ih =>
    by_cases hi : i < e.length
    · by_cases hc : e[i] = 0#8
      · simp only [uncobsLoop, List.getElem?_eq_getElem hi, hc, if_true, List.drop_eq_getElem_cons hi,
          uncobsFrom_cons_zero, Option.map_none]
      · have hz : owedZero e i z = if z then [0x00#8] else [] := by simp [owedZero, hi]
        have hcopy := uncobsFrom_eq_uncobsCopy_bind e (e[i] != 0xFF#8) (e[i].toNat - 1) (i + 1) (out ++ owedZero e i z)
        simp only [uncobsLoop_code hi hc, List.drop_eq_getElem_cons hi, uncobsFrom_cons_code hc, Option.map_map,
          Function.comp_def, ← hz, ← List.append_assoc, hcopy]
        cases hv : uncobsCopy e (e[i].toNat - 1) (i + 1) (out ++ owedZero e i z) with
        | none => rfl
        | some v =>
          have hle : i + 1 ≤ v.1 := uncobsCopy_le hv
          exact ih (by omega) _ v.2
    · rw [uncobsLoop, List.getElem?_eq_none (by omega), List.drop_eq_nil_of_le (by omega)]
      simp [owedZero, hi, uncobsFrom]

theorem uncobs_eq_uncobsLoop (e : List Byte) : uncobs e = uncobsLoop e (e.length + 1) 0 [] := by
  simpa [uncobs, owedZero] using (uncobsLoop_eq_uncobsFrom (e := e) (i := 0) (Nat.lt_succ_self _) false []).symm

/-! ## STUFF and UNSTUFF (00 R17, R18) -/

theorem le16_eq_mod_div (v : Nat) : le16 v = [BitVec.ofNat 8 (v % 256), BitVec.ofNat 8 (v / 256)] := by
  simp [le16, ← BitVec.toNat_inj]

theorem le16_toNat (lo hi : Byte) : le16 (lo.toNat + 256 * hi.toNat) = [lo, hi] := by
  simp only [le16, List.cons.injEq, and_true, ← BitVec.toNat_inj, BitVec.toNat_ofNat]
  omega

theorem splitChecksum_bytes (c : List Byte) (lo hi : Byte) :
    splitChecksum (c ++ [lo, hi]) = { content := c, carried := lo.toNat + 256 * hi.toNat, computed := f16 c } := by
  rw [← le16_toNat, splitChecksum_append, Nat.mod_eq_of_lt (by omega)]

/-- Settles O29: both loops are the model's recursions, and STUFF and UNSTUFF are built on those. -/
theorem stuffingIsTheSpecsLoops : Obligations.StuffingIsTheSpecsLoops := by
  refine ⟨cobs_eq_cobsLoop, uncobs_eq_uncobsLoop, fun c => ?_, fun e => ?_⟩
  · rw [stuff, cobs_eq_cobsLoop, le16_eq_mod_div]
  · rw [← uncobs_eq_uncobsLoop]
    refine ⟨fun h => unstuff_eq_none.mpr (.inl h), fun r h hr => unstuff_eq_none.mpr (.inr ⟨r, h, hr⟩),
      fun c lo hi h => unstuff_eq_some.mpr ⟨_, h, by simp, (splitChecksum_bytes c lo hi).symm⟩⟩

end Sys2Proof.Proofs.Scope
end

section
/-! How a step takes the next action apart, and that every operation, command and action keeps the invariants of
10_state.md (R38, R46, R47). -/

namespace Sys2Proof.Machine

variable {s t : State}

/-! ## One step, taken apart (60 R193) -/

/-- A step performs the action that is next, with the actions after it still to come. -/
theorem step_of_inputs {a : HostAction} {rest : List HostAction} (h : s.inputs = a :: rest) :
    step s = perform a (s.withInputs rest) := by
  simp only [step, performNext, h]

/-- A step waits, or it performs the first of the actions to come. -/
theorem step_cases (s : State) : step s = .next s ∨ ∃ a rest, step s = perform a (s.withInputs rest) := by
  cases h : s.inputs with
  | nil => exact .inl (by simp only [step, performNext, h])
  | cons a rest => exact .inr ⟨a, rest, step_of_inputs h⟩

/-- A CMD write performs the command of a legal word, and reports any other as ILLEGAL_CMD (10 R22, 60 R184). -/
theorem performCommand_cases (w : Word) (s : State) :
    (∃ i, decode w = .ok i ∧ performCommand w s = exec i (s.withCmd w))
      ∨ performCommand w s = .next ((s.withCmd w).withStatus .illegalCmd) := by
  unfold performCommand
  cases hd : decode w with
  | ok i => exact .inl ⟨i, rfl, rfl⟩
  | error e => exact .inr rfl

/-- A host write of a CSR is ignored, performs a command, or writes one register (10 R20). -/
theorem hostCsrWrite_cases (addr : Nat) (v : Word) (s : State) :
    hostCsrWrite addr v s = .next s ∨ hostCsrWrite addr v s = performCommand v s
      ∨ ∃ r, hostCsrWrite addr v s = .next (writeCsr r v s) := by
  unfold hostCsrWrite
  split
  · exact .inl rfl
  · exact .inr (.inl rfl)
  · exact .inr (.inr ⟨_, rfl⟩)

/-- A host read of a byte port gives a value, or faults on an unwritten byte of that port's memory (10 R42). -/
theorem hostByteRead_cases (m : Memory) (sp : Space) (size addr : Nat) (s : State) :
    (∃ w, hostByteRead m sp size addr s = .next (s.withReadData w))
      ∨ hostByteRead m sp size addr s = .fault (.unwritten sp addr) := by
  unfold hostByteRead
  split
  · cases m.read addr with
    | some b => exact .inl ⟨_, rfl⟩
    | none => exact .inr rfl
  · exact .inl ⟨_, rfl⟩

/-- A host write of a register changes nothing but the host-written state: CONN_ID, PKT_CTR, ARG and TX (10 R20). -/
theorem writeCsr_frame (r : Csr) (v : Word) (s : State) :
    { writeCsr r v s with connId := s.connId, pktCtr := s.pktCtr, args := s.args, tx := s.tx } = s := by
  cases r <;> rfl

/-! ## The invariants, operation by operation (10 R38, R46, R47) -/

theorem State.inv_iff : s.Inv ↔ s.params.wellFormed = true ∧ s.ring.Inv s.params ∧ s.src.fits s.params.srcSize
    ∧ s.dst.fits s.params.dstSize ∧ SlotsInv s.params s.slots :=
  ⟨fun ⟨hp, hr, hsrc, hdst, hsl⟩ => ⟨hp, hr, hsrc, hdst, hsl⟩, fun ⟨hp, hr, hsrc, hdst, hsl⟩ => ⟨hp, hr, hsrc, hdst, hsl⟩⟩

/-- The invariants are about the parameters, the ring, SRC, DST and the slots alone. -/
theorem State.inv_congr (hp : t.params = s.params) (hr : t.ring = s.ring) (hsrc : t.src = s.src) (hdst : t.dst = s.dst)
    (hsl : t.slots = s.slots) : t.Inv ↔ s.Inv := by
  rw [State.inv_iff, State.inv_iff, hp, hr, hsrc, hdst, hsl]

section
variable (s)
@[simp] theorem State.inv_withStatus (x : Status) : (s.withStatus x).Inv ↔ s.Inv := State.inv_congr rfl rfl rfl rfl rfl
@[simp] theorem State.inv_withCmd (x : Word) : (s.withCmd x).Inv ↔ s.Inv := State.inv_congr rfl rfl rfl rfl rfl
@[simp] theorem State.inv_withPktCtr (x : Word) : (s.withPktCtr x).Inv ↔ s.Inv := State.inv_congr rfl rfl rfl rfl rfl
@[simp] theorem State.inv_withRes0 (x : Nat) : (s.withRes0 x).Inv ↔ s.Inv := State.inv_congr rfl rfl rfl rfl rfl
@[simp] theorem State.inv_withRes1 (x : Nat) : (s.withRes1 x).Inv ↔ s.Inv := State.inv_congr rfl rfl rfl rfl rfl
@[simp] theorem State.inv_withRes2 (x : Nat) : (s.withRes2 x).Inv ↔ s.Inv := State.inv_congr rfl rfl rfl rfl rfl
@[simp] theorem State.inv_withHdr (x : HdrRegs) : (s.withHdr x).Inv ↔ s.Inv := State.inv_congr rfl rfl rfl rfl rfl
@[simp] theorem State.inv_withRx (x : RxRegs) : (s.withRx x).Inv ↔ s.Inv := State.inv_congr rfl rfl rfl rfl rfl
@[simp] theorem State.inv_withEvicts (x : Word) : (s.withEvicts x).Inv ↔ s.Inv := State.inv_congr rfl rfl rfl rfl rfl
@[simp] theorem State.inv_withInputs (x : List HostAction) : (s.withInputs x).Inv ↔ s.Inv :=
  State.inv_congr rfl rfl rfl rfl rfl
@[simp] theorem State.inv_withReadData (x : Word) : (s.withReadData x).Inv ↔ s.Inv := State.inv_congr rfl rfl rfl rfl rfl
@[simp] theorem State.inv_withFreeCtr (x : Nat) : (s.withFreeCtr x).Inv ↔ s.Inv := State.inv_congr rfl rfl rfl rfl rfl
end

theorem State.Inv.withRing (h : s.Inv) {r : Ring} (hr : r.Inv s.params) : (s.withRing r).Inv :=
  ⟨h.params, hr, h.src, h.dst, h.slots⟩

theorem State.Inv.withSrc (h : s.Inv) {m : Memory} (hm : m.fits s.params.srcSize) : (s.withSrc m).Inv :=
  ⟨h.params, h.ring, hm, h.dst, h.slots⟩

theorem State.Inv.withDst (h : s.Inv) {m : Memory} (hm : m.fits s.params.dstSize) : (s.withDst m).Inv :=
  ⟨h.params, h.ring, h.src, hm, h.slots⟩

theorem State.Inv.withSlots (h : s.Inv) {l : List Slot} (hl : SlotsInv s.params l) : (s.withSlots l).Inv :=
  ⟨h.params, h.ring, h.src, h.dst, hl⟩

theorem State.Inv.advance (h : s.Inv) {k : Nat} (hk : k ≤ s.ring.cnt) : (s.advance k).Inv :=
  h.withRing (ringInv_advance h.ring hk)

theorem State.Inv.ringAppend (h : s.Inv) {bs : List Byte} (hb : s.ring.cnt + bs.length ≤ ringCap s.params) :
    (s.ringAppend bs).Inv := h.withRing (ringInv_append h.ring hb)

/-- Bytes written to a range of DST that passed the range check keep the invariants. -/
theorem State.Inv.writeDst (h : s.Inv) {d : Nat} {bs : List Byte} (hd : inDst s d bs.length) :
    (s.withDst (s.dst.writeBytes d bs)).Inv := h.withDst (Memory.fits_writeBytes h.dst hd)

theorem State.Inv.tickSlots (h : s.Inv) : s.tickSlots.Inv := by
  obtain ⟨slots, ev, ht⟩ := tickSlots_frame s
  have hs := tickSlots_slots_inv h.params h.slots
  rw [ht] at hs ⊢
  exact (State.inv_withEvicts _ _).mpr (h.withSlots hs)

/-- The slots and DST that CRCORE gives keep the invariants. -/
theorem State.Inv.crCore (h : s.Inv) {conn : Half} {pid : Word} {off tot d x : Nat} {data : List Byte} {st : Status}
    {slots : List Slot} {dst : Memory} (hr : crCore s conn pid off tot data d = .ok (.done st x slots dst)) :
    ((s.withSlots slots).withDst dst).Inv := by
  obtain ⟨hslots, hdst⟩ := crCore_inv h.params h.slots h.dst hr
  exact (h.withSlots hslots).withDst hdst

theorem State.Inv.writeCsr (h : s.Inv) (r : Csr) (v : Word) : (writeCsr r v s).Inv := by
  rw [← writeCsr_frame r v s] at h
  refine (State.inv_congr ?_ ?_ ?_ ?_ ?_).mp h <;> rfl

theorem State.Inv.hostSrcWrite (h : s.Inv) (addr b : Nat) : (hostSrcWrite addr b s).Inv := by
  unfold Machine.hostSrcWrite
  split
  · exact h.withSrc (Memory.fits_write h.src ‹_›)
  · exact h

/-- A released or an untouched slot: what CR.EVICTCONN makes of every slot (43 R160). -/
theorem SlotsInv.evictConn {p : Params} {slots : List Slot} (h : SlotsInv p slots) (c : Half) :
    SlotsInv p (slots.map (fun sl => if sl.ofConn c then sl.release else sl)) := by
  refine h.map (fun sl hsl => ?_) (fun sl => ?_)
  · split
    · exact hsl.release
    · exact hsl
  · split <;> simp [Slot.release]

/-! ## The reset state (10 R49) -/

/-- CR_SLOTS invalid slots hold no key and no byte. -/
theorem slotsInv_reset (p : Params) : SlotsInv p (List.replicate p.crSlots Slot.reset) := by
  refine ⟨List.length_replicate, fun sl hsl => ?_, List.pairwise_replicate.mpr (.inr (.of_invalid rfl))⟩
  rw [List.eq_of_mem_replicate hsl]
  exact ⟨Memory.fits_nil _, fun hv => absurd hv Bool.false_ne_true⟩

theorem State.inv_resetWith {p : Params} (h : p.wellFormed = true) : (State.resetWith p).Inv :=
  ⟨h, ⟨Memory.fits_nil _, ringCap_pos p, Nat.zero_le _, fun _ hi => absurd hi (Nat.not_lt_zero _)⟩, Memory.fits_nil _,
    Memory.fits_nil _, slotsInv_reset p⟩

theorem State.Inv.afterReset (h : s.Inv) : s.afterReset.Inv := by
  refine (State.inv_congr ?_ ?_ ?_ ?_ ?_).mpr (State.inv_resetWith h.params) <;> rfl

/-! ## FC.RECV keeps the invariants (42 R135) -/

theorem recvFail_keeps_inv {code : Status} (h : s.Inv) (hr : recvFail code s = .ok t) : t.Inv := by
  obtain ⟨found, k, hscan, rfl⟩ := recvFail_eq_ok.mp hr
  simpa using h.advance (scan_le hscan)

theorem recvDone_inv (h : s.Inv) (hl : hdrSize + s.hdr.len.toNat ≤ s.ring.cnt) (m : MetaFields) (plen : Nat)
    (u : Unstuffed) (v : Nat) (st : Status) : (recvDone s m plen u v st).Inv := by
  simp only [recvDone, State.inv_withStatus, State.inv_withRes0, State.inv_withRes1]
  exact ((State.inv_withRx s _).mpr h).advance hl

theorem recvDeliver_keeps_inv {s0 : State} {u : Unstuffed} (h0 : s0.Inv) (h : s.Inv)
    (hl : hdrSize + s.hdr.len.toNat ≤ s.ring.cnt) (hr : recvDeliver s0 s u = .ok t) : t.Inv := by
  have hrefused : (s0.withStatus .outOfRange).Inv := (State.inv_withStatus _ _).mpr h0
  rcases recvDeliver_cases hr with ⟨-, hd, rfl⟩ | ⟨-, -, rfl⟩ | ⟨-, r, hcr, ⟨-, rfl⟩ | ⟨st, x, slots, dst, rfl, rfl⟩⟩
  · exact recvDone_inv (h.writeDst hd) hl _ _ _ _ _
  · exact hrefused
  · exact hrefused
  · exact recvDone_inv (h.crCore hcr) hl _ _ _ _ _

theorem recvFrame_keeps_inv {s0 : State} (h0 : s0.Inv) (h : s.Inv) (hl : hdrSize + s.hdr.len.toNat ≤ s.ring.cnt)
    (hr : recvFrame s0 s = .ok t) : t.Inv := by
  obtain ⟨region, -, ⟨-, hf⟩ | ⟨r, -, -, ⟨-, hf⟩ | ⟨-, hd⟩⟩⟩ := recvFrame_cases hr
  · exact recvFail_keeps_inv h hf
  · exact recvFail_keeps_inv ((State.inv_withRx _ _).mpr h) hf
  · exact recvDeliver_keeps_inv h0 h hl hd

theorem execFcRecv_keeps_inv (h : s.Inv) (hr : execFcRecv s = .next t) : t.Inv := by
  obtain ⟨p, hd, htp, ⟨-, rfl⟩ | ⟨-, hf⟩ | ⟨rfl, hf⟩⟩ := execFcRecv_cases hr
  · simpa using h
  · exact recvFail_keeps_inv ((State.inv_withHdr _ _).mpr h) hf
  · obtain ⟨-, hl, -, -⟩ := tryParse_frame_inv htp
    exact recvFrame_keeps_inv h ((State.inv_withHdr _ _).mpr h) hl hf

/-! ## Every command keeps the invariants -/

@[simp] theorem freeBytes_length (c n : Nat) : (freeBytes c n).length = n := by
  induction n generalizing c with
  | zero => rfl
  | succ n ih => simp [freeBytes, ih]

theorem execRbWrite_keeps_inv (h : s.Inv) (hr : execRbWrite s = .next t) : t.Inv := by
  rcases execRbWrite_eq_next.mp hr with ⟨-, rfl⟩ | ⟨-, bs, hbs, rfl⟩
  · simpa using h
  · have hcnt : s.ring.cnt ≤ ringCap s.params := h.ring.2.2.1
    have hlen := Memory.readBytes_length hbs
    simpa using h.ringAppend (bs := bs) (by omega)

theorem execRbRead_keeps_inv (h : s.Inv) (hr : execRbRead s = .next t) : t.Inv := by
  rcases execRbRead_eq_next.mp hr with ⟨-, rfl⟩ | ⟨-, -, rfl⟩ | ⟨hd, hl, bs, hbs, rfl⟩
  · simpa using h
  · simpa using h
  · simpa using (h.writeDst (ringBytes_length hbs ▸ hd)).advance hl

theorem execRbPeek_keeps_inv (h : s.Inv) (hr : execRbPeek s = .next t) : t.Inv := by
  rcases execRbPeek_eq_next.mp hr with ⟨-, rfl⟩ | ⟨-, -, rfl⟩ | ⟨hd, -, bs, hbs, rfl⟩
  · simpa using h
  · simpa using h
  · simpa using h.writeDst (ringBytes_length hbs ▸ hd)

theorem execPcEncode_keeps_inv (h : s.Inv) (hr : execPcEncode s = .next t) : t.Inv := by
  rcases execPcEncode_eq_next.mp hr with ⟨-, rfl⟩ | ⟨-, c, -, ⟨-, rfl⟩ | ⟨hd, rfl⟩⟩
  · simpa using h
  · simpa using h
  · simpa using h.writeDst hd

theorem execPcDecode_keeps_inv (h : s.Inv) (hr : execPcDecode s = .next t) : t.Inv := by
  rcases execPcDecode_eq_next.mp hr with ⟨-, rfl⟩ | ⟨-, hd, region, hb, ⟨-, rfl⟩ | ⟨u, hu, rfl⟩⟩
  · simpa using h
  · simpa using h.writeDst (bs := freeBytes s.freeCtr (opArg1 s)) (by simpa using hd)
  · have hlen := Memory.readBytes_length hb
    have hu := unstuff_length hu
    simpa using h.writeDst (d := opArg2 s) (bs := u.content) (by simp only [inDst] at *; omega)

theorem execFcBuild_keeps_inv (h : s.Inv) (hr : execFcBuild s = .next t) : t.Inv := by
  rcases execFcBuild_eq_next.mp hr with ⟨-, rfl⟩ | ⟨-, p, -, ⟨-, rfl⟩ | ⟨f, -, ⟨-, rfl⟩ | ⟨hd, rfl⟩⟩⟩
  · simpa using h
  · simpa using h
  · simpa using h
  · simpa using h.writeDst hd

theorem execFcSend_keeps_inv (h : s.Inv) (hr : execFcSend s = .next t) : t.Inv := by
  rcases execFcSend_eq_next.mp hr with ⟨-, rfl⟩ | ⟨-, ⟨-, rfl⟩ | ⟨-, p, -, out, -, ⟨-, rfl⟩ | ⟨hd, rfl⟩⟩⟩
  · simpa using h
  · simpa using h
  · simpa using h
  · simpa using h.writeDst hd

theorem execCrRecv_keeps_inv (h : s.Inv) (hr : execCrRecv s = .next t) : t.Inv := by
  rcases execCrRecv_eq_next.mp hr with ⟨-, rfl⟩ | ⟨-, data, -, r, hcr, ⟨-, rfl⟩ | ⟨st, x, slots, dst, rfl, rfl⟩⟩
  · simpa using h
  · simpa using h
  · simpa using h.crCore hcr

/-- Every command keeps the invariants. -/
theorem exec_keeps_inv {i : Instr} (h : s.Inv) (hr : exec i s = .next t) : t.Inv := by
  cases i with
  | nop => cases hr; simpa using h
  | rbWrite => exact execRbWrite_keeps_inv h hr
  | rbRead => exact execRbRead_keeps_inv h hr
  | rbPeek => exact execRbPeek_keeps_inv h hr
  | rbPeekb => rcases execRbPeekb_eq_next.mp hr with ⟨-, rfl⟩ | ⟨-, b, -, rfl⟩ <;> simpa using h
  | rbPeekhdr => rcases execRbPeekhdr_eq_next.mp hr with ⟨-, rfl⟩ | ⟨-, bs, -, rfl⟩ <;> simpa using h
  | rbSkipuntil v =>
    obtain ⟨found, k, hscan, rfl⟩ := execRbSkipuntil_eq_next.mp hr
    simpa using h.advance (scan_le hscan)
  | rbClear => cases hr; simpa using h.withRing (ringInv_clear h.ring)
  | pcEncode => exact execPcEncode_keeps_inv h hr
  | pcDecode => exact execPcDecode_keeps_inv h hr
  | pcHcs => cases hr; simpa using h
  | fcBuild => exact execFcBuild_keeps_inv h hr
  | fcSend => exact execFcSend_keeps_inv h hr
  | fcTryparse =>
    obtain ⟨p, hd, -, rfl⟩ := execFcTryparse_eq_next.mp hr
    split <;> simpa using h
  | fcRecv => exact execFcRecv_keeps_inv h hr
  | crRecv => exact execCrRecv_keeps_inv h hr
  | crTick => cases hr; simpa using h.tickSlots
  | crEvictconn => cases hr; simpa using h.withSlots (h.slots.evictConn _)

theorem performCommand_keeps_inv {w : Word} (h : s.Inv) (hr : performCommand w s = .next t) : t.Inv := by
  have hcmd : (s.withCmd w).Inv := (State.inv_withCmd s w).mpr h
  rcases performCommand_cases w s with ⟨i, -, he⟩ | he <;> rw [he] at hr
  · exact exec_keeps_inv hcmd hr
  · cases hr; simpa using h

theorem hostCsrWrite_keeps_inv {addr : Nat} {v : Word} (h : s.Inv) (hr : hostCsrWrite addr v s = .next t) : t.Inv := by
  rcases hostCsrWrite_cases addr v s with he | he | ⟨r, he⟩ <;> rw [he] at hr
  · cases hr; exact h
  · exact performCommand_keeps_inv h hr
  · cases hr; exact h.writeCsr r v

theorem hostByteRead_keeps_inv {m : Memory} {sp : Space} {size addr : Nat} (h : s.Inv)
    (hr : hostByteRead m sp size addr s = .next t) : t.Inv := by
  rcases hostByteRead_cases m sp size addr s with ⟨w, he⟩ | he <;> rw [he] at hr
  · cases hr; simpa using h
  · cases hr

/-- Every action of the host, the tick source and the reset source keeps the invariants. -/
theorem perform_keeps_inv {a : HostAction} (h : s.Inv) (hr : perform a s = .next t) : t.Inv := by
  cases a with
  | csrWrite addr v => exact hostCsrWrite_keeps_inv h hr
  | csrRead addr => cases hr; simpa using h
  | srcWrite addr b => cases hr; exact h.hostSrcWrite addr b
  | srcRead addr => exact hostByteRead_keeps_inv h hr
  | dstRead addr => exact hostByteRead_keeps_inv h hr
  | tick => cases hr; exact h.tickSlots
  | reset => cases hr; exact h.afterReset

end Sys2Proof.Machine
end

section
/-! Where a run can stop (10_state.md R42): a faulting read names the first unwritten byte of its range, and in a state that
meets the invariants a command faults on the SRC bytes it reads and on nothing else. -/

namespace Sys2Proof.Machine

variable {s t : State} {f : Fault}

/-! ## The first unwritten byte of a range (10 R42) -/

/-- The address a faulting read of a range reports: the first of the range that is unwritten. -/
theorem Memory.firstUnwritten_spec {m : Memory} {a n : Nat} (h : ∃ i < n, m.read (a + i) = none) :
    m.read (m.firstUnwritten a n) = none ∧ a ≤ m.firstUnwritten a n
      ∧ ∀ i < n, m.read (a + i) = none → m.firstUnwritten a n ≤ a + i := by
  induction n generalizing a with
  | zero => simp at h
  | succ n ih =>
    rw [Memory.firstUnwritten]
    split
    · rename_i ha
      exact ⟨Option.isNone_iff_eq_none.mp ha, Nat.le_refl a, fun i _ _ => Nat.le_add_right a i⟩
    · rename_i ha
      have hshift : ∀ i, m.read (a + i) = none → ∃ j, i = j + 1 ∧ m.read (a + 1 + j) = none := fun i hi => by
        cases i with
        | zero => exact absurd (Option.isNone_iff_eq_none.mpr hi) ha
        | succ j => exact ⟨j, rfl, by rwa [Nat.add_assoc, Nat.add_comm 1 j]⟩
      obtain ⟨i, hi, hread⟩ := h
      obtain ⟨j, rfl, hj⟩ := hshift i hread
      obtain ⟨hnone, hle, hfirst⟩ := ih (a := a + 1) ⟨j, by omega, hj⟩
      refine ⟨hnone, by omega, fun i hi hread => ?_⟩
      obtain ⟨j, rfl, hj⟩ := hshift i hread
      have := hfirst j (by omega) hj
      omega

/-- A range of a canonical memory cannot be read exactly when one of its bytes is unwritten. -/
theorem Memory.readBytes_eq_none {m : Memory} (hm : m.wf) {a n : Nat} :
    m.readBytes a n = none ↔ ∃ i < n, m.read (a + i) = none := by
  constructor
  · intro h
    by_contra hall
    push Not at hall
    obtain ⟨bs, hbs⟩ := Memory.readBytes_isSome hm fun i hi => Option.isSome_iff_ne_none.mpr (hall i hi)
    simp [h] at hbs
  · rintro ⟨i, hi, hnone⟩
    cases hbs : m.readBytes a n with
    | none => rfl
    | some bs =>
      obtain ⟨hlen, hread⟩ := (Memory.readBytes_eq_some hm).mp hbs
      simp [hread i (by omega)] at hnone

/-- A fetch faults exactly when a byte of its range is unwritten, and then on the first such byte. -/
theorem Memory.fetch_eq_error {m : Memory} (hm : m.wf) {sp : Space} {a n : Nat} :
    m.fetch sp a n = .error f ↔ (∃ i < n, m.read (a + i) = none) ∧ f = .unwritten sp (m.firstUnwritten a n) := by
  rw [← Memory.readBytes_eq_none hm]
  unfold Memory.fetch
  cases m.readBytes a n <;> simp [eq_comm]

/-! ## The commands that read SRC fault on that read alone -/

/-- A command whose check ends it with a next state faults exactly when the check passes and the rest faults. -/
theorem commit_ite_eq_fault {c : Prop} [Decidable c] {r : Except Fault State} :
    commit (if c then .ok t else r) = .fault f ↔ ¬ c ∧ commit r = .fault f := by
  split <;> simp [*]

/-- A command that reads and then always answers faults exactly when the read does. -/
theorem commit_bind_eq_fault {α : Type} {x : Except Fault α} {g : α → Except Fault State}
    (hg : ∀ a, ∃ b, g a = .ok b) : commit (x >>= g) = .fault f ↔ x = .error f := by
  rw [commit_eq_fault, bind_eq_error, or_iff_left]
  rintro ⟨a, -, ha⟩
  obtain ⟨b, hb⟩ := hg a
  simp [hb] at ha

theorem execRbWrite_eq_fault : execRbWrite s = .fault f ↔ inSrc s (opArg0 s) (opArg1 s)
    ∧ s.srcBytes (opArg0 s) (min (opArg1 s) (ringCap s.params - s.ring.cnt)) = .error f :=
  commit_ite_eq_fault.trans <| and_congr not_not <| commit_bind_eq_fault fun _ => ⟨_, rfl⟩

theorem execPcEncode_eq_fault : execPcEncode s = .fault f ↔ inSrc s (opArg0 s) (opArg1 s)
    ∧ s.srcBytes (opArg0 s) (opArg1 s) = .error f :=
  commit_ite_eq_fault.trans <| and_congr not_not <| commit_bind_eq_fault fun _ => by
    dsimp only
    split <;> exact ⟨_, rfl⟩

theorem execPcDecode_eq_fault : execPcDecode s = .fault f ↔
    (inSrc s (opArg0 s) (opArg1 s) ∧ inDst s (opArg2 s) (opArg1 s)) ∧ s.srcBytes (opArg0 s) (opArg1 s) = .error f :=
  commit_ite_eq_fault.trans <| and_congr (by rw [not_or, not_not, not_not]) <| commit_bind_eq_fault fun _ => by
    split <;> exact ⟨_, rfl⟩

theorem execFcBuild_eq_fault : execFcBuild s = .fault f ↔ inSrc s (opArg0 s) (opArg1 s)
    ∧ s.srcBytes (opArg0 s) (opArg1 s) = .error f :=
  commit_ite_eq_fault.trans <| and_congr not_not <| commit_bind_eq_fault fun _ => by
    split
    · exact ⟨_, rfl⟩
    · split <;> exact ⟨_, rfl⟩

theorem execFcSend_eq_fault : execFcSend s = .fault f ↔
    ¬ (flagChk s.tx.flags = true ∨ s.tx.maxpl.toNat < 1 ∨ s.tx.maxpl.toNat > maxplLimit)
    ∧ inSrc s (opArg0 s) (opArg1 s) ∧ s.srcBytes (opArg0 s) (opArg1 s) = .error f :=
  commit_ite_eq_fault.trans <| and_congr_right fun _ => commit_ite_eq_fault.trans <| and_congr not_not <|
    commit_bind_eq_fault fun _ => by
      dsimp only
      split
      · exact ⟨_, rfl⟩
      · split <;> exact ⟨_, rfl⟩

/-- CR.RECV's fault on the bytes of its chunk, which come before everything the reassembler reads (43 R157). -/
theorem execCrRecv_fault_of_src (hin : inSrc s (opArg0 s) (opArg1 s)) (hf : s.srcBytes (opArg0 s) (opArg1 s) = .error f) :
    execCrRecv s = .fault f := by
  simp only [execCrRecv, if_neg (not_not.mpr hin), hf, error_bind, commit_error]

/-- The reassembler always answers in a state that meets the invariants, so CR.RECV faults on its chunk alone. -/
theorem execCrRecv_eq_fault (h : s.Inv) : execCrRecv s = .fault f ↔ inSrc s (opArg0 s) (opArg1 s)
    ∧ s.srcBytes (opArg0 s) (opArg1 s) = .error f :=
  commit_ite_eq_fault.trans <| and_congr not_not <| commit_bind_eq_fault fun data => by
    obtain ⟨r, hr⟩ := crCore_ok h.params h.slots (opRecvConn s) (opPid s) (opOffset s) (opTotal s) data (opArg2 s)
    rw [hr]
    cases r <;> exact ⟨_, rfl⟩

/-! ## The commands that do not read SRC always answer -/

theorem execRbRead_answers (h : s.Inv) : ∃ t, execRbRead s = .next t := by
  by_cases hd : inDst s (opArg0 s) (opArg1 s)
  · by_cases hc : opArg2 s + opArg1 s ≤ s.ring.cnt
    · obtain ⟨bs, hbs⟩ := ringBytes_ok h.ring hc
      exact ⟨_, execRbRead_eq_next.mpr (.inr (.inr ⟨hd, hc, bs, hbs, rfl⟩))⟩
    · exact ⟨_, execRbRead_eq_next.mpr (.inr (.inl ⟨hd, Nat.lt_of_not_le hc, rfl⟩))⟩
  · exact ⟨_, execRbRead_eq_next.mpr (.inl ⟨hd, rfl⟩)⟩

theorem execRbPeek_answers (h : s.Inv) : ∃ t, execRbPeek s = .next t := by
  by_cases hd : inDst s (opArg0 s) (opArg1 s)
  · by_cases hc : opArg2 s + opArg1 s ≤ s.ring.cnt
    · obtain ⟨bs, hbs⟩ := ringBytes_ok h.ring hc
      exact ⟨_, execRbPeek_eq_next.mpr (.inr (.inr ⟨hd, hc, bs, hbs, rfl⟩))⟩
    · exact ⟨_, execRbPeek_eq_next.mpr (.inr (.inl ⟨hd, Nat.lt_of_not_le hc, rfl⟩))⟩
  · exact ⟨_, execRbPeek_eq_next.mpr (.inl ⟨hd, rfl⟩)⟩

theorem execRbPeekb_answers (h : s.Inv) : ∃ t, execRbPeekb s = .next t := by
  by_cases hc : opArg0 s < s.ring.cnt
  · obtain ⟨b, hb⟩ := ringByte_ok h.ring hc
    exact ⟨_, execRbPeekb_eq_next.mpr (.inr ⟨hc, b, hb, rfl⟩)⟩
  · exact ⟨_, execRbPeekb_eq_next.mpr (.inl ⟨Nat.le_of_not_lt hc, rfl⟩)⟩

theorem execRbPeekhdr_answers (h : s.Inv) : ∃ t, execRbPeekhdr s = .next t := by
  by_cases hc : opArg0 s + hdrSize ≤ s.ring.cnt
  · obtain ⟨bs, hbs⟩ := ringBytes_ok h.ring hc
    exact ⟨_, execRbPeekhdr_eq_next.mpr (.inr ⟨hc, bs, hbs, rfl⟩)⟩
  · exact ⟨_, execRbPeekhdr_eq_next.mpr (.inl ⟨Nat.lt_of_not_le hc, rfl⟩)⟩

theorem execRbSkipuntil_answers (h : s.Inv) (v : Byte) : ∃ t, execRbSkipuntil v s = .next t := by
  obtain ⟨⟨found, k⟩, hr⟩ := scan_ok h.ring (opArg0 s) v
  exact ⟨_, execRbSkipuntil_eq_next.mpr ⟨found, k, hr, rfl⟩⟩

theorem execFcTryparse_answers (h : s.Inv) : ∃ t, execFcTryparse s = .next t := by
  obtain ⟨⟨p, hd⟩, hr⟩ := tryParse_ok h.ring
  exact ⟨_, execFcTryparse_eq_next.mpr ⟨p, hd, hr, rfl⟩⟩

/-- A command that reads no SRC byte answers in every state that meets the invariants. -/
theorem exec_answers (h : s.Inv) {i : Instr} (hi : Claims.srcRange s i = none) : ∃ t, exec i s = .next t := by
  cases i with
  | nop => exact ⟨_, rfl⟩
  | rbRead => exact execRbRead_answers h
  | rbPeek => exact execRbPeek_answers h
  | rbPeekb => exact execRbPeekb_answers h
  | rbPeekhdr => exact execRbPeekhdr_answers h
  | rbSkipuntil v => exact execRbSkipuntil_answers h v
  | rbClear => exact ⟨_, rfl⟩
  | pcHcs => exact ⟨_, rfl⟩
  | fcTryparse => exact execFcTryparse_answers h
  | fcRecv => exact execFcRecv_ok h
  | crTick => exact ⟨_, rfl⟩
  | crEvictconn => exact ⟨_, rfl⟩
  | rbWrite | pcEncode | pcDecode | fcBuild | fcSend | crRecv => cases hi

/-! ## Every command -/

/-- A command that reads SRC faults only on that read. -/
theorem srcBytes_of_exec_fault (h : s.Inv) {i : Instr} {a n : Nat} (hr : Claims.srcRange s i = some (a, n))
    (hf : exec i s = .fault f) : s.srcBytes a n = .error f := by
  cases i with
  | rbWrite => cases hr; exact (execRbWrite_eq_fault.mp hf).2
  | pcEncode => cases hr; exact (execPcEncode_eq_fault.mp hf).2
  | pcDecode => cases hr; exact (execPcDecode_eq_fault.mp hf).2
  | fcBuild => cases hr; exact (execFcBuild_eq_fault.mp hf).2
  | fcSend => cases hr; exact (execFcSend_eq_fault.mp hf).2.2
  | crRecv => cases hr; exact ((execCrRecv_eq_fault h).mp hf).2
  | nop | rbRead | rbPeek | rbPeekb | rbPeekhdr | rbSkipuntil | rbClear | pcHcs | fcTryparse | fcRecv | crTick
  | crEvictconn => cases hr

/-- In a state that meets the invariants a command faults only on the SRC bytes it reads. -/
theorem exec_fault_cases (h : s.Inv) {i : Instr} (hf : exec i s = .fault f) :
    ∃ a n, Claims.srcRange s i = some (a, n) ∧ s.srcBytes a n = .error f := by
  cases hr : Claims.srcRange s i with
  | none =>
    obtain ⟨t, ht⟩ := exec_answers h hr
    rw [ht] at hf
    cases hf
  | some r => exact ⟨r.1, r.2, rfl, srcBytes_of_exec_fault h hr hf⟩

/-- A command whose checks pass faults when the read of its SRC bytes does (10 R42). -/
theorem exec_fault_of_srcBytes {i : Instr} {a n : Nat} (hr : Claims.srcRange s i = some (a, n))
    (hin : inSrc s a (opArg1 s)) (hdst : i = .pcDecode → inDst s (opArg2 s) (opArg1 s))
    (hsend : i = .fcSend → ¬ (flagChk s.tx.flags = true ∨ s.tx.maxpl.toNat < 1 ∨ s.tx.maxpl.toNat > maxplLimit))
    (hf : s.srcBytes a n = .error f) : exec i s = .fault f := by
  cases i with
  | rbWrite => cases hr; exact execRbWrite_eq_fault.mpr ⟨hin, hf⟩
  | pcEncode => cases hr; exact execPcEncode_eq_fault.mpr ⟨hin, hf⟩
  | pcDecode => cases hr; exact execPcDecode_eq_fault.mpr ⟨⟨hin, hdst rfl⟩, hf⟩
  | fcBuild => cases hr; exact execFcBuild_eq_fault.mpr ⟨hin, hf⟩
  | fcSend => cases hr; exact execFcSend_eq_fault.mpr ⟨hsend rfl, hin, hf⟩
  | crRecv => cases hr; exact execCrRecv_fault_of_src hin hf
  | nop | rbRead | rbPeek | rbPeekb | rbPeekhdr | rbSkipuntil | rbClear | pcHcs | fcTryparse | fcRecv | crTick
  | crEvictconn => cases hr

/-- Every command ends with the commit of what it computed (60 R187). -/
theorem exec_eq_commit (i : Instr) (s : State) : ∃ r, exec i s = commit r := by
  cases i with
  | nop | rbClear | pcHcs | crTick | crEvictconn => exact ⟨.ok _, rfl⟩
  | rbWrite | rbRead | rbPeek | rbPeekb | rbPeekhdr | rbSkipuntil | pcEncode | pcDecode | fcBuild | fcSend | fcTryparse
  | fcRecv | crRecv => exact ⟨_, rfl⟩

theorem exec_ne_refused (i : Instr) (s : State) (x : Refusal) : exec i s ≠ .refused x := by
  obtain ⟨r, hr⟩ := exec_eq_commit i s
  exact hr ▸ commit_ne_refused r x

/-! ## Safe outcomes -/

/-- Every command ends safely: on a next state, or on an unwritten SRC byte. -/
theorem exec_safe (h : s.Inv) (i : Instr) : SafeOutcome (exec i s) := by
  cases he : exec i s with
  | next t => trivial
  | refused x => exact exec_ne_refused i s x he
  | fault f =>
    obtain ⟨a, n, -, hb⟩ := exec_fault_cases h he
    obtain ⟨-, rfl⟩ := (Memory.fetch_eq_error h.src.1).mp hb
    trivial

theorem performCommand_safe (h : s.Inv) (w : Word) : SafeOutcome (performCommand w s) := by
  rcases performCommand_cases w s with ⟨i, -, he⟩ | he <;> rw [he]
  · exact exec_safe ((State.inv_withCmd s w).mpr h) i
  · trivial

/-- Every action of an outside agent ends safely. -/
theorem perform_safe (h : s.Inv) (a : HostAction) : SafeOutcome (perform a s) := by
  cases a with
  | csrWrite addr v =>
    rw [perform]
    rcases hostCsrWrite_cases addr v s with he | he | ⟨r, he⟩ <;> rw [he]
    · trivial
    · exact performCommand_safe h v
    · trivial
  | srcRead addr =>
    rw [perform]
    rcases hostByteRead_cases s.src .src s.params.srcSize addr s with ⟨w, he⟩ | he <;> rw [he] <;> trivial
  | dstRead addr =>
    rw [perform]
    rcases hostByteRead_cases s.dst .dst s.params.dstSize addr s with ⟨w, he⟩ | he <;> rw [he] <;> trivial
  | csrRead | srcWrite | tick | reset => trivial

end Sys2Proof.Machine
end

section
/-! No command reads STATUS (10_state.md R23): everything a command reads, and so its outcome, is the same under any. -/

namespace Sys2Proof.Machine

section
variable (s : State) (x : Status)

theorem ringBytes_withStatus (i n : Nat) : ringBytes (s.withStatus x) i n = ringBytes s i n :=
  ringBytes_congr (s := s) (t := s.withStatus x) rfl rfl i n

theorem scan_withStatus (skip : Nat) (v : Byte) : scan (s.withStatus x) skip v = scan s skip v :=
  scan_congr (s := s) (t := s.withStatus x) rfl rfl skip v

theorem tryParse_withStatus : tryParse (s.withStatus x) = tryParse s := tryParse_congr (s := s) rfl rfl rfl

theorem crCore_withStatus (conn : Half) (pid : Word) (off tot : Nat) (data : List Byte) (d : Nat) :
    crCore (s.withStatus x) conn pid off tot data d = crCore s conn pid off tot data d :=
  crCore_congr (s := s) rfl rfl rfl rfl ..

theorem tickSlots_withStatus : (s.withStatus x).tickSlots = s.tickSlots.withStatus x := by
  unfold State.tickSlots
  rw [apply_ite (State.withStatus x)]
  rfl

theorem recvFail_withStatus (code : Status) : recvFail code (s.withStatus x) = recvFail code s := by
  simp only [recvFail, scan_withStatus]
  rfl

theorem recvDeliver_withStatus (s0 : State) (x0 : Status) (u : Unstuffed) :
    recvDeliver (s0.withStatus x0) (s.withStatus x) u = recvDeliver s0 s u := by
  simp only [recvDeliver, crCore_withStatus, State.withStatus_hdr]
  rfl

theorem recvFrame_withStatus (s0 : State) (x0 : Status) :
    recvFrame (s0.withStatus x0) (s.withStatus x) = recvFrame s0 s := by
  have hrx : ∀ r, (s.withStatus x).withRx r = (s.withRx r).withStatus x := fun _ => rfl
  simp only [recvFrame, ringBytes_withStatus, State.withStatus_hdr, State.withStatus_rx, hrx, recvFail_withStatus,
    recvDeliver_withStatus]
end

theorem execFcTryparse_withStatus (s : State) (x : Status) : execFcTryparse (s.withStatus x) = execFcTryparse s := by
  simp only [execFcTryparse, tryParse_withStatus]
  congr 2
  funext ⟨p, hd⟩
  dsimp only
  split <;> rfl

theorem execFcRecv_withStatus (s : State) (x : Status) : execFcRecv (s.withStatus x) = execFcRecv s := by
  have hhdr : ∀ hd, (s.withStatus x).withHdr hd = (s.withHdr hd).withStatus x := fun _ => rfl
  simp only [execFcRecv, tryParse_withStatus, hhdr, recvFail_withStatus, recvFrame_withStatus]
  rfl

theorem exec_withStatus (i : Instr) (s : State) (x : Status) : exec i (s.withStatus x) = exec i s := by
  cases i with
  | nop | rbWrite | rbPeekb | rbClear | pcEncode | pcDecode | pcHcs | fcBuild | fcSend | crEvictconn => rfl
  | rbRead => simp only [exec, execRbRead, ringBytes_withStatus]; rfl
  | rbPeek => simp only [exec, execRbPeek, ringBytes_withStatus]; rfl
  | rbPeekhdr => simp only [exec, execRbPeekhdr, ringBytes_withStatus]; rfl
  | rbSkipuntil v => simp only [exec, execRbSkipuntil, scan_withStatus]; rfl
  | fcTryparse => exact execFcTryparse_withStatus s x
  | fcRecv => exact execFcRecv_withStatus s x
  | crRecv => simp only [exec, execCrRecv, crCore_withStatus]; rfl
  | crTick => simp only [exec, execCrTick, tickSlots_withStatus]; rfl
end Sys2Proof.Machine
end

section
/-! The CSR map (10_state.md R20 to R34): which row an address finds, what each row shows, and what a host write keeps and
changes. -/

namespace Sys2Proof.Machine

open Sys2Proof.Claims

/-! ## The rows of the map -/

/-- Every row's address is a multiple of 4, and a lookup of that address finds the row. -/
theorem csrMap_find_addr : ∀ row ∈ csrMap, row.addr % 4 = 0 ∧ csrMap.find? (fun r => r.addr == row.addr) = some row := by
  decide

/-- The registers a plain host write changes are those of the RW rows but CMD's. -/
theorem csrMap_settable : ∀ row ∈ csrMap, row.reg.settable = (row.rw && row.reg != .cmd) := by decide

theorem csrMap_ro_ne_cmd : ∀ row ∈ csrMap, row.rw = false → row.reg ≠ .cmd := by decide

theorem exists_mem_csrMap (r : Csr) : ∃ row ∈ csrMap, row.reg = r := by cases r <;> decide

theorem csrMap_eq_csrTable (s : State) : csrMap = (csrTable s).map Prod.fst := rfl

/-- Each of the four addresses of a row's word finds the row's register (10 R20). -/
theorem csrAt_of_mem {row : CsrRow} (hrow : row ∈ csrMap) {k : Nat} (hk : k < 4) :
    csrAt (row.addr + k) = some row.reg := by
  obtain ⟨hmul, hfind⟩ := csrMap_find_addr row hrow
  have hword : (row.addr + k) / 4 * 4 = row.addr := by omega
  rw [csrAt, hword, hfind]
  rfl

theorem csrAt_eq_none {addr : Nat} (h : ∀ row ∈ csrMap, row.addr ≠ addr / 4 * 4) : csrAt addr = none := by
  rw [csrAt, List.find?_eq_none.mpr fun row hrow => by simpa using h row hrow]
  rfl

section
variable (s : State)

theorem hostCsrRead_of_mem {row : CsrRow} (hrow : row ∈ csrMap) {k : Nat} (hk : k < 4) :
    hostCsrRead (row.addr + k) s = readCsr s row.reg := by
  rw [hostCsrRead, csrAt_of_mem hrow hk]

theorem hostCsrWrite_of_mem {row : CsrRow} (hrow : row ∈ csrMap) {k : Nat} (hk : k < 4) (hcmd : row.reg ≠ .cmd)
    (v : Word) : hostCsrWrite (row.addr + k) v s = .next (writeCsr row.reg v s) := by
  rw [hostCsrWrite, csrAt_of_mem hrow hk]
  split <;> simp_all

theorem hostCsrRead_unmapped {addr : Nat} (h : ∀ row ∈ csrMap, row.addr ≠ addr / 4 * 4) : hostCsrRead addr s = 0 := by
  rw [hostCsrRead, csrAt_eq_none h]

theorem hostCsrWrite_unmapped {addr : Nat} (h : ∀ row ∈ csrMap, row.addr ≠ addr / 4 * 4) (v : Word) :
    hostCsrWrite addr v s = .next s := by
  rw [hostCsrWrite, csrAt_eq_none h]

/-! ## What a row shows (10 R22 to R34, 60 R181) -/

/-- The host reads `w` as the number `v`, which fits `bits` bits. -/
def Shown (bits : Nat) (w : Word) (v : Nat) : Prop := w.toNat = v ∧ v < 2 ^ bits

/-- The host reads the row's register as the row's number, which fits the row's width. -/
abbrev ShowsExactly (p : CsrRow × Nat) : Prop := Shown p.1.bits (readCsr s p.1.reg) p.2

theorem word_shown (w : Word) : Shown 32 w w.toNat := ⟨rfl, w.isLt⟩

theorem half_shown (x : Half) : Shown 16 (x.setWidth 32) x.toNat := ⟨BitVec.toNat_setWidth_of_le (by decide), x.isLt⟩

theorem byte_shown (x : Byte) : Shown 8 (x.setWidth 32) x.toNat := ⟨BitVec.toNat_setWidth_of_le (by decide), x.isLt⟩

theorem Status.code_toNat (x : Status) : x.code.toNat = statusCode x := by cases x <;> rfl

theorem status_shown (x : Status) : Shown 8 (x.code.setWidth 32) (statusCode x) := x.code_toNat ▸ byte_shown x.code

theorem csrTableArgs_shown : ∀ p ∈ csrTableArgs s, ShowsExactly s p := by
  simp only [csrTableArgs, List.forall_mem_cons]
  exact ⟨word_shown _, status_shown _, half_shown _, word_shown _, word_shown _, word_shown _, word_shown _, word_shown _,
    word_shown _, word_shown _, word_shown _, word_shown _, List.forall_mem_nil _⟩

theorem csrTableResults_shown : ∀ p ∈ csrTableResults s, ShowsExactly s p := by
  simp only [csrTableResults, List.forall_mem_cons]
  exact ⟨word_shown _, word_shown _, word_shown _, word_shown _, byte_shown _, half_shown _, half_shown _, half_shown _,
    half_shown _, List.forall_mem_nil _⟩

theorem csrTableTx_shown : ∀ p ∈ csrTableTx s, ShowsExactly s p := by
  simp only [csrTableTx, List.forall_mem_cons]
  exact ⟨byte_shown _, half_shown _, half_shown _, word_shown _, word_shown _, word_shown _, word_shown _, word_shown _,
    List.forall_mem_nil _⟩

theorem csrTableRx_shown : ∀ p ∈ csrTableRx s, ShowsExactly s p := by
  simp only [csrTableRx, List.forall_mem_cons]
  exact ⟨byte_shown _, half_shown _, half_shown _, word_shown _, word_shown _, word_shown _, word_shown _, word_shown _,
    half_shown _, half_shown _, List.forall_mem_nil _⟩

/-- A view is shown in 32 bits (10 R32 to R34). -/
theorem csrTableViews_shown : ∀ p ∈ csrTableViews s, (readCsr s p.1.reg).toNat = p.2 % 2 ^ p.1.bits := by
  have view : ∀ n, (BitVec.ofNat 32 n).toNat = n % 2 ^ 32 := fun n => BitVec.toNat_ofNat n 32
  simp only [csrTableViews, List.forall_mem_cons]
  exact ⟨view _, view _, view _, view _, (Nat.mod_eq_of_lt s.crEvicts.isLt).symm, view _, view _, view _, view _, view _,
    List.forall_mem_nil _⟩

/-- In states that meet the invariants no view is too large for its register. -/
theorem csrTableViews_fit {s : State} (h : s.Inv) : ∀ p ∈ csrTableViews s, p.2 < 2 ^ p.1.bits := by
  obtain ⟨hsrc, hdst, hslots, htotal, hidle⟩ := wellFormed_bounds h.params
  obtain ⟨-, hrd, hcnt, -⟩ := h.ring
  have hcap := ringCap_le h.params
  have hused : s.slots.countP (·.valid) ≤ s.params.crSlots := h.slots.1 ▸ List.countP_le_length
  simp only [csrTableViews, List.forall_mem_cons]
  refine ⟨by omega, by omega, by omega, by omega, s.crEvicts.isLt, ?_, by omega, by omega, by omega, by omega,
    List.forall_mem_nil _⟩
  split <;> omega

/-- The table's rows but the views, which show the FCU's own registers. -/
theorem csrTable_cases {p : CsrRow × Nat} (hp : p ∈ csrTable s) : ShowsExactly s p ∨ p ∈ csrTableViews s := by
  simp only [csrTable, List.mem_append] at hp
  rcases hp with (((hp | hp) | hp) | hp) | hp
  · exact .inl (csrTableArgs_shown s p hp)
  · exact .inl (csrTableResults_shown s p hp)
  · exact .inl (csrTableTx_shown s p hp)
  · exact .inl (csrTableRx_shown s p hp)
  · exact .inr hp

theorem csrTable_shown {p : CsrRow × Nat} (hp : p ∈ csrTable s) : (readCsr s p.1.reg).toNat = p.2 % 2 ^ p.1.bits := by
  rcases csrTable_cases s hp with ⟨hread, hfit⟩ | hview
  · rw [hread, Nat.mod_eq_of_lt hfit]
  · exact csrTableViews_shown s p hview

theorem csrTable_fit {s : State} (h : s.Inv) {p : CsrRow × Nat} (hp : p ∈ csrTable s) : p.2 < 2 ^ p.1.bits := by
  rcases csrTable_cases s hp with ⟨-, hfit⟩ | hview
  · exact hfit
  · exact csrTableViews_fit h p hview

/-- A register shows no more bits than its row has. -/
theorem readCsr_lt {row : CsrRow} (hrow : row ∈ csrMap) : (readCsr s row.reg).toNat < 2 ^ row.bits := by
  rw [csrMap_eq_csrTable s] at hrow
  obtain ⟨p, hp, rfl⟩ := List.mem_map.mp hrow
  rw [csrTable_shown s hp]
  exact Nat.mod_lt _ (by positivity)

/-! ## What a host write keeps and changes (10 R20) -/

theorem writeCsr_of_not_settable {r : Csr} (h : r.settable = false) (v : Word) : writeCsr r v s = s := by
  cases r with
  | connId | pktCtr | arg0 | arg1 | arg2 | arg3 | arg4 | arg5 | arg6 | arg7 | txFlags | txId | txReqid | txPktid | txOffset
  | txTotal | txUlen | txMaxpl => cases h
  | _ => rfl

/-- The written register keeps the low bits of the value. -/
def KeepsLowBits (v : Word) (row : CsrRow) : Prop :=
  row.reg.settable = true → (readCsr (writeCsr row.reg v s) row.reg).toNat = v.toNat % 2 ^ row.bits

theorem word_kept (v : Word) : v.toNat = v.toNat % 2 ^ 32 := (Nat.mod_eq_of_lt v.isLt).symm

theorem half_kept (v : Word) : ((v.setWidth 16).setWidth 32).toNat = v.toNat % 2 ^ 16 := by
  rw [(half_shown _).1, BitVec.toNat_setWidth]

theorem byte_kept (v : Word) : ((v.setWidth 8).setWidth 32).toNat = v.toNat % 2 ^ 8 := by
  rw [(byte_shown _).1, BitVec.toNat_setWidth]

theorem csrRowsArgs_kept (v : Word) : ∀ row ∈ csrRowsArgs, KeepsLowBits s v row := by
  simp only [csrRowsArgs, List.forall_mem_cons]
  exact ⟨nofun, nofun, fun _ => half_kept v, fun _ => word_kept v, fun _ => word_kept v, fun _ => word_kept v,
    fun _ => word_kept v, fun _ => word_kept v, fun _ => word_kept v, fun _ => word_kept v, fun _ => word_kept v,
    fun _ => word_kept v, List.forall_mem_nil _⟩

theorem csrRowsFrames_kept (v : Word) : ∀ row ∈ csrRowsFrames, KeepsLowBits s v row := by
  simp only [csrRowsFrames, List.forall_mem_cons]
  exact ⟨fun _ => byte_kept v, fun _ => half_kept v, fun _ => half_kept v, fun _ => word_kept v, fun _ => word_kept v,
    fun _ => word_kept v, fun _ => word_kept v, fun _ => word_kept v, nofun, nofun, nofun, nofun, nofun, nofun, nofun,
    nofun, nofun, nofun, List.forall_mem_nil _⟩

/-- The result, view and CFG registers are read-only. -/
theorem csrRowsResults_views_not_settable : ∀ row ∈ csrRowsResults ++ csrRowsViews, row.reg.settable = false := by decide

theorem readCsr_writeCsr_same {row : CsrRow} (hrow : row ∈ csrMap) (hset : row.reg.settable = true) (v : Word) :
    (readCsr (writeCsr row.reg v s) row.reg).toNat = v.toNat % 2 ^ row.bits := by
  have hro : row ∉ csrRowsResults ++ csrRowsViews := fun h => by
    simp [csrRowsResults_views_not_settable row h] at hset
  simp only [csrMap, List.mem_append] at hrow hro
  have hrw : row ∈ csrRowsArgs ∨ row ∈ csrRowsFrames := by tauto
  exact hrw.elim (fun h => csrRowsArgs_kept s v row h hset) fun h => csrRowsFrames_kept s v row h hset

/-- No other register reads otherwise, the views included: each shows a part of the state of its own. -/
theorem readCsr_writeCsr_ne {r r' : Csr} (h : r' ≠ r) (v : Word) : readCsr (writeCsr r v s) r' = readCsr s r' := by
  cases r <;> cases r' <;> first | rfl | exact absurd rfl h

/-- What a register reads as does not depend on the actions to come. -/
theorem readCsr_withInputs (l : List HostAction) (r : Csr) : readCsr (s.withInputs l) r = readCsr s r := by
  cases r <;> rfl

theorem hostCsrRead_withInputs (l : List HostAction) (addr : Nat) :
    hostCsrRead addr (s.withInputs l) = hostCsrRead addr s := by
  unfold hostCsrRead
  split
  · rfl
  · exact readCsr_withInputs s l _

/-- After Reset no slot is in use (10 R49). -/
theorem slotsUsed_afterReset : slotsUsed s.afterReset.slots = 0 := by
  simp [slotsUsed, State.afterReset, State.resetWith, Slot.reset]

end

end Sys2Proof.Machine
end

section
/-! The proofs of the state chapter's statements (10_state.md). -/

namespace Sys2Proof.Proofs.StateRules

open Sys2Proof Sys2Proof.Machine Sys2Proof.Claims

/-- Settles O11: a step waits, or it performs one action of an outside agent, and every action keeps the invariants. -/
theorem stepKeepsInvariants : Obligations.StepKeepsInvariants := by
  intro s t h hr
  rcases step_cases s with he | ⟨a, rest, he⟩ <;> rw [he] at hr
  · cases hr; exact h
  · exact perform_keeps_inv ((State.inv_withInputs s rest).mpr h) hr

/-- Settles O12: a step waits or performs an action, every action ends safely, and a command's fault is the fetch of its
own SRC range, which names an unwritten byte of that range. -/
theorem stepIsSafe : Obligations.StepIsSafe := by
  refine ⟨fun s h => ?_, fun i s f h hf => ?_⟩
  · rcases step_cases s with he | ⟨a, rest, he⟩ <;> rw [he]
    · trivial
    · exact perform_safe ((State.inv_withInputs s rest).mpr h) a
  · obtain ⟨a, n, hr, hb⟩ := exec_fault_cases h hf
    obtain ⟨⟨i, hi, hread⟩, rfl⟩ := (Memory.fetch_eq_error h.src.1).mp hb
    obtain ⟨hnone, hle, hfirst⟩ := Memory.firstUnwritten_spec ⟨i, hi, hread⟩
    have := hfirst i hi hread
    exact ⟨_, rfl, hnone, a, n, hr, hle, by omega⟩

/-- Settles O6: an address finds its row or none; a write then goes to that row's register alone, and a read changes only
the value on the port. -/
theorem csrAccess : Obligations.CsrAccess := by
  refine ⟨fun s row k hrow hk => ⟨csrAt_of_mem hrow hk, hostCsrRead_of_mem s hrow hk, readCsr_lt s hrow, ?_, ?_⟩,
    fun s addr h => ⟨hostCsrRead_unmapped s h, hostCsrWrite_unmapped s h⟩, fun s rest addr hin => ?_⟩
  · intro hrw hcmd v
    have hset : row.reg.settable = true := by simp [csrMap_settable row hrow, hrw, hcmd]
    exact ⟨writeCsr row.reg v s, hostCsrWrite_of_mem s hrow hk hcmd v, readCsr_writeCsr_same s hrow hset v,
      fun r hr => readCsr_writeCsr_ne s hr v, writeCsr_frame row.reg v s⟩
  · intro hro v
    have hset : row.reg.settable = false := by simp [csrMap_settable row hrow, hro]
    rw [hostCsrWrite_of_mem s hrow hk (csrMap_ro_ne_cmd row hrow hro), writeCsr_of_not_settable s hset]
  · rw [step_of_inputs hin, perform, hostCsrRead_withInputs]
    rfl

/-- Settles O15: what a command reads is the same under any STATUS, and its end overwrites STATUS. -/
theorem noCommandReadsStatus : Obligations.NoCommandReadsStatus := exec_withStatus

/-- Settles O18: the checks pass, so the command faults with the fetch of its range, on the first unwritten byte. -/
theorem unwrittenSrcFaults : Obligations.UnwrittenSrcFaults := by
  intro i s a n j hwf hr hj hread hin hdst hsend
  obtain ⟨hnone, hle, hfirst⟩ := Memory.firstUnwritten_spec ⟨j, hj, hread⟩
  refine ⟨_, exec_fault_of_srcBytes hr hin hdst (fun hi => ?_) ((Memory.fetch_eq_error hwf).mpr ⟨⟨j, hj, hread⟩, rfl⟩),
    hle, hfirst j hj hread, hnone⟩
  obtain ⟨hchk, hleast, hmost⟩ := hsend hi
  rw [flagChk, hchk]
  simp only [maxplLimit, Bool.false_eq_true, false_or]
  omega

/-- Settles O54: the table is the map row by row, each row shows its number in its width, and under the invariants the
views fit too. -/
theorem csrReadsShowState : Obligations.CsrReadsShowState := by
  refine fun s => ⟨csrMap_eq_csrTable s, fun row v k hrow hk => ⟨?_, fun h => csrTable_fit h hrow⟩, fun r => ?_⟩
  · have hmem : row ∈ csrMap := csrMap_eq_csrTable s ▸ List.mem_map_of_mem hrow
    rw [hostCsrRead_of_mem s hmem hk]
    exact csrTable_shown s hrow
  · obtain ⟨row, hrow, hr⟩ := exists_mem_csrMap r
    rw [csrMap_eq_csrTable s] at hrow
    obtain ⟨p, hp, rfl⟩ := List.mem_map.mp hrow
    exact ⟨p, hp, hr⟩

/-- Settles O4: address 0 is CMD's, and the command port performs the decoded command. -/
theorem stepRunsDecodedCommand : Obligations.StepRunsDecodedCommand := by
  intro s rest w i hin hdec
  have hcmd : csrAt 0 = some .cmd := by decide
  rw [step_of_inputs hin, perform, hostCsrWrite, hcmd]
  simp only [performCommand, hdec]
  rfl

/-- Settles O8: Reset gives the reset state of the same parameters, whose views are the parameters' own. -/
theorem resetState : Obligations.ResetState := by
  intro s rest hin
  refine ⟨(s.withInputs rest).afterReset, step_of_inputs hin, rfl, fun r => ?_, rfl, rfl, fun _ => ⟨rfl, rfl, rfl⟩,
    List.length_replicate, fun sl hsl => ?_⟩
  · cases r with
    | crUsed =>
      simp only [readCsr, slotsUsed_afterReset]
      rfl
    | _ => rfl
  · rw [List.eq_of_mem_replicate hsl]
    exact ⟨rfl, fun _ => rfl⟩

/-- Settles O10: an elaboration is the reset state of legal parameters, and `Config.params` are legal. -/
theorem resetMeetsInvariants : Obligations.ResetMeetsInvariants := by
  refine ⟨fun p s h => ?_, State.inv_resetWith (by decide)⟩
  obtain ⟨hp, he⟩ := Option.ite_none_right_eq_some.mp h
  cases he
  exact State.inv_resetWith hp

/-- Settles O55: `ringIndex` is R39's index. -/
theorem ringByteWrapsAround : Obligations.RingByteWrapsAround := fun _ _ _ => ringByte_eq_ok

end Sys2Proof.Proofs.StateRules
end

section
/-! The host's byte ports, case by case (20_memory.md R57, 10_state.md R42). -/

namespace Sys2Proof.Machine

section
variable (s : State) {m : Memory} {sp : Space} {size addr : Nat}

theorem hostSrcWrite_inside (b : Nat) (h : addr < s.params.srcSize) :
    hostSrcWrite addr b s = s.withSrc (s.src.write addr (BitVec.ofNat 8 b)) := if_pos h

theorem hostSrcWrite_past_end (b : Nat) (h : s.params.srcSize ≤ addr) : hostSrcWrite addr b s = s := if_neg h.not_gt

theorem hostByteRead_past_end (h : size ≤ addr) : hostByteRead m sp size addr s = .next (s.withReadData 0) :=
  if_neg h.not_gt

theorem hostByteRead_unwritten (h : addr < size) (hm : m.read addr = none) :
    hostByteRead m sp size addr s = .fault (.unwritten sp addr) := by
  rw [hostByteRead, if_pos h, hm]

theorem hostByteRead_written {v : Byte} (h : addr < size) (hm : m.read addr = some v) :
    hostByteRead m sp size addr s = .next (s.withReadData (v.setWidth 32)) := by
  rw [hostByteRead, if_pos h, hm]

end

end Sys2Proof.Machine
end

section
/-! The proofs of the memory chapter's statements (20_memory.md). -/

namespace Sys2Proof.Proofs.MemoryRules

open Sys2Proof Sys2Proof.Machine Sys2Proof.Claims

/-- Settles O7: the step performs the port's action, and each port has one case past the end of its memory and one or
two within it. -/
theorem bytePorts : Obligations.BytePorts := by
  refine fun s rest addr b => ⟨fun hin h => ?inside, fun hin h => ?pastEnd, fun hin => ?srcRead, fun hin => ?dstRead⟩
  case inside =>
    refine ⟨s.src.write addr (BitVec.ofNat 8 b), ?_, ?_, fun x hx => ?_⟩
    · rw [step_of_inputs hin, perform, hostSrcWrite_inside (s.withInputs rest) b h]
      rfl
    · rw [Memory.read_write, if_pos rfl]
    · rw [Memory.read_write, if_neg hx]
  case pastEnd =>
    rw [step_of_inputs hin, perform, hostSrcWrite_past_end (s.withInputs rest) b h]
    rfl
  case srcRead =>
    rw [step_of_inputs hin]
    exact ⟨hostByteRead_past_end _, hostByteRead_unwritten _, fun _ => hostByteRead_written _⟩
  case dstRead =>
    rw [step_of_inputs hin]
    exact ⟨hostByteRead_past_end _, hostByteRead_unwritten _, fun _ => hostByteRead_written _⟩

end Sys2Proof.Proofs.MemoryRules
end

section
/-! The decoder field by field (30_encoding.md R65 to R69): a word is its three fields, what each command's fields are, and
which fields decode to which command. -/

namespace Sys2Proof

/-! ## A word's fields (30 R65) -/

/-- A word is its reserved bits, IMM8 and OP, from the top. -/
theorem fields_append (w : Word) : reservedField w ++ immField w ++ opField w = w := by
  have hhigh : reservedField w ++ immField w = w.extractLsb' 8 24 :=
    BitVec.extractLsb'_append_extractLsb'_eq_extractLsb' rfl
  rw [hhigh]
  exact (BitVec.extractLsb'_append_extractLsb'_eq_extractLsb' rfl).trans BitVec.extractLsb'_eq_self

theorem word_eq_iff_fields {w v : Word} :
    w = v ↔ reservedField w = reservedField v ∧ immField w = immField v ∧ opField w = opField v := by
  refine ⟨fun h => h ▸ ⟨rfl, rfl, rfl⟩, fun ⟨hres, himm, hop⟩ => ?_⟩
  rw [← fields_append w, ← fields_append v, hres, himm, hop]

/-! ## The opcode map (30 R69) -/

theorem encode_fields (i : Instr) : Laws.EncodeFields.Statement i := by
  cases i with
  | rbSkipuntil v => exact Laws.EncodeFields.rbSkipuntil v
  | _ => exact ⟨rfl, rfl, rfl, .inr rfl⟩

theorem wellFormed_eq_true (i : Instr) : i.wellFormed = true := by cases i <;> rfl

theorem opcodeInstr_opcode_imm (i : Instr) : opcodeInstr i.opcode i.imm = some i := by cases i <;> rfl

/-- The opcode selects the command; the immediate enters it as RB.SKIPUNTIL's sentinel and nowhere else. -/
theorem opcode_imm_of_opcodeInstr {op imm : Byte} {i : Instr} (h : opcodeInstr op imm = some i) :
    i.opcode = op ∧ i.imm = if op = 0x06#8 then imm else 0 := by
  unfold opcodeInstr at h
  split at h
  case h_19 => cases h
  all_goals
    rename_i hop
    have hbyte : BitVec.ofNat 8 op.toNat = op := by simp
    rw [hop] at hbyte
    subst hbyte
    cases h
    exact ⟨rfl, rfl⟩

/-- The assigned opcodes are those the map gives a command, whatever the immediate. -/
theorem mem_assignedOpcodes_iff {op : Byte} (imm : Byte) :
    op ∈ assignedOpcodes ↔ ∃ i, opcodeInstr op imm = some i := by
  constructor
  · intro h
    fin_cases h <;> exact ⟨_, rfl⟩
  · rintro ⟨i, hi⟩
    rw [← (opcode_imm_of_opcodeInstr hi).1]
    cases i <;> simp [Instr.opcode, assignedOpcodes]

/-! ## The decoder (30 R68) -/

/-- What the decoder asks of a word: no reserved bit, an assigned opcode, and no immediate but RB.SKIPUNTIL's. -/
theorem decode_eq_ok {w : Word} {i : Instr} : decode w = .ok i ↔
    reservedField w = 0#16 ∧ opcodeInstr (opField w) (immField w) = some i
      ∧ (immField w = 0#8 ∨ opField w = 0x06#8) := by
  unfold decode
  by_cases hres : reservedField w = 0#16
  · cases hop : opcodeInstr (opField w) (immField w) with
    | none => simp [hres]
    | some j =>
      by_cases himm : immField w = 0#8 ∨ opField w = 0x06#8 <;> simp [hres, ← not_or, himm]
  · simp [hres]

theorem decode_encode (i : Instr) : decode (encode i) = .ok i := by
  obtain ⟨hop, himm, hres, hleg⟩ := encode_fields i
  rw [decode_eq_ok, hop, himm]
  exact ⟨hres, opcodeInstr_opcode_imm i, hleg.symm⟩

theorem encode_of_decode {w : Word} {i : Instr} (h : decode w = .ok i) : encode i = w := by
  obtain ⟨hres, hi, hleg⟩ := decode_eq_ok.mp h
  obtain ⟨hop, himm⟩ := opcode_imm_of_opcodeInstr hi
  obtain ⟨hop', himm', hres', -⟩ := encode_fields i
  rw [word_eq_iff_fields, hop', himm', hres']
  refine ⟨hres.symm, himm.trans ?_, hop⟩
  split
  · rfl
  · exact (hleg.resolve_right ‹_›).symm

/-- R68's conditions on the fields. -/
theorem decodes_iff_fields {w : Word} : (∃ i, decode w = .ok i) ↔
    opField w ∈ assignedOpcodes ∧ reservedField w = 0#16 ∧ (immField w = 0#8 ∨ opField w = 0x06#8) := by
  simp only [decode_eq_ok, mem_assignedOpcodes_iff (immField w), exists_and_left, exists_and_right]
  tauto

/-- R68's first pattern: RB.SKIPUNTIL's opcode under no reserved bit, whatever the immediate. -/
theorem masked_eq_skipuntil_iff {w : Word} :
    w &&& 0xFFFF00FF#32 = 0x00000006#32 ↔ reservedField w = 0#16 ∧ opField w = 0x06#8 := by
  have hres : reservedField (w &&& 0xFFFF00FF#32) = reservedField w :=
    BitVec.extractLsb'_and.trans (BitVec.and_allOnes (x := reservedField w))
  have himm : immField (w &&& 0xFFFF00FF#32) = 0#8 := BitVec.extractLsb'_and.trans (BitVec.and_zero (x := immField w))
  have hop : opField (w &&& 0xFFFF00FF#32) = opField w :=
    BitVec.extractLsb'_and.trans (BitVec.and_allOnes (x := opField w))
  rw [word_eq_iff_fields, hres, himm, hop]
  exact and_congr_right fun _ => and_iff_right rfl

/-- R68's other patterns: an opcode alone in its word. -/
theorem eq_opcode_word_iff {w : Word} {op : Byte} :
    w = op.setWidth 32 ↔ reservedField w = 0#16 ∧ immField w = 0#8 ∧ opField w = op := by
  have hfields : reservedField (op.setWidth 32) = 0#16 ∧ immField (op.setWidth 32) = 0#8
      ∧ opField (op.setWidth 32) = op := by revert op; decide
  obtain ⟨hres, himm, hop⟩ := hfields
  rw [word_eq_iff_fields, hres, himm, hop]

/-- R68's patterns: RB.SKIPUNTIL's under the mask, or another assigned opcode alone in the word. -/
theorem decodes_iff_patterns {w : Word} : (∃ i, decode w = .ok i) ↔
    w &&& 0xFFFF00FF#32 = 0x00000006#32 ∨ ∃ op ∈ assignedOpcodes, op ≠ 0x06#8 ∧ w = op.setWidth 32 := by
  simp only [decodes_iff_fields, masked_eq_skipuntil_iff, eq_opcode_word_iff]
  have h6 : 0x06#8 ∈ assignedOpcodes := by decide
  constructor
  · rintro ⟨hop, hres, himm⟩
    by_cases hskip : opField w = 0x06#8
    · exact .inl ⟨hres, hskip⟩
    · exact .inr ⟨opField w, hop, hskip, hres, himm.resolve_right hskip, rfl⟩
  · rintro (⟨hres, hskip⟩ | ⟨op, hop, -, hres, himm, rfl⟩)
    · exact ⟨hskip ▸ h6, hres, .inr hskip⟩
    · exact ⟨hop, hres, .inl himm⟩

end Sys2Proof

namespace Sys2Proof.Machine

/-! ## The command port (10 R22, 60 R184) -/

/-- A CMD write that is next is performed by the command port, with the actions after it still to come. -/
theorem step_of_cmdWrite {s : State} {rest : List HostAction} {w : Word} (h : s.inputs = .csrWrite 0x000 w :: rest) :
    step s = performCommand w (s.withInputs rest) := by
  have hcmd : csrAt 0x000 = some .cmd := by decide
  rw [step_of_inputs h, perform, hostCsrWrite, hcmd]

theorem performCommand_refuses {w : Word} (h : ¬ ∃ i, decode w = .ok i) (s : State) :
    performCommand w s = .next ((s.withCmd w).withStatus .illegalCmd) :=
  (performCommand_cases w s).resolve_left fun ⟨i, hi, _⟩ => h ⟨i, hi⟩

end Sys2Proof.Machine
end

section
/-! The frame of every command (30_encoding.md R70): which parts of the state each state operation writes, and that a command
is built from operations its row of the operand table lists. -/

namespace Sys2Proof.Machine

open Sys2Proof.Claims

/-- From `s` to `t` nothing is written but STATUS, the free-byte count and what `w` lists (30 R70, last column). -/
def WritesOnly (w : Writes) (s t : State) : Prop :=
  (t.params = s.params ∧ t.cmd = s.cmd ∧ t.connId = s.connId ∧ t.args = s.args ∧ t.tx = s.tx ∧ t.src = s.src
    ∧ t.res.r3 = s.res.r3 ∧ t.inputs = s.inputs ∧ t.readData = s.readData)
  ∧ (w.res0 = false → t.res.r0 = s.res.r0) ∧ (w.res1 = false → t.res.r1 = s.res.r1)
  ∧ (w.res2 = false → t.res.r2 = s.res.r2) ∧ (w.hdr = false → t.hdr = s.hdr)
  ∧ (w.rx = false → t.rx = s.rx) ∧ (w.ring = false → t.ring = s.ring)
  ∧ (w.dst = false → ∀ x, t.dst.read x = s.dst.read x) ∧ (w.slots = false → t.slots = s.slots)
  ∧ (w.pktCtr = false → t.pktCtr = s.pktCtr) ∧ (w.evicts = false → t.crEvicts = s.crEvicts)

/-! ## One operation at a time: what is listed may be written -/

section
variable {w : Writes} {s t : State}

@[simp] theorem WritesOnly.refl (w : Writes) (s : State) : WritesOnly w s s := by simp [WritesOnly]

@[simp] theorem writesOnly_withStatus (x : Status) : WritesOnly w s (t.withStatus x) ↔ WritesOnly w s t := Iff.rfl
@[simp] theorem writesOnly_withFreeCtr (n : Nat) : WritesOnly w s (t.withFreeCtr n) ↔ WritesOnly w s t := Iff.rfl

@[simp] theorem writesOnly_withRes0 (h : w.res0 = true) (n : Nat) :
    WritesOnly w s (t.withRes0 n) ↔ WritesOnly w s t := by simp [WritesOnly, h]
@[simp] theorem writesOnly_withRes1 (h : w.res1 = true) (n : Nat) :
    WritesOnly w s (t.withRes1 n) ↔ WritesOnly w s t := by simp [WritesOnly, h]
@[simp] theorem writesOnly_withRes2 (h : w.res2 = true) (n : Nat) :
    WritesOnly w s (t.withRes2 n) ↔ WritesOnly w s t := by simp [WritesOnly, h]
@[simp] theorem writesOnly_withHdr (h : w.hdr = true) (x : HdrRegs) :
    WritesOnly w s (t.withHdr x) ↔ WritesOnly w s t := by simp [WritesOnly, h]
@[simp] theorem writesOnly_withRx (h : w.rx = true) (x : RxRegs) :
    WritesOnly w s (t.withRx x) ↔ WritesOnly w s t := by simp [WritesOnly, h]
@[simp] theorem writesOnly_withRing (h : w.ring = true) (x : Ring) :
    WritesOnly w s (t.withRing x) ↔ WritesOnly w s t := by simp [WritesOnly, h]
@[simp] theorem writesOnly_withDst (h : w.dst = true) (x : Memory) :
    WritesOnly w s (t.withDst x) ↔ WritesOnly w s t := by simp [WritesOnly, h]
@[simp] theorem writesOnly_withSlots (h : w.slots = true) (x : List Slot) :
    WritesOnly w s (t.withSlots x) ↔ WritesOnly w s t := by simp [WritesOnly, h]
@[simp] theorem writesOnly_withPktCtr (h : w.pktCtr = true) (x : Word) :
    WritesOnly w s (t.withPktCtr x) ↔ WritesOnly w s t := by simp [WritesOnly, h]
@[simp] theorem writesOnly_withEvicts (h : w.evicts = true) (x : Word) :
    WritesOnly w s (t.withEvicts x) ↔ WritesOnly w s t := by simp [WritesOnly, h]
@[simp] theorem writesOnly_advance (h : w.ring = true) (k : Nat) :
    WritesOnly w s (t.advance k) ↔ WritesOnly w s t := writesOnly_withRing h _
@[simp] theorem writesOnly_ringAppend (h : w.ring = true) (bs : List Byte) :
    WritesOnly w s (t.ringAppend bs) ↔ WritesOnly w s t := writesOnly_withRing h _

theorem writesOnly_tickSlots (hslots : w.slots = true) (hevicts : w.evicts = true) : WritesOnly w s s.tickSlots := by
  obtain ⟨slots, ev, ht⟩ := tickSlots_frame s
  rw [ht]
  simp [hslots, hevicts]
end

/-! ## FC.RECV (42 R135) -/

section
variable {s0 s t : State}

theorem recvFail_writes {code : Status} (h : WritesOnly (writes .fcRecv) s0 s) (hr : recvFail code s = .ok t) :
    WritesOnly (writes .fcRecv) s0 t := by
  obtain ⟨found, k, -, rfl⟩ := recvFail_eq_ok.mp hr
  simpa [writes] using h

theorem recvDone_writes (h : WritesOnly (writes .fcRecv) s0 s) (m : MetaFields) (plen : Nat) (u : Unstuffed) (v : Nat)
    (st : Status) : WritesOnly (writes .fcRecv) s0 (recvDone s m plen u v st) := by
  simpa [recvDone, writes] using h

theorem recvDeliver_writes {u : Unstuffed} (h : WritesOnly (writes .fcRecv) s0 s) (hr : recvDeliver s0 s u = .ok t) :
    WritesOnly (writes .fcRecv) s0 t := by
  rcases recvDeliver_cases hr with ⟨-, -, rfl⟩ | ⟨-, -, rfl⟩ | ⟨-, r, -, ⟨-, rfl⟩ | ⟨st, x, slots, dst, -, rfl⟩⟩
  · exact recvDone_writes ((writesOnly_withDst rfl _).mpr h) _ _ _ _ _
  · simp
  · simp
  · exact recvDone_writes (by simpa [writes] using h) _ _ _ _ _

theorem recvFrame_writes (h : WritesOnly (writes .fcRecv) s0 s) (hr : recvFrame s0 s = .ok t) :
    WritesOnly (writes .fcRecv) s0 t := by
  obtain ⟨region, -, ⟨-, hf⟩ | ⟨r, -, -, ⟨-, hf⟩ | ⟨-, hd⟩⟩⟩ := recvFrame_cases hr
  · exact recvFail_writes h hf
  · exact recvFail_writes ((writesOnly_withRx rfl _).mpr h) hf
  · exact recvDeliver_writes h hd

theorem execFcRecv_writes (hr : execFcRecv s = .next t) : WritesOnly (writes .fcRecv) s t := by
  obtain ⟨p, hd, -, ⟨-, rfl⟩ | ⟨-, hf⟩ | ⟨-, hf⟩⟩ := execFcRecv_cases hr
  · simp [writes]
  · exact recvFail_writes ((writesOnly_withHdr rfl _).mpr (.refl _ s)) hf
  · exact recvFrame_writes ((writesOnly_withHdr rfl _).mpr (.refl _ s)) hf

/-! ## Every command -/

/-- A command writes STATUS and what its row of the operand table lists (30 R70). -/
theorem exec_writes {i : Instr} (hr : exec i s = .next t) : WritesOnly (writes i) s t := by
  cases i with
  | nop => cases hr; simp
  | rbWrite => rcases execRbWrite_eq_next.mp hr with ⟨-, rfl⟩ | ⟨-, bs, -, rfl⟩ <;> simp [writes]
  | rbRead => rcases execRbRead_eq_next.mp hr with ⟨-, rfl⟩ | ⟨-, -, rfl⟩ | ⟨-, -, bs, -, rfl⟩ <;> simp [writes]
  | rbPeek => rcases execRbPeek_eq_next.mp hr with ⟨-, rfl⟩ | ⟨-, -, rfl⟩ | ⟨-, -, bs, -, rfl⟩ <;> simp [writes]
  | rbPeekb => rcases execRbPeekb_eq_next.mp hr with ⟨-, rfl⟩ | ⟨-, b, -, rfl⟩ <;> simp [writes]
  | rbPeekhdr => rcases execRbPeekhdr_eq_next.mp hr with ⟨-, rfl⟩ | ⟨-, bs, -, rfl⟩ <;> simp [writes]
  | rbSkipuntil v =>
    obtain ⟨found, k, -, rfl⟩ := execRbSkipuntil_eq_next.mp hr
    simp [writes]
  | rbClear => cases hr; simp [writes]
  | pcEncode => rcases execPcEncode_eq_next.mp hr with ⟨-, rfl⟩ | ⟨-, c, -, ⟨-, rfl⟩ | ⟨-, rfl⟩⟩ <;> simp [writes]
  | pcDecode =>
    rcases execPcDecode_eq_next.mp hr with ⟨-, rfl⟩ | ⟨-, -, region, -, ⟨-, rfl⟩ | ⟨u, -, rfl⟩⟩ <;> simp [writes]
  | pcHcs => cases hr; simp [writes]
  | fcBuild =>
    rcases execFcBuild_eq_next.mp hr with ⟨-, rfl⟩ | ⟨-, p, -, ⟨-, rfl⟩ | ⟨f, -, ⟨-, rfl⟩ | ⟨-, rfl⟩⟩⟩ <;> simp [writes]
  | fcSend =>
    rcases execFcSend_eq_next.mp hr with ⟨-, rfl⟩ | ⟨-, ⟨-, rfl⟩ | ⟨-, p, -, out, -, ⟨-, rfl⟩ | ⟨-, rfl⟩⟩⟩ <;>
      simp [writes]
  | fcTryparse =>
    obtain ⟨p, hd, -, rfl⟩ := execFcTryparse_eq_next.mp hr
    split <;> simp [writes]
  | fcRecv => exact execFcRecv_writes hr
  | crRecv =>
    rcases execCrRecv_eq_next.mp hr with ⟨-, rfl⟩ | ⟨-, data, -, r, -, ⟨-, rfl⟩ | ⟨st, x, slots, dst, -, rfl⟩⟩ <;>
      simp [writes]
  | crTick => cases hr; simpa [writes] using writesOnly_tickSlots rfl rfl
  | crEvictconn => cases hr; simp [writes]
end

end Sys2Proof.Machine
end

section
/-! Metadata from the bytes (30_encoding.md R77, R89): every byte sequence of a field's length is that field, so content that
is long enough is the metadata of some fields and a payload. -/

namespace Sys2Proof.Machine

open Sys2Proof.Claims

/-! ## One field (00 R11) -/

theorem bytes16_eq_le16 (v : Half) : bytes16 v = le16 v.toNat := by
  simp [bytes16, le16, ← BitVec.toNat_inj, Nat.shiftRight_eq_div_pow]

theorem bytes32_eq_le32 (v : Word) : bytes32 v = le32 v.toNat := by
  simp [bytes32, le32, ← BitVec.toNat_inj, Nat.shiftRight_eq_div_pow]

/-- Two bytes are the field of the number they read as. -/
theorem exists_le16 {l : List Byte} (h : l.length = 2) : ∃ v : Half, le16 v.toNat = l := by
  obtain ⟨b0, b1, rfl⟩ := List.length_eq_two.mp h
  refine ⟨BitVec.ofNat 16 (rd16 [b0, b1] 0), ?_⟩
  rw [BitVec.toNat_ofNat, Nat.mod_eq_of_lt (rd16_lt _ _)]
  simp [le16, rd16, byteAt, ← BitVec.toNat_inj]
  omega

/-- Four bytes are the field of the number they read as. -/
theorem exists_le32 {l : List Byte} (h : l.length = 4) : ∃ v : Word, le32 v.toNat = l := by
  obtain ⟨b0, b1, b2, b3, rfl⟩ := List.length_eq_four.mp h
  refine ⟨BitVec.ofNat 32 (rd32 [b0, b1, b2, b3] 0), ?_⟩
  simp [le32, rd32, byteAt, ← BitVec.toNat_inj]
  omega

/-- Twelve bytes are the fields of a chunk, one after the other. -/
theorem exists_chunkFields {l : List Byte} (h : l.length = 12) :
    ∃ v : Word × Word × Word, le32 v.1.toNat ++ le32 v.2.1.toNat ++ le32 v.2.2.toNat = l := by
  obtain ⟨pktid, hpktid⟩ := exists_le32 (l := l.take 4) (by simp [h])
  obtain ⟨offset, hoffset⟩ := exists_le32 (l := (l.drop 4).take 4) (by simp [h])
  obtain ⟨total, htotal⟩ := exists_le32 (l := (l.drop 4).drop 4) (by simp [h])
  refine ⟨(pktid, offset, total), ?_⟩
  rw [hpktid, hoffset, htotal, List.append_assoc, List.take_append_drop, List.take_append_drop]

/-! ## All the fields of a flag byte (30 R77) -/

/-- A part of the metadata that stands under a condition: its bytes, or none. -/
theorem exists_optional {α : Type} [Inhabited α] {field : α → List Byte} {n : Nat}
    (hfield : ∀ l : List Byte, l.length = n → ∃ v, field v = l) (c : Prop) [Decidable c] {l : List Byte}
    (h : l.length = if c then n else 0) : ∃ v, (if c then field v else []) = l := by
  split at h
  · rename_i hc
    simpa [hc] using hfield l h
  · rename_i hc
    exact ⟨default, by simp [hc, List.length_eq_zero_iff.mp h]⟩

/-- Bytes of the metadata's length are the metadata of some fields. -/
theorem exists_metaBytes {flags : Byte} {l : List Byte} (h : l.length = metaLen flags) :
    ∃ m, metaBytes flags m = l := by
  unfold metaLen at h
  set i := if flagCorr flags ≠ 0#2 then 2 else 0
  set j := if flagChk flags then 12 else 0
  set k := if flagCmode flags ≠ 0#2 then 4 else 0
  obtain ⟨reqid, hreqid⟩ := exists_optional (fun _ => exists_le16) (flagCorr flags ≠ 0#2) (l := l.take i)
    (by rw [List.length_take]; omega)
  obtain ⟨⟨pktid, offset, total⟩, hchunk⟩ := exists_optional (fun _ => exists_chunkFields) (flagChk flags = true)
    (l := (l.drop i).take j) (by rw [List.length_take, List.length_drop]; omega)
  obtain ⟨ulen, hulen⟩ := exists_optional (fun _ => exists_le32) (flagCmode flags ≠ 0#2) (l := (l.drop i).drop j)
    (by rw [List.length_drop, List.length_drop]; omega)
  refine ⟨{ reqid, pktid, offset, total, ulen }, ?_⟩
  rw [metaBytes, hreqid, hchunk, hulen, List.append_assoc, List.take_append_drop, List.take_append_drop]

/-- Absent fields leave no byte. -/
theorem metaBytes_presentFields (flags : Byte) (m : MetaFields) :
    metaBytes flags (presentFields flags m) = metaBytes flags m := by
  unfold metaBytes presentFields
  split <;> split <;> split <;> rfl

/-- Content that is long enough is the metadata PARSEMETA reads from it, then the payload (30 R89). -/
theorem metaBytes_parseMeta {flags : Byte} {content : List Byte} (h : metaLen flags ≤ content.length) :
    metaBytes flags (parseMeta flags content).1 ++ (parseMeta flags content).2 = content := by
  obtain ⟨m, hm⟩ := exists_metaBytes (flags := flags) (l := content.take (metaLen flags)) (by simpa using h)
  have hcontent : content = metaBytes flags m ++ content.drop (metaLen flags) := by rw [hm, List.take_append_drop]
  generalize content.drop (metaLen flags) = p at hcontent
  rw [hcontent, parseMeta_metaBytes, metaBytes_presentFields]

/-- META is R77's table: the chunk's three fields stand under one condition. -/
theorem metaBytes_eq_metadata (flags : Byte) (m : MetaFields) : metaBytes flags m = metadata flags m := by
  simp only [metadata, bytes16_eq_le16, bytes32_eq_le32]
  unfold metaBytes flagCorr flagChk flagCmode
  generalize flags.getLsbD 2 = chk
  cases chk <;> simp

end Sys2Proof.Machine
end

section
/-! The assembly's lines as host actions (30_encoding.md R71, R72), and a run of host actions one step at a time. -/

namespace Sys2Proof.Machine

/-! ## Lines and programs (30 R71, 44 R172) -/

@[simp] theorem assemble_singleton (line : AsmLine) : assemble [line] = asmExpand line :=
  List.flatMap_singleton asmExpand line

/-- A register's address is its row's. -/
theorem csrAddr_of_mem : ∀ row ∈ csrMap, csrAddr row.reg = row.addr := by decide

theorem asmLoad_eq_mapIdx (a : Nat) (bs : List Byte) :
    asmLoad a bs = bs.mapIdx (fun i b => .srcWrite (a + i) b.toNat) := by
  induction bs generalizing a with
  | nil => rfl
  | cons b bs ih =>
    rw [asmLoad, ih, List.mapIdx_cons]
    simp only [Nat.add_zero, Nat.add_assoc, Nat.add_comm 1]

/-- ARG0 to ARG7 stand one after the other, a word apart (10 R21). -/
theorem csrAddr_argRegs : ∀ i (h : i < argRegs.length), csrAddr argRegs[i] = 0x010 + 4 * i := by decide

theorem zipWith_asmSet_argRegs {vs : List Word} (h : vs.length ≤ argRegs.length) :
    List.zipWith asmSet argRegs vs = vs.mapIdx (fun i v => .csrWrite (0x010 + 4 * i) v) := by
  refine List.ext_getElem (by simpa using h) fun i hz hm => ?_
  rw [List.getElem_zipWith, List.getElem_mapIdx, asmSet, csrAddr_argRegs]

/-! ## A run, step by step (60 R193) -/

theorem hostRun_succ {M : Host.Core} {s t : M.State} (h : M.step s = .next t) (k : Nat) :
    M.run (k + 1) s = M.run k t := by
  rw [Host.Core.run, h]

/-- A run takes the steps of the machine. -/
theorem run_succ {s t : State} (h : step s = .next t) (k : Nat) : core.run (k + 1) s = core.run k t :=
  hostRun_succ (M := core) h k

/-- A write of a register other than CMD that is next changes that register. -/
theorem step_of_csrWrite {s : State} {rest : List HostAction} {row : CsrRow} {v : Word} (hrow : row ∈ csrMap)
    (hcmd : row.reg ≠ .cmd) (h : s.inputs = .csrWrite row.addr v :: rest) :
    step s = .next (writeCsr row.reg v (s.withInputs rest)) := by
  rw [step_of_inputs h]
  exact hostCsrWrite_of_mem _ hrow (k := 0) (by decide) hcmd v

/-! ## Slots of an evicted connection (43 R160) -/

/-- The slot as CR.EVICTCONN leaves it. -/
def Slot.evict (c : Half) (sl : Slot) : Slot := if sl.ofConn c then sl.release else sl

theorem Slot.not_ofConn_evict (c : Half) (sl : Slot) : ¬ ((sl.evict c).valid = true ∧ (sl.evict c).conn = c) := by
  unfold Slot.evict Slot.ofConn Slot.release
  split <;> simp_all

theorem Slot.evict_of_ne {c : Half} {sl : Slot} (h : sl.conn ≠ c) : sl.evict c = sl := by
  simp [Slot.evict, Slot.ofConn, h]

/-- The state that the three actions of `DISCONNECT c` leave. -/
def disconnected (c : Word) (s : State) : State :=
  { s with
    cmd := 0x00000032
    args := { s.args with a0 := c }
    ring := { s.ring with rd := 0, cnt := 0 }
    slots := s.slots.map (Slot.evict (c.setWidth 16))
    res := { s.res with r0 := BitVec.ofNat 32 (s.slots.countP (Slot.ofConn (c.setWidth 16))) }
    status := .ok
    inputs := [] }

/-- `DISCONNECT c` clears the ring, sets ARG0 and evicts, in three steps (30 R72). -/
theorem run_disconnect {s : State} {c : Word} (h : s.inputs = assemble [.disconnect c]) :
    core.run 3 s = .next (disconnected c s) := by
  have harg0 : ⟨0x010, .arg0, 32, true⟩ ∈ csrMap := by decide
  have hconn : c.setWidth 16 = c.extractLsb' 0 16 := BitVec.setWidth_eq_extractLsb' (by decide)
  have hclear := Proofs.StateRules.stepRunsDecodedCommand s _ _ _ h decode_rbClear
  rw [run_succ (hclear.trans (execRbClear_eq _)), run_succ (step_of_csrWrite harg0 (by decide) rfl),
    run_succ ((Proofs.StateRules.stepRunsDecodedCommand _ _ _ _ rfl decode_crEvictconn).trans (execCrEvictconn_eq _)),
    disconnected, hconn]
  rfl

end Sys2Proof.Machine
end

section
/-! The proofs of the encoding chapter's statements (30_encoding.md). -/

namespace Sys2Proof.Proofs.Encoding

open Sys2Proof Sys2Proof.Machine Sys2Proof.Claims

/-- Settles O2: the fields of a command's word decode to it, and a word that decodes has exactly those fields. -/
theorem decodeEncodeAgree : Obligations.DecodeEncodeAgree :=
  ⟨fun i _ => decode_encode i, fun _ i h => ⟨encode_of_decode h, wellFormed_eq_true i⟩⟩

/-- Settles O3: legality by the decoder's conditions on the fields, and the command port's answer to any other word. -/
theorem illegalWordsRefused : Obligations.IllegalWordsRefused := by
  refine fun w => ⟨decodes_iff_fields, decodes_iff_patterns, fun s rest hill hin => ?_⟩
  rw [step_of_cmdWrite hin, performCommand_refuses hill]
  rfl

/-- Settles O14: every command is built from writes that its row of the operand table lists. -/
theorem commandsWriteOnlyWhatR70Lists : Obligations.CommandsWriteOnlyWhatR70Lists := fun _ _ _ => exec_writes

/-- Settles O50: the three actions reach `disconnected c s`, whose ring is empty and whose slots are evicted. -/
theorem disconnectEvictsConnection : Obligations.DisconnectEvictsConnection := by
  refine fun s c h => ⟨disconnected c s, run_disconnect h, rfl, rfl, rfl, fun sl hsl => ?_, fun k sl hk hne => ?_, rfl⟩
  · obtain ⟨sl, -, rfl⟩ := List.mem_map.mp hsl
    exact sl.not_ofConn_evict _
  · rw [disconnected, List.getElem?_map, hk, Option.map_some, Slot.evict_of_ne hne]

/-- Settles O52: the table is META, PARSEMETA inverts META, and every long enough content is META of some fields and a
payload. -/
theorem metadataLayout : Obligations.MetadataLayout := by
  intro flags
  have htable : metadata flags = metaBytes flags := funext fun m => (metaBytes_eq_metadata flags m).symm
  rw [htable]
  exact ⟨fun m => ⟨rfl, metaBytes_length flags m⟩, parseMeta_metaBytes flags, fun content => metaBytes_parseMeta⟩

/-- Settles O1: each word is one the decoder's own tests evaluate. -/
theorem specWordsDecode : Obligations.SpecWordsDecode :=
  ⟨decode_nop, decode_rbWrite, decode_rbSkipuntil_99, decode_pcEncode, decode_fcSend, decode_fcRecv, decode_crEvictconn,
    by decide, by decide, by decide⟩

/-- Settles O56: each line's expansion, with the address of each register it names. -/
theorem assemblyLinesAreHostActions : Obligations.AssemblyLinesAreHostActions := by
  refine ⟨fun i => rfl, fun s p v hp _ => ?_, fun a bs => ?_, rfl, fun vs hvs => ?_, rfl, fun c => rfl, fun a bs => ?_,
    fun l l' => List.flatMap_append⟩
  · have hrow : p.1 ∈ csrMap := csrMap_eq_csrTable s ▸ List.mem_map_of_mem hp
    rw [assemble_singleton, asmExpand, asmSet, csrAddr_of_mem p.1 hrow]
  · rw [assemble_singleton, asmExpand, asmLoad_eq_mapIdx]
  · rw [assemble_singleton, asmExpand, zipWith_asmSet_argRegs hvs]
  · rw [assemble_singleton, asmExpand, asmLoad_eq_mapIdx]
    rfl

end Sys2Proof.Proofs.Encoding
end

section
/-! What the ring unit's commands read, in the statements' words (40_ringbuffer.md): ranges of SRC and of the ring, the
outcome of a search, a header's seven bytes, and RB.SKIPUNTIL's word. -/

namespace Sys2Proof.Machine

open Sys2Proof.Claims

variable {s : State}

/-! ## Bytes appended to a field (30 R65, 00 R11) -/

theorem toNat_append_byte {n : Nat} (hi : BitVec n) (lo : Byte) : (hi ++ lo).toNat = lo.toNat + 256 * hi.toNat := by
  rw [BitVec.toNat_append, ← Nat.shiftLeft_add_eq_or_of_lt lo.isLt, Nat.shiftLeft_eq]
  omega

theorem ofNat_toNat_add_bytes (lo hi : Byte) : BitVec.ofNat 16 (lo.toNat + 256 * hi.toNat) = (hi ++ lo : Half) := by
  rw [← toNat_append_byte]
  exact (BitVec.ofNat_toNat ..).trans (BitVec.setWidth_eq _)

/-- RB.SKIPUNTIL's word as 40 R106 writes it. -/
theorem encode_rbSkipuntil (v : Byte) : encode (.rbSkipuntil v) = BitVec.ofNat 32 (0x06 + 256 * v.toNat) := by
  rw [encode, ← BitVec.toNat_inj, toNat_append_byte, toNat_append_byte, BitVec.toNat_ofNat, Instr.imm, Instr.opcode]
  exact (Nat.mod_eq_of_lt (by omega)).symm

/-- PARSEHDR on seven bytes, field by field (30 R88, 10 R28). -/
theorem parseHdr_bytes (b0 b1 b2 b3 b4 b5 b6 : Byte) :
    parseHdr [b0, b1, b2, b3, b4, b5, b6] =
      { flags := b0, id := b2 ++ b1, len := b4 ++ b3, cksum := b6 ++ b5,
        computed := BitVec.ofNat 16 (f16 [b0, b1, b2, b3, b4]) } := by
  have hid : BitVec.ofNat 16 (rd16 [b0, b1, b2, b3, b4, b5, b6] 1) = b2 ++ b1 := ofNat_toNat_add_bytes b1 b2
  have hlen : BitVec.ofNat 16 (rd16 [b0, b1, b2, b3, b4, b5, b6] 3) = b4 ++ b3 := ofNat_toNat_add_bytes b3 b4
  have hck : BitVec.ofNat 16 (rd16 [b0, b1, b2, b3, b4, b5, b6] 5) = b6 ++ b5 := ofNat_toNat_add_bytes b5 b6
  simp only [parseHdr, hid, hlen, hck, hcs, toNat_append_byte, Proofs.Scope.le16_toNat]
  rfl

/-! ## Ranges of memory and of the ring (10 R39, R40, R41) -/

/-- A result that is a register's or a byte's own number is that register or byte, zero-extended. -/
theorem State.withRes0_toNat {n : Nat} (v : BitVec n) (s : State) :
    s.withRes0 v.toNat = { s with res := { s.res with r0 := v.setWidth 32 } } := by
  rw [State.withRes0, BitVec.ofNat_toNat]

theorem srcHolds_readBytes {a n : Nat} {bs : List Byte} (h : SrcHolds s a bs) (hn : bs.length = n) :
    s.src.readBytes a n = some bs :=
  (Memory.readBytes_eq_some h.1).mpr ⟨hn, h.2⟩

theorem written_writeBytes (m : Memory) (d : Nat) (bs : List Byte) : Written m d bs (m.writeBytes d bs) :=
  ⟨m.read_writeBytes_of_lt d bs, m.read_writeBytes_outside d bs⟩

/-- The `n` bytes from position `i` on are held if and only if `ringBytes` reads them within the count. -/
theorem ringHolds_iff_ringBytes {i n : Nat} {bs : List Byte} :
    RingHolds s i bs ∧ bs.length = n ↔ i + n ≤ s.ring.cnt ∧ ringBytes s i n = .ok bs := by
  rw [ringBytes_eq_ok]
  constructor
  · rintro ⟨⟨hheld, hbs⟩, rfl⟩
    exact ⟨hheld, rfl, hbs⟩
  · rintro ⟨hheld, rfl, hbs⟩
    exact ⟨⟨hheld, hbs⟩, rfl⟩

/-- A range is its first part and the rest. -/
theorem ringBytes_add {i m n : Nat} {l : List Byte} :
    ringBytes s i (m + n) = .ok l ↔
      ∃ p q, ringBytes s i m = .ok p ∧ ringBytes s (i + m) n = .ok q ∧ l = p ++ q := by
  induction m generalizing i l with
  | zero => simp [ringBytes]
  | succ m ih =>
    rw [Nat.succ_add, ringBytes, ringBytes, bind_eq_ok]
    simp only [bind_eq_ok, ih, Except.ok.injEq, Nat.add_right_comm i 1 m]
    constructor
    · rintro ⟨b, hb, _, ⟨p, q, hp, hq, rfl⟩, rfl⟩
      exact ⟨b :: p, q, ⟨b, hb, p, hp, rfl⟩, hq, rfl⟩
    · rintro ⟨_, q, ⟨b, hb, p, hp, rfl⟩, hq, rfl⟩
      exact ⟨b, hb, _, ⟨p, q, hp, hq, rfl⟩, rfl⟩

/-! ## The outcome of a search (40 R110) -/

/-- The search stops at the first position from `skip` on that holds the sentinel. -/
theorem scan_eq_found (h : s.ring.Inv s.params) {skip j : Nat} {v : Byte} (hskip : skip ≤ j) (hj : j < s.ring.cnt)
    (hv : ringByte s j = .ok v) (hfirst : ∀ j', skip ≤ j' → j' < j → ringByte s j' ≠ .ok v) :
    scan s skip v = .ok (true, j + 1) := by
  obtain ⟨r, hr⟩ := scan_ok h skip v
  rcases scan_cases hr with ⟨k, rfl, hk, -, hkv, hbefore⟩ | ⟨-, hnone⟩
  · rcases Nat.lt_trichotomy k j with hlt | rfl | hgt
    · exact absurd hkv (hfirst k hk hlt)
    · exact hr
    · obtain ⟨b, hb, hne⟩ := hbefore j hskip hgt
      exact absurd (Except.ok.inj (hb.symm.trans hv)) hne
  · obtain ⟨b, hb, hne⟩ := hnone j hskip hj
    exact absurd (Except.ok.inj (hb.symm.trans hv)) hne

theorem scan_eq_notFound (h : s.ring.Inv s.params) {skip : Nat} {v : Byte}
    (hnone : ∀ j, skip ≤ j → j < s.ring.cnt → ringByte s j ≠ .ok v) :
    scan s skip v = .ok (false, s.ring.cnt) := by
  obtain ⟨r, hr⟩ := scan_ok h skip v
  rcases scan_cases hr with ⟨k, -, hk, hlt, hkv, -⟩ | ⟨rfl, -⟩
  · exact absurd hkv (hnone k hk hlt)
  · exact hr

end Sys2Proof.Machine
end

section
/-! The ring as a queue (40_ringbuffer.md R108): its content under the append and ADVANCE, what each ring operation of
the host does, and that the bytes delivered and then those held are the bytes held before and then those accepted. -/

namespace Sys2Proof.Machine

open Sys2Proof.Claims

variable {s t : State}

/-! ## The ring's content (10 R39) -/

/-- The unconsumed bytes, oldest first, are exactly `q`. -/
def RingContent (s : State) (q : List Byte) : Prop := ringBytes s 0 s.ring.cnt = .ok q

theorem ringContent_iff {q : List Byte} : RingContent s q ↔ RingHolds s 0 q ∧ q.length = s.ring.cnt := by
  rw [ringHolds_iff_ringBytes, and_iff_right (Nat.zero_add _).le]
  rfl

theorem RingContent.congr {q : List Byte} (h : RingContent s q) (hr : t.ring = s.ring) (hp : t.params = s.params) :
    RingContent t q := by
  rwa [RingContent, hr, ringBytes_congr hr hp]

theorem RingContent.ringAppend {q bs : List Byte} (h : RingContent s q)
    (hfit : s.ring.cnt + bs.length ≤ ringCap s.params) : RingContent (s.ringAppend bs) (q ++ bs) := by
  obtain ⟨hold, hnew⟩ := ringByte_append hfit
  obtain ⟨hl, hq⟩ := ringBytes_eq_ok.mp h
  refine ringBytes_add.mpr ⟨q, bs, ringBytes_eq_ok.mpr ⟨hl, fun j hj => ?_⟩,
    ringBytes_eq_ok.mpr ⟨rfl, fun j hj => ?_⟩, rfl⟩
  · rw [hold _ (by omega), hq j hj]
  · rw [Nat.zero_add, hnew j hj]

/-- ADVANCE drops the bytes it consumes from the front of the content. -/
theorem RingContent.advance {q : List Byte} (h : RingContent s q) {n : Nat} (hn : n ≤ s.ring.cnt) :
    ∃ p q', ringBytes s 0 n = .ok p ∧ RingContent (s.advance n) q' ∧ q = p ++ q' := by
  rw [RingContent, ← Nat.add_sub_cancel' hn, ringBytes_add] at h
  obtain ⟨p, q', hp, hq', rfl⟩ := h
  refine ⟨p, q', hp, ?_, rfl⟩
  rw [RingContent, ringBytes_advance, Nat.add_comm n]
  exact hq'

/-! ## The host's ring operations (40 R108) -/

/-- The state in which a ring operation issues its command: the host has set up SRC and the ARG registers. -/
def State.setUp (op : RingOp) (s : State) : State :=
  match op with
  | .write bs => { s with src := cellsFrom 0 bs, args := { s.args with a0 := 0, a1 := BitVec.ofNat 32 bs.length } }
  | .read n => { s with args := { s.args with a0 := 0, a1 := BitVec.ofNat 32 n, a2 := 0 } }

/-- The command of a ring operation. -/
def ringCommand : RingOp → Instr
  | .write _ => .rbWrite
  | .read _ => .rbRead

theorem ringOp_eq_exec (s : State) (op : RingOp) : ringOp s op = exec (ringCommand op) (s.setUp op) := by
  cases op <;> rfl

@[simp] theorem State.setUp_ring (op : RingOp) (s : State) : (s.setUp op).ring = s.ring := by cases op <;> rfl
@[simp] theorem State.setUp_params (op : RingOp) (s : State) : (s.setUp op).params = s.params := by cases op <;> rfl

theorem State.Inv.setUp {op : RingOp} (h : s.Inv) (hop : op.fits s.params) : (s.setUp op).Inv := by
  cases op with
  | write bs =>
    have hle : bs.length ≤ s.params.srcSize := hop
    have hfits : Memory.fits (cellsFrom 0 bs) s.params.srcSize :=
      ⟨wf_cellsFrom 0 bs, fun c hc => by have := (mem_cellsFrom hc).2; omega⟩
    exact (State.inv_congr (t := s.setUp (.write bs)) (s := s.withSrc (cellsFrom 0 bs)) rfl rfl rfl rfl rfl).mpr
      (h.withSrc hfits)
  | read n => exact (State.inv_congr (t := s.setUp (.read n)) (s := s) rfl rfl rfl rfl rfl).mpr h

theorem ringOp_keeps_inv {op : RingOp} (h : s.Inv) (hop : op.fits s.params) (hr : ringOp s op = .next t) : t.Inv := by
  rw [ringOp_eq_exec] at hr
  exact exec_keeps_inv (h.setUp hop) hr

theorem ringOp_params {op : RingOp} (hr : ringOp s op = .next t) : t.params = s.params := by
  rw [ringOp_eq_exec] at hr
  obtain ⟨⟨hp, -⟩, -⟩ := exec_writes hr
  rw [hp, State.setUp_params]

/-- The first bytes of a range of cells. -/
theorem readBytes_cellsFrom {bs : List Byte} {k : Nat} (hk : k ≤ bs.length) :
    Memory.readBytes (cellsFrom 0 bs) 0 k = some (bs.take k) := by
  have hl := List.length_take_of_le hk
  refine (Memory.readBytes_eq_some (wf_cellsFrom 0 bs)).mpr ⟨hl, fun i hi => ?_⟩
  simp [read_cellsFrom, List.getElem?_eq_getElem (show i < bs.length by omega)]

/-- An operand up to a memory's size, which is below 2^32 (00 R7), is held whole. -/
theorem toNat_ofNat_of_le {n size : Nat} (hn : n ≤ size) (hsize : size ≤ 2 ^ 32 - 1) :
    (BitVec.ofNat 32 n).toNat = n := by
  rw [BitVec.toNat_ofNat, Nat.mod_eq_of_lt (by omega)]

/-- The number of bytes a write of `n` accepts (40 R101). -/
abbrev writeCount (s : State) (n : Nat) : Nat := min n (ringCap s.params - s.ring.cnt)

theorem writeCount_le (s : State) (n : Nat) : writeCount s n ≤ ringCap s.params - s.ring.cnt := Nat.min_le_right _ _

theorem toNat_writeCount (h : s.Inv) (n : Nat) : (BitVec.ofNat 32 (writeCount s n)).toNat = writeCount s n := by
  have hcap := ringCap_le h.params
  exact toNat_ofNat_of_le (writeCount_le s n) (by omega)

/-- A write runs, and the first of the bytes offered, as many as fit, join the ring. -/
theorem ringOp_write {bs : List Byte} (h : s.Inv) (hop : bs.length ≤ s.params.srcSize) :
    ringOp s (.write bs) = .next ((((s.setUp (.write bs)).ringAppend (bs.take (writeCount s bs.length))).withRes0
      (writeCount s bs.length)).withStatus .ok) := by
  have hn : opArg1 (s.setUp (.write bs)) = bs.length := toNat_ofNat_of_le hop (wellFormed_bounds h.params).1.2
  have h0 : opArg0 (s.setUp (.write bs)) = 0 := rfl
  rw [ringOp_eq_exec]
  refine execRbWrite_eq_next.mpr (.inr ?_)
  rw [hn, h0]
  exact ⟨by simpa using hop, bs.take (writeCount s bs.length), readBytes_cellsFrom (Nat.min_le_left _ _), rfl⟩

/-- A read of bytes that DST has room for: too few are held, or the `n` oldest are copied to DST and consumed. -/
theorem ringOp_read_cases {n : Nat} (h : s.Inv) (hop : n ≤ s.params.dstSize) (hr : ringOp s (.read n) = .next t) :
    (t = ((s.setUp (.read n)).withRes0 0).withStatus .needMore)
      ∨ (n ≤ s.ring.cnt ∧ ∃ bs, ringBytes s 0 n = .ok bs
        ∧ t = ((((s.setUp (.read n)).withDst (s.dst.writeBytes 0 bs)).advance n).withRes0 n).withStatus .ok) := by
  have hn : opArg1 (s.setUp (.read n)) = n := toNat_ofNat_of_le hop (wellFormed_bounds h.params).2.1.2
  have h0 : opArg0 (s.setUp (.read n)) = 0 := rfl
  have h2 : opArg2 (s.setUp (.read n)) = 0 := rfl
  rw [ringOp_eq_exec] at hr
  have hr := execRbRead_eq_next.mp hr
  rw [hn, h0, h2, Nat.zero_add, ringBytes_congr (State.setUp_ring _ s) (State.setUp_params _ s)] at hr
  rcases hr with ⟨hd, -⟩ | ⟨-, -, ht⟩ | ⟨-, hc, bs, hbs, ht⟩
  · exact absurd (by simpa using hop) hd
  · exact .inl ht
  · exact .inr ⟨hc, bs, hbs, ht⟩

/-! ## One operation, and any number of them -/

/-- A read delivers the bytes just written to DST, if RES0 counts them. -/
theorem delivered_read {n : Nat} {m : Memory} {bs : List Byte} (hdst : t.dst = m.writeBytes 0 bs)
    (hres : t.res.r0.toNat = bs.length) : delivered t (.read n) = bs := by
  rw [delivered, hdst, hres]
  refine List.ext_getElem (by simp) fun i _ hi => ?_
  simp [Memory.read_writeBytes, hi]

/-- One operation keeps the order: what it delivers and what is held after it are what was held before it and what it
accepts. -/
theorem ringOp_keeps_order {op : RingOp} {q : List Byte} (h : s.Inv) (hop : op.fits s.params) (hq : RingContent s q)
    (hr : ringOp s op = .next t) : ∃ q', RingContent t q' ∧ delivered t op ++ q' = q ++ accepted t op := by
  have hq' : RingContent (s.setUp op) q := hq.congr (State.setUp_ring op s) (State.setUp_params op s)
  cases op with
  | write bs =>
    obtain ⟨-, -, hcnt, -⟩ := h.ring
    rw [ringOp_write h hop] at hr
    injection hr with hr
    subst hr
    refine ⟨q ++ bs.take (writeCount s bs.length), (hq'.ringAppend ?_).congr rfl rfl, ?_⟩
    · have hroom := writeCount_le s bs.length
      simp only [State.setUp_ring, State.setUp_params, List.length_take]
      omega
    · simp [delivered, accepted, toNat_writeCount h]
  | read n =>
    rcases ringOp_read_cases h hop hr with rfl | ⟨hn, bs, hbs, rfl⟩
    · exact ⟨q, hq'.congr rfl rfl, by simp [delivered, accepted]⟩
    · obtain ⟨p, q', hp, hadv, rfl⟩ := hq.advance hn
      obtain rfl : p = bs := by simpa [hp] using hbs
      have hl := ringBytes_length hp
      subst hl
      have hres := toNat_ofNat_of_le hop (wellFormed_bounds h.params).2.1.2
      exact ⟨q', hadv.congr rfl rfl, by rw [delivered_read rfl hres, accepted, List.append_nil]⟩

/-- Any run of operations keeps the order (40 R108). -/
theorem queue_keeps_order {ops : List RingOp} {ins outs q : List Byte} (h : s.Inv)
    (hops : ∀ op ∈ ops, op.fits s.params) (hq : RingContent s q) (hrun : Queue ops s ins outs t) :
    ∃ q', RingContent t q' ∧ outs ++ q' = q ++ ins := by
  induction hrun generalizing q with
  | nil s => exact ⟨q, hq, (List.append_nil q).symm⟩
  | @cons op ops s t u ins outs hr _ ih =>
    have hop := hops op List.mem_cons_self
    have hrest : ∀ o ∈ ops, o.fits t.params := fun o ho => ringOp_params hr ▸ hops o (List.mem_cons_of_mem _ ho)
    obtain ⟨q₁, hq₁, hfirst⟩ := ringOp_keeps_order h hop hq hr
    obtain ⟨q', hq', hafter⟩ := ih (ringOp_keeps_inv h hop hr) hrest hq₁
    refine ⟨q', hq', ?_⟩
    calc delivered t op ++ outs ++ q'
      _ = (delivered t op ++ q₁) ++ ins := by rw [List.append_assoc, hafter, List.append_assoc]
      _ = q ++ (accepted t op ++ ins) := by rw [hfirst, List.append_assoc]

end Sys2Proof.Machine
end

section
/-! The proofs of the ring buffer chapter's statements (40_ringbuffer.md). -/

namespace Sys2Proof.Proofs.RingBuffer

open Sys2Proof Sys2Proof.Machine Sys2Proof.Claims

/-- Settles O27: each operation keeps the order of the bytes, so any sequence does; a write that fits SRC always runs. -/
theorem ringIsFifo : Obligations.RingIsFifo := by
  refine ⟨fun ops s t ins outs q h hops hq hl hrun => ?_,
    fun s bs h hb => ⟨_, ringOp_write h hb, toNat_writeCount h _⟩⟩
  obtain ⟨q', hq', horder⟩ := queue_keeps_order h hops (ringContent_iff.mpr ⟨hq, hl⟩) hrun
  obtain ⟨hheld, hlen⟩ := ringContent_iff.mp hq'
  exact ⟨q', hheld, hlen, horder⟩

/-- Settles O20: the bytes of SRC join the ring behind those held, and only the indices they take are stored to. -/
theorem rbWriteAppendsWhatFits : Obligations.RbWriteAppendsWhatFits := by
  refine ⟨decode_rbWrite, fun s bs hcnt => ⟨fun h => ?_, fun h hsrc hk => ?_⟩⟩
  · exact execRbWrite_eq_next.mpr (.inl ⟨Nat.not_le.mpr h, rfl⟩)
  · obtain ⟨hold, hnew⟩ := ringByte_append (s := s) (bs := bs) (by omega)
    refine ⟨_, execRbWrite_eq_next.mpr (.inr ⟨h, bs, srcHolds_readBytes hsrc hk, rfl⟩), ?_, hold,
      ⟨Nat.le_refl _, hnew⟩, fun x hx => ?_⟩
    · rw [← hk]
      rfl
    · exact read_ringStore_outside fun j hj => (hx j (hk ▸ hj)).symm

/-- Settles O21: the checks in order, then the copy to DST and the ADVANCE past the bytes skipped and read. -/
theorem rbReadCopiesAndConsumes : Obligations.RbReadCopiesAndConsumes := by
  refine ⟨decode_rbRead, fun s bs => ⟨fun h => ?_, fun hd hl => ?_, fun hd hr hn => ?_⟩⟩
  · exact execRbRead_eq_next.mpr (.inl ⟨Nat.not_le.mpr h, rfl⟩)
  · exact execRbRead_eq_next.mpr (.inr (.inl ⟨hd, hl, rfl⟩))
  · obtain ⟨hheld, hbs⟩ := ringHolds_iff_ringBytes.mp ⟨hr, hn⟩
    refine ⟨_, execRbRead_eq_next.mpr (.inr (.inr ⟨hd, hheld, bs, hbs, rfl⟩)), ?_, written_writeBytes _ _ _,
      ringByte_advance s _⟩
    rw [State.withRes0_toNat]
    rfl

/-- Settles O22: RB.READ's checks and copy; no operation touches the ring. -/
theorem rbPeekCopiesOnly : Obligations.RbPeekCopiesOnly := by
  refine ⟨decode_rbPeek, fun s bs => ⟨fun h => ?_, fun hd hl => ?_, fun hd hr hn => ?_⟩⟩
  · exact execRbPeek_eq_next.mpr (.inl ⟨Nat.not_le.mpr h, rfl⟩)
  · exact execRbPeek_eq_next.mpr (.inr (.inl ⟨hd, hl, rfl⟩))
  · obtain ⟨hheld, hbs⟩ := ringHolds_iff_ringBytes.mp ⟨hr, hn⟩
    refine ⟨_, execRbPeek_eq_next.mpr (.inr (.inr ⟨hd, hheld, bs, hbs, rfl⟩)), ?_, written_writeBytes _ _ _⟩
    rw [State.withRes0_toNat]
    rfl

/-- Settles O23: a held byte is read at `off`, and its number is itself, zero-extended. -/
theorem rbPeekbReturnsOneByte : Obligations.RbPeekbReturnsOneByte := by
  refine ⟨decode_rbPeekb, fun s b => ⟨fun h => ?_, fun ⟨hheld, hb⟩ => ?_⟩⟩
  · exact execRbPeekb_eq_next.mpr (.inl ⟨h, rfl⟩)
  · refine execRbPeekb_eq_next.mpr (.inr ⟨hheld, b, hb 0 Nat.one_pos, ?_⟩)
    rw [State.withRes0_toNat]
    rfl

/-- Settles O24: the seven bytes at `skip` are PARSEHDR's, whose fields are the bytes in little-endian order. -/
theorem rbPeekhdrParsesHeader : Obligations.RbPeekhdrParsesHeader := by
  refine ⟨decode_rbPeekhdr, fun s b0 b1 b2 b3 b4 b5 b6 => ⟨fun h => ?_, fun h => ?_⟩⟩
  · exact execRbPeekhdr_eq_next.mpr (.inl ⟨h, rfl⟩)
  · obtain ⟨hheld, hbs⟩ := ringHolds_iff_ringBytes.mp ⟨h, rfl⟩
    refine execRbPeekhdr_eq_next.mpr (.inr ⟨hheld, _, hbs, ?_⟩)
    rw [parseHdr_bytes]
    rfl

/-- Settles O25: the search finds the first sentinel from `skip` on, or none, and ADVANCE consumes what it names. -/
theorem rbSkipuntilConsumesThroughSentinel : Obligations.RbSkipuntilConsumesThroughSentinel := by
  refine fun v s h => ⟨?_, fun j hskip hj hv hfirst => ?_, fun hnone => ?_⟩
  · rw [← encode_rbSkipuntil]
    exact decode_encode _
  · exact execRbSkipuntil_eq_next.mpr ⟨true, j + 1, scan_eq_found h hskip hj hv hfirst, rfl⟩
  · exact execRbSkipuntil_eq_next.mpr ⟨false, s.ring.cnt, scan_eq_notFound h hnone, rfl⟩

/-- Settles O26: `rd` and `cnt` are 0, and RING is not written. -/
theorem rbClearEmptiesRing : Obligations.RbClearEmptiesRing := ⟨decode_rbClear, execRbClear_eq⟩

end Sys2Proof.Proofs.RingBuffer
end

section
/-! What the payload codec's commands give, in the statements' words (41_payload_codec.md): the one 0x00 of the stuffed
form, a PC.ENCODE that ends with OK, a PC.DECODE whose region un-stuffs, and PC.HCS's operands. -/

namespace Sys2Proof.Machine

open Sys2Proof.Claims

variable {s t : State}

/-! ## The stuffed form (00 R17) -/

/-- COBS leaves no 0x00, so the terminator is the only one. -/
theorem stuff_getElem_eq_zero_iff (c : List Byte) {i : Nat} (hi : i < (stuff c).length) :
    (stuff c)[i] = 0#8 ↔ i = (stuff c).length - 1 := by
  have hlen : (stuff c).length = (cobs (c ++ le16 (f16 c))).length + 1 := List.length_append
  constructor
  · intro hz
    by_contra hne
    have hcobs : i < (cobs (c ++ le16 (f16 c))).length := by omega
    have hget : (stuff c)[i] = (cobs (c ++ le16 (f16 c)))[i] := List.getElem_append_left hcobs
    exact cobs_ne_zero _ _ (List.getElem_mem hcobs) (hget.symm.trans hz)
  · rintro rfl
    simp [stuff]

theorem read_writeBytes_stuff_eq_zero_iff (m : Memory) (d : Nat) (c : List Byte) {i : Nat} (hi : i < (stuff c).length) :
    (m.writeBytes d (stuff c)).read (d + i) = some 0#8 ↔ i = (stuff c).length - 1 := by
  rw [Memory.read_writeBytes_of_lt m d _ i hi, Option.some.injEq, stuff_getElem_eq_zero_iff c hi]

/-! ## The outcomes (41 R121, R122) -/

/-- PC.ENCODE reports OK only when the stuffed form fits DST, and then it is there and RES0 is its length. -/
theorem execPcEncode_ok {c : List Byte} (hsrc : SrcHolds s s.args.a0.toNat c) (hlen : c.length = s.args.a1.toNat)
    (h : execPcEncode s = .next t) (hok : t.status = .ok) :
    inDst s s.args.a2.toNat (stuff c).length ∧ t.dst = s.dst.writeBytes s.args.a2.toNat (stuff c)
      ∧ t.res.r0 = BitVec.ofNat 32 (stuff c).length := by
  rcases execPcEncode_eq_next.mp h with ⟨-, rfl⟩ | ⟨-, c', hc', ⟨-, rfl⟩ | ⟨hd, rfl⟩⟩
  · cases hok
  · cases hok
  · obtain rfl : c = c' := Option.some.inj ((srcHolds_readBytes hsrc hlen).symm.trans hc')
    exact ⟨hd, rfl, rfl⟩

theorem execPcDecode_of_unstuff {region : List Byte} {u : Unstuffed}
    (ha : inSrc s s.args.a0.toNat s.args.a1.toNat) (hd : inDst s s.args.a2.toNat s.args.a1.toNat)
    (hsrc : SrcHolds s s.args.a0.toNat region) (hlen : region.length = s.args.a1.toNat)
    (hu : unstuff region = some u) :
    execPcDecode s =
      .next (((((s.withDst (s.dst.writeBytes s.args.a2.toNat u.content)).withRes0 u.content.length).withRes1
        u.computed).withRes2 u.carried).withStatus (if u.computed = u.carried then .ok else .plChecksum)) :=
  execPcDecode_eq_next.mpr (.inr ⟨ha, hd, region, srcHolds_readBytes hsrc hlen, .inr ⟨u, hu, rfl⟩⟩)

/-! ## PC.HCS's operands (30 R70, 41 R123) -/

theorem le16_lowHalf (w : Word) : le16 (w.extractLsb' 0 16).toNat = [w.setWidth 8, (w >>> 8).setWidth 8] := by
  rw [← bytes16_eq_le16, ← BitVec.setWidth_eq_extractLsb' (by decide), bytes16,
    BitVec.setWidth_setWidth_of_le _ (by decide)]
  simp only [List.cons.injEq, and_true, true_and, ← BitVec.toNat_inj, BitVec.toNat_setWidth, BitVec.toNat_ushiftRight,
    Nat.shiftRight_eq_div_pow]
  omega

theorem hcs_operands (s : State) : hcs (opHcsFlags s) (opHcsId s) (opHcsLen s) =
    f16 [s.args.a0.setWidth 8, s.args.a1.setWidth 8, (s.args.a1 >>> 8).setWidth 8, s.args.a2.setWidth 8,
      (s.args.a2 >>> 8).setWidth 8] := by
  rw [hcs, le16_lowHalf, le16_lowHalf, opHcsFlags, ← BitVec.setWidth_eq_extractLsb' (by decide)]
  rfl

end Sys2Proof.Machine
end

section
/-! The proofs of the payload codec chapter's statements (41_payload_codec.md). -/

namespace Sys2Proof.Proofs.PayloadCodec

open Sys2Proof Sys2Proof.Machine Sys2Proof.Claims

/-- Settles O33: DST holds the stuffed form, whose length RES0 shows whole, and without the terminator it un-stuffs to
the content and its checksum. -/
theorem encodeDecodeRoundTrip : Obligations.EncodeDecodeRoundTrip := by
  intro s t c hinv hsrc hlen henc hok
  obtain ⟨hd, hdst, hres⟩ := execPcEncode_ok hsrc hlen henc hok
  have hr0 : t.res.r0.toNat = (stuff c).length := by
    obtain ⟨-, ⟨-, hsize⟩, -⟩ := wellFormed_bounds hinv.params
    rw [hres, toNat_ofNat_of_le (Nat.le_trans (Nat.le_add_left ..) hd) hsize]
  rw [hr0, hdst]
  refine ⟨fun i hi => read_writeBytes_stuff_eq_zero_iff _ _ _ hi, fun u hwf hcopy hm ha hdu => ?_⟩
  have hregion : SrcHolds u u.args.a0.toNat (stuff c).dropLast := by
    refine ⟨hwf, fun i hi => ?_⟩
    rw [List.length_dropLast] at hi
    rw [hcopy i hi, Memory.read_writeBytes_of_lt _ _ _ i (by omega), List.getElem_dropLast]
  have hm' : (stuff c).dropLast.length = u.args.a1.toNat := by
    rw [List.length_dropLast]
    omega
  have hn : BitVec.ofNat 32 c.length = s.args.a1 := by rw [hlen, BitVec.ofNat_toNat, BitVec.setWidth_eq]
  exact ⟨_, execPcDecode_of_unstuff ha hdu hregion hm' (unstuff_stuff c), if_pos rfl, hn, rfl, rfl,
    written_writeBytes ..⟩

/-- Settles O30: the checks in order, then the stuffed form in DST, whose only 0x00 is the terminator. -/
theorem pcEncodeStuffsContent : Obligations.PcEncodeStuffsContent := by
  refine ⟨decode_pcEncode, fun s c => ⟨fun h => ?_, fun ha hsrc hlen => ⟨fun hd => ?_, fun hd => ?_⟩⟩⟩
  · exact execPcEncode_eq_next.mpr (.inl ⟨Nat.not_le.mpr h, rfl⟩)
  · exact execPcEncode_eq_next.mpr (.inr ⟨ha, c, srcHolds_readBytes hsrc hlen, .inl ⟨Nat.not_le.mpr hd, rfl⟩⟩)
  · exact ⟨_, execPcEncode_eq_next.mpr (.inr ⟨ha, c, srcHolds_readBytes hsrc hlen, .inr ⟨hd, rfl⟩⟩), rfl,
      written_writeBytes .., fun i hi => read_writeBytes_stuff_eq_zero_iff _ _ _ hi⟩

/-- Settles O31: the checks in order, then `m` free bytes for a malformed region, or the content, at least 2 bytes
shorter than the region. -/
theorem pcDecodeUnstuffsRegion : Obligations.PcDecodeUnstuffsRegion := by
  refine ⟨decode_pcDecode, fun s region => ⟨fun h => ?_, fun ha hd hsrc hlen => ⟨fun hu => ?_, fun u hu => ?_⟩⟩⟩
  · exact execPcDecode_eq_next.mpr (.inl ⟨h.imp Nat.not_le.mpr Nat.not_le.mpr, rfl⟩)
  · have hm : (freeBytes s.freeCtr s.args.a1.toNat).length = s.args.a1.toNat := freeBytes_length ..
    obtain ⟨hinside, houtside⟩ := written_writeBytes s.dst s.args.a2.toNat (freeBytes s.freeCtr s.args.a1.toNat)
    rw [hm] at houtside
    exact ⟨_, execPcDecode_eq_next.mpr (.inr ⟨ha, hd, region, srcHolds_readBytes hsrc hlen, .inl ⟨hu, rfl⟩⟩), rfl,
      fun i hi => Option.isSome_of_eq_some (hinside i (hm.symm ▸ hi)), houtside⟩
  · exact ⟨_, execPcDecode_of_unstuff ha hd hsrc hlen hu, rfl, written_writeBytes .., hlen ▸ unstuff_length hu⟩

/-- Settles O32: the operands' low bytes are the bytes of R19's checksum. -/
theorem pcHcsChecksumsHeader : Obligations.PcHcsChecksumsHeader := by
  refine ⟨decode_pcHcs, fun s => ?_⟩
  rw [← hcs_operands]
  exact execPcHcs_eq s

end Sys2Proof.Proofs.PayloadCodec
end

section
/-! Building frames in the statements' words (30_encoding.md R73, R90, 42_frame_codec.md R131, R132): what BUILDFRAME
gives, and FC.SEND's frames, one or a chunk sequence. -/

namespace Sys2Proof.Machine

open Sys2Proof.Claims

variable {s t : State}

/-! ## One frame (30 R90) -/

theorem le16_toNat_ofNat (n : Nat) : le16 (BitVec.ofNat 16 n).toNat = le16 n := by
  simp only [le16, List.cons.injEq, and_true, ← BitVec.toNat_inj, BitVec.toNat_ofNat]
  omega

/-- A frame is its header and its stuffed region (30 R73). -/
theorem frame_eq_header_append (flags : Byte) (id : Half) (m : MetaFields) (p : List Byte) :
    frame flags id m p =
      headerBytes flags id (BitVec.ofNat 16 (dataLength flags m p))
          (hcs flags id (BitVec.ofNat 16 (dataLength flags m p)))
        ++ stuff (metaBytes flags m ++ p) := rfl

theorem frame_length (flags : Byte) (id : Half) (m : MetaFields) (p : List Byte) :
    (frame flags id m p).length = 7 + dataLength flags m p := by
  rw [frame_eq_header_append, List.length_append, headerBytes_length, dataLength]

/-- What BUILDFRAME returns for a frame that is not too long. -/
def builtFrame (flags : Byte) (id : Half) (m : MetaFields) (p : List Byte) : BuiltFrame where
  bytes := frame flags id m p
  pcs := f16 (metaBytes flags m ++ p)
  hcs := hcs flags id (BitVec.ofNat 16 (dataLength flags m p))

theorem buildFrame_eq_ite (flags : Byte) (id : Half) (m : MetaFields) (p : List Byte) :
    buildFrame flags id m p = if 65535 < dataLength flags m p then none else some (builtFrame flags id m p) := by
  simp only [buildFrame, builtFrame, frame, dataLength, le16_toNat_ofNat, gt_iff_lt]

theorem buildFrame_of_gt {flags : Byte} {m : MetaFields} {p : List Byte} (h : 65535 < dataLength flags m p)
    (id : Half) : buildFrame flags id m p = none :=
  (buildFrame_eq_ite ..).trans (if_pos h)

theorem buildFrame_of_le {flags : Byte} {m : MetaFields} {p : List Byte} (h : dataLength flags m p ≤ 65535)
    (id : Half) : buildFrame flags id m p = some (builtFrame flags id m p) :=
  (buildFrame_eq_ite ..).trans (if_neg h.not_gt)

/-- A payload of at most `MAXPL_LIMIT` bytes fits a frame, whatever its metadata (30 R83). -/
theorem dataLength_le (flags : Byte) (m : MetaFields) {p : List Byte} (hp : p.length ≤ 65257) :
    dataLength flags m p ≤ 65535 := by
  obtain ⟨-, hstuff⟩ := stuff_length (metaBytes flags m ++ p)
  have hmeta := metaLen_le flags
  rw [List.length_append, metaBytes_length] at hstuff
  unfold dataLength
  omega

theorem buildFrame_of_payload_le (flags : Byte) (id : Half) (m : MetaFields) {p : List Byte} (hp : p.length ≤ 65257) :
    buildFrame flags id m p = some (builtFrame flags id m p) :=
  buildFrame_of_le (dataLength_le flags m hp) id

theorem joinFrames_map_some (l : List BuiltFrame) :
    joinFrames (l.map some) = some (l.map BuiltFrame.bytes).flatten := by
  induction l with
  | nil => rfl
  | cons f l ih => rw [List.map_cons, joinFrames, ih, Option.map_some, List.map_cons, List.flatten_cons]

/-! ## FC.BUILD (42 R131) -/

/-- `s` after FC.BUILD wrote the frame `f`. -/
def State.built (s : State) (f : BuiltFrame) : State :=
  { s with
    dst := s.dst.writeBytes (opArg2 s) f.bytes
    res := { s.res with r0 := BitVec.ofNat 32 f.bytes.length, r1 := BitVec.ofNat 32 f.pcs, r2 := BitVec.ofNat 32 f.hcs }
    status := .ok }

theorem State.built_eq_writes (s : State) (f : BuiltFrame) :
    s.built f = ((((s.withDst (s.dst.writeBytes (opArg2 s) f.bytes)).withRes0 f.bytes.length).withRes1 f.pcs).withRes2
      f.hcs).withStatus .ok := rfl

section
variable {p : List Byte} (ha : inSrc s (opArg0 s) (opArg1 s)) (hsrc : SrcHolds s (opArg0 s) p)
  (hlen : p.length = opArg1 s)
include ha hsrc hlen

theorem execFcBuild_tooLong (hL : 65535 < dataLength s.tx.flags (txMeta s) p) :
    execFcBuild s = .next (s.withStatus .tooLong) :=
  execFcBuild_eq_next.mpr (.inr ⟨ha, p, srcHolds_readBytes hsrc hlen, .inl ⟨buildFrame_of_gt hL _, rfl⟩⟩)

theorem execFcBuild_no_room (hL : dataLength s.tx.flags (txMeta s) p ≤ 65535)
    (hd : s.params.dstSize < opArg2 s + (frame s.tx.flags s.tx.id (txMeta s) p).length) :
    execFcBuild s = .next (s.withStatus .outOfRange) :=
  execFcBuild_eq_next.mpr (.inr ⟨ha, p, srcHolds_readBytes hsrc hlen, .inr ⟨_, buildFrame_of_le hL _,
    .inl ⟨hd.not_ge, rfl⟩⟩⟩)

theorem execFcBuild_builds (hL : dataLength s.tx.flags (txMeta s) p ≤ 65535)
    (hd : inDst s (opArg2 s) (frame s.tx.flags s.tx.id (txMeta s) p).length) :
    execFcBuild s = .next (s.built (builtFrame s.tx.flags s.tx.id (txMeta s) p)) :=
  execFcBuild_eq_next.mpr (.inr ⟨ha, p, srcHolds_readBytes hsrc hlen, .inr ⟨_, buildFrame_of_le hL _,
    .inr ⟨hd, State.built_eq_writes ..⟩⟩⟩)

end

/-! ## FC.SEND's frames (42 R132) -/

/-- The metadata of the frame that carries a whole payload: no chunk fields. -/
def wholeMeta (s : State) : MetaFields :=
  { reqid := s.tx.reqid, pktid := 0, offset := 0, total := 0, ulen := s.tx.ulen }

theorem sendFrames_of_le {p : List Byte} (hM : s.tx.maxpl.toNat ≤ 65257) (hp : p.length ≤ s.tx.maxpl.toNat) :
    sendFrames s p = [builtFrame s.tx.flags s.tx.id (wholeMeta s) p].map some := by
  rw [sendFrames, if_pos hp]
  exact congrArg (fun f => [f]) (buildFrame_of_payload_le _ _ (wholeMeta s) (hp.trans hM))

/-- The metadata of the `j`-th chunk of a payload of `n` bytes. -/
def sentChunkMeta (s : State) (n j : Nat) : MetaFields where
  reqid := s.tx.reqid
  pktid := nextPid s
  offset := BitVec.ofNat 32 (j * s.tx.maxpl.toNat)
  total := BitVec.ofNat 32 n
  ulen := s.tx.ulen

/-- The frame of the `j`-th chunk of the payload `p`. -/
def sentChunk (s : State) (p : List Byte) (j : Nat) : BuiltFrame :=
  builtFrame (withChk s.tx.flags) s.tx.id (sentChunkMeta s p.length j)
    ((p.drop (j * s.tx.maxpl.toNat)).take s.tx.maxpl.toNat)

theorem sendFrames_of_gt {p : List Byte} (hM : s.tx.maxpl.toNat ≤ 65257) (hp : s.tx.maxpl.toNat < p.length) :
    sendFrames s p =
      ((List.range ((p.length + s.tx.maxpl.toNat - 1) / s.tx.maxpl.toNat)).map (sentChunk s p)).map some := by
  rw [sendFrames, if_neg hp.not_ge, chunkPieces, List.map_map, List.map_map]
  refine List.map_congr_left fun j _ => ?_
  exact buildFrame_of_payload_le _ _ (sentChunkMeta s p.length j) ((List.length_take_le _ _).trans hM)

/-- FC.SEND's arguments pass its first check (42 R132). -/
theorem sendArgs_legal (hchk : s.tx.flags.getLsbD 2 = false) (hM1 : 1 ≤ s.tx.maxpl.toNat)
    (hM : s.tx.maxpl.toNat ≤ 65257) :
    ¬ (flagChk s.tx.flags = true ∨ s.tx.maxpl.toNat < 1 ∨ s.tx.maxpl.toNat > maxplLimit) := by
  rintro (h | h | h)
  · exact absurd (hchk.symm.trans h) (by decide)
  · omega
  · exact absurd hM h.not_ge

/-- `s` after FC.SEND wrote `count` frames, the bytes `out`, and reported the packetID `pid`. -/
def State.sent (s : State) (out : List Byte) (count : Nat) (pktCtr pid : Word) : State :=
  { s with
    dst := s.dst.writeBytes (opArg2 s) out, pktCtr := pktCtr
    res := { s.res with r0 := BitVec.ofNat 32 out.length, r1 := BitVec.ofNat 32 count, r2 := pid }
    status := .ok }

section
variable {p out : List Byte}
  (hchk : s.tx.flags.getLsbD 2 = false) (hM1 : 1 ≤ s.tx.maxpl.toNat) (hM : s.tx.maxpl.toNat ≤ 65257)
  (ha : inSrc s (opArg0 s) (opArg1 s)) (hsrc : SrcHolds s (opArg0 s) p) (hlen : p.length = opArg1 s)
  (hout : joinFrames (sendFrames s p) = some out)
include hchk hM1 hM ha hsrc hlen hout

theorem execFcSend_no_room (hd : s.params.dstSize < opArg2 s + out.length) :
    execFcSend s = .next (s.withStatus .outOfRange) :=
  execFcSend_eq_next.mpr (.inr ⟨sendArgs_legal hchk hM1 hM, .inr ⟨ha, p, srcHolds_readBytes hsrc hlen, out, hout,
    .inl ⟨hd.not_ge, rfl⟩⟩⟩)

theorem execFcSend_sends (hd : inDst s (opArg2 s) out.length) :
    execFcSend s = .next (s.sent out (sendFrames s p).length
      (if opArg1 s ≤ s.tx.maxpl.toNat then s.pktCtr else sentPid s) (sentPid s)) := by
  refine execFcSend_eq_next.mpr (.inr ⟨sendArgs_legal hchk hM1 hM, .inr ⟨ha, p, srcHolds_readBytes hsrc hlen, out, hout,
    .inr ⟨hd, ?_⟩⟩⟩)
  rw [State.withRes2, BitVec.ofNat_toNat, BitVec.setWidth_eq]
  rfl

end

/-- Setting a flag that is clear is adding it: `fl + 4` (42 R132). -/
theorem withChk_eq_or {flags : Byte} (h : flags.getLsbD 2 = false) : withChk flags = flags ||| 0x04#8 := by
  revert flags
  decide

/-- `PKT_CTR + 1` is 0 after the last packetID only, which is then followed by 1 (10 R27). -/
theorem nextPid_eq_ite (s : State) : nextPid s = if s.pktCtr = 0xFFFFFFFF#32 then 1 else s.pktCtr + 1 := by
  have hlast : s.pktCtr + 1 = 0 ↔ s.pktCtr = 0xFFFFFFFF#32 := by bv_omega
  simp only [nextPid, hlast]

end Sys2Proof.Machine
end

section
/-! Receiving frames in the statements' words (42_frame_codec.md R133, R135): the header and the frame at the front of
the ring, what TRYPARSE answers for them, the resynchronisation, and the delivery. -/

namespace Sys2Proof.Machine

open Sys2Proof.Claims

variable {s t : State} {h : HdrRegs} {u : Unstuffed}

/-! ## The front of the ring (10 R28, 30 R79) -/

/-- The header at the front is PARSEHDR of the seven oldest bytes. -/
theorem headerAt_iff_parseHdr :
    HeaderAt s h ↔ hdrSize ≤ s.ring.cnt ∧ ∃ bs, ringBytes s 0 hdrSize = .ok bs ∧ h = parseHdr bs := by
  constructor
  · rintro ⟨b0, b1, b2, b3, b4, b5, b6, hr, rfl⟩
    obtain ⟨hheld, hbs⟩ := ringHolds_iff_ringBytes.mp ⟨hr, rfl⟩
    exact ⟨by simpa using hheld, _, hbs, (parseHdr_bytes ..).symm⟩
  · rintro ⟨hheld, bs, hbs, rfl⟩
    obtain ⟨hr, hl⟩ := ringHolds_iff_ringBytes.mpr ⟨by simpa using hheld, hbs⟩
    match bs, hl with
    | [b0, b1, b2, b3, b4, b5, b6], _ => exact ⟨b0, b1, b2, b3, b4, b5, b6, hr, parseHdr_bytes ..⟩

theorem exists_headerAt (hring : s.ring.Inv s.params) (hheld : 7 ≤ s.ring.cnt) : ∃ h, HeaderAt s h := by
  obtain ⟨bs, hbs⟩ := ringBytes_ok hring (i := 0) (n := hdrSize) (by omega)
  exact ⟨_, headerAt_iff_parseHdr.mpr ⟨hheld, bs, hbs, rfl⟩⟩

/-- The region of a whole frame is what `ringBytes` reads between its header and its terminator. -/
theorem regionGives_iff_unstuff {o : Option Unstuffed} (hf : FrameAt s h) :
    RegionGives s h o ↔ ∃ region, ringBytes s hdrSize (h.len.toNat - 1) = .ok region ∧ unstuff region = o := by
  obtain ⟨-, ⟨-, hleast, -⟩, hheld, -⟩ := hf
  constructor
  · rintro ⟨region, hr, hl, hu⟩
    exact ⟨region, (ringHolds_iff_ringBytes.mp ⟨hr, by omega⟩).2, hu⟩
  · rintro ⟨region, hbs, hu⟩
    obtain ⟨hr, hl⟩ := ringHolds_iff_ringBytes.mpr ⟨by simp only [hdrSize]; omega, hbs⟩
    exact ⟨region, hr, by omega, hu⟩

/-- What stands at the front of the ring depends on the ring and its capacity only. -/
theorem validFrameAt_congr (hr : t.ring = s.ring) (hp : t.params = s.params) :
    ValidFrameAt t h u ↔ ValidFrameAt s h u := by
  simp only [ValidFrameAt, FrameAt, HeaderAt, HeaderGood, RegionGives, RingHolds, ringByte_congr hr hp, hr, hp]

/-! ## The HDR registers are read by no part of FC.RECV but TRYPARSE -/

theorem ringBytes_withHdr (i n : Nat) : ringBytes (s.withHdr h) i n = ringBytes s i n :=
  ringBytes_congr (t := s.withHdr h) (s := s) rfl rfl i n

theorem crCore_withHdr (conn : Half) (pid : Word) (off tot : Nat) (data : List Byte) (d : Nat) :
    crCore (s.withHdr h) conn pid off tot data d = crCore s conn pid off tot data d :=
  crCore_congr (t := s.withHdr h) (s := s) rfl rfl rfl rfl conn pid off tot data d

/-! ## TRYPARSE (42 R133) -/

theorem tryParse_of_short (hc : s.ring.cnt < 7) : tryParse s = .ok (.needMore, s.hdr) := if_pos hc

/-- The header does not pass, whatever follows it. -/
theorem tryParse_of_not_good (hh : HeaderAt s h) (hg : ¬ HeaderGood s h) : tryParse s = .ok (.hdrCorrupt, h) := by
  obtain ⟨hheld, bs, hbs, rfl⟩ := headerAt_iff_parseHdr.mp hh
  rw [tryParse, if_neg hheld.not_gt, hbs, ok_bind]
  by_cases hck : (parseHdr bs).cksum = (parseHdr bs).computed
  · rw [if_neg (not_not.mpr hck), if_pos]
    by_contra hlen
    simp only [hdrSize, minDataLen] at hlen
    exact hg ⟨hck, by omega, by omega⟩
  · exact if_pos hck

/-- The header passes, and the frame is not held whole. -/
theorem tryParse_of_incomplete (hh : HeaderAt s h) (hg : HeaderGood s h) (hc : s.ring.cnt < 7 + h.len.toNat) :
    tryParse s = .ok (.needMore, h) := by
  obtain ⟨hheld, bs, hbs, rfl⟩ := headerAt_iff_parseHdr.mp hh
  obtain ⟨hck, hleast, hmost⟩ := hg
  rw [tryParse, if_neg hheld.not_gt, hbs, ok_bind]
  rw [if_neg (not_not.mpr hck), if_neg (by simp only [hdrSize, minDataLen]; omega), if_pos hc]

/-- The header passes and the frame is held whole: its last byte decides. -/
theorem tryParse_of_whole {b : Byte} (hh : HeaderAt s h) (hg : HeaderGood s h) (hc : 7 + h.len.toNat ≤ s.ring.cnt)
    (hb : ringByte s (7 + h.len.toNat - 1) = .ok b) :
    tryParse s = .ok (if b ≠ 0#8 then .hdrCorrupt else .frame, h) := by
  obtain ⟨hheld, bs, hbs, rfl⟩ := headerAt_iff_parseHdr.mp hh
  obtain ⟨hck, hleast, hmost⟩ := hg
  rw [tryParse, if_neg hheld.not_gt, hbs, ok_bind]
  rw [if_neg (not_not.mpr hck), if_neg (by simp only [hdrSize, minDataLen]; omega), if_neg hc.not_gt, hb, ok_bind]
  split <;> rfl

theorem tryParse_of_frameAt (hf : FrameAt s h) : tryParse s = .ok (.frame, h) := by
  obtain ⟨hh, hg, hc, hb⟩ := hf
  exact tryParse_of_whole hh hg hc hb

/-! ## The resynchronisation (42 R135) -/

/-- `s` after a failure that consumes `k` bytes (42 R135's FAIL). -/
def resynced (code : Status) (k : Nat) (s : State) : State :=
  (((s.advance k).withRes0 k).withRes1 0).withStatus code

theorem throughFirstZero_of_scan {r : Bool × Nat} (hr : scan s 0 0#8 = .ok r) : ThroughFirstZero s r.2 := by
  have hne {j : Nat} : (∃ b, ringByte s j = .ok b ∧ b ≠ 0#8) → ringByte s j ≠ .ok 0#8 := by
    rintro ⟨b, hb, hz⟩ h0
    exact hz (Except.ok.inj (hb.symm.trans h0))
  rcases scan_cases hr with ⟨j, rfl, -, hj, hz, hfirst⟩ | ⟨rfl, hnone⟩
  · exact .inl ⟨j, hj, rfl, hz, fun j' hj' => hne (hfirst j' j'.zero_le hj')⟩
  · exact .inr ⟨rfl, fun j hj => hne (hnone j j.zero_le hj)⟩

theorem recvFail_eq_resynced {code : Status} (hr : recvFail code s = .ok t) :
    ∃ k, ThroughFirstZero s k ∧ t = resynced code k s := by
  obtain ⟨found, k, hscan, rfl⟩ := recvFail_eq_ok.mp hr
  exact ⟨k, throughFirstZero_of_scan hscan, rfl⟩

theorem recvFail_resyncs (hring : s.ring.Inv s.params) (code : Status) :
    ∃ k, ThroughFirstZero s k ∧ recvFail code s = .ok (resynced code k s) := by
  obtain ⟨t, ht⟩ := recvFail_ok (code := code) hring
  obtain ⟨k, hk, rfl⟩ := recvFail_eq_resynced ht
  exact ⟨k, hk, ht⟩

/-! ## FC.RECV's failures (42 R135, R136) -/

theorem execFcRecv_hdrCorrupt (hinv : s.Inv) (hh : HeaderAt s h)
    (hwhole : HeaderGood s h → 7 + h.len.toNat ≤ s.ring.cnt) (hf : ¬ FrameAt s h) :
    ∃ k, ThroughFirstZero s k ∧ execFcRecv s = .next (resynced .hdrCorrupt k (s.withHdr h)) := by
  have hparse : tryParse s = .ok (.hdrCorrupt, h) := by
    by_cases hg : HeaderGood s h
    · have hc := hwhole hg
      obtain ⟨b, hb⟩ := ringByte_ok hinv.ring (i := 7 + h.len.toNat - 1) (by omega)
      have hne : b ≠ 0#8 := fun h0 => hf ⟨hh, hg, hc, h0 ▸ hb⟩
      rw [tryParse_of_whole hh hg hc hb, if_pos hne]
    · exact tryParse_of_not_good hh hg
  obtain ⟨k, hk, hfail⟩ := recvFail_resyncs (s := s.withHdr h) hinv.ring .hdrCorrupt
  exact ⟨k, hk, execFcRecv_of_hdrCorrupt hparse hfail⟩

theorem execFcRecv_plMalformed (hinv : s.Inv) (hf : FrameAt s h)
    (hr : RegionGives s h none ∨ ∃ u, RegionGives s h (some u) ∧ u.content.length < metaLen h.flags) :
    ∃ k, ThroughFirstZero s k ∧ execFcRecv s = .next (resynced .plMalformed k (s.withHdr h)) := by
  have hbad : ∃ region, ringBytes s hdrSize (h.len.toNat - 1) = .ok region
      ∧ (uncobs region = none ∨ ∃ r, uncobs region = some r ∧ r.length < 2 + metaLen h.flags) := by
    simp only [regionGives_iff_unstuff hf] at hr
    rcases hr with ⟨region, hbs, hu⟩ | ⟨u, ⟨region, hbs, hu⟩, hshort⟩
    · refine ⟨region, hbs, (unstuff_eq_none.mp hu).imp_right ?_⟩
      exact fun ⟨r, hr, hl⟩ => ⟨r, hr, by omega⟩
    · obtain ⟨r, hr, -, rfl⟩ := unstuff_eq_some.mp hu
      rw [splitChecksum_content_length] at hshort
      exact ⟨region, hbs, .inr ⟨r, hr, by omega⟩⟩
  obtain ⟨region, hbs, hbad⟩ := hbad
  obtain ⟨k, hk, hfail⟩ := recvFail_resyncs (s := s.withHdr h) hinv.ring .plMalformed
  exact ⟨k, hk, execFcRecv_of_frame (tryParse_of_frameAt hf)
    (recvFrame_of_malformed (s := s.withHdr h) ((ringBytes_withHdr ..).trans hbs) hbad hfail)⟩

/-- The content of a frame's region that un-stuffs, in terms of UNCOBS. -/
theorem regionGives_some_uncobs (hf : FrameAt s h) (hr : RegionGives s h (some u))
    (hlong : metaLen h.flags ≤ u.content.length) :
    ∃ region r, ringBytes (s.withHdr h) hdrSize (h.len.toNat - 1) = .ok region ∧ uncobs region = some r
      ∧ 2 + metaLen h.flags ≤ r.length ∧ u = splitChecksum r := by
  obtain ⟨region, hbs, hu⟩ := (regionGives_iff_unstuff hf).mp hr
  obtain ⟨r, hcobs, hl, rfl⟩ := unstuff_eq_some.mp hu
  rw [splitChecksum_content_length] at hlong
  exact ⟨region, r, (ringBytes_withHdr ..).trans hbs, hcobs, by omega, rfl⟩

/-- The RX registers after a payload checksum that does not match: the two checksums alone are new (10 R31). -/
def badChecksums (u : Unstuffed) (r : RxRegs) : RxRegs :=
  { r with pcsCalc := BitVec.ofNat 16 u.computed, pcsRcvd := BitVec.ofNat 16 u.carried }

theorem execFcRecv_plChecksum (hinv : s.Inv) (hf : FrameAt s h) (hr : RegionGives s h (some u))
    (hlong : metaLen h.flags ≤ u.content.length) (hne : u.computed ≠ u.carried) :
    ∃ k, ThroughFirstZero s k
      ∧ execFcRecv s = .next (resynced .plChecksum k ((s.withHdr h).withRx (badChecksums u s.rx))) := by
  obtain ⟨region, r, hbs, hu, hl, rfl⟩ := regionGives_some_uncobs hf hr hlong
  obtain ⟨k, hk, hfail⟩ :=
    recvFail_resyncs (s := (s.withHdr h).withRx (badChecksums (splitChecksum r) s.rx)) hinv.ring .plChecksum
  exact ⟨k, hk, execFcRecv_of_frame (tryParse_of_frameAt hf)
    (recvFrame_of_checksum (s := s.withHdr h) hbs hu hl hne hfail)⟩

/-! ## The delivery of a valid frame (42 R135, R137) -/

theorem execFcRecv_of_validFrameAt (hv : ValidFrameAt s h u) (hd : recvDeliver s (s.withHdr h) u = .ok t) :
    execFcRecv s = .next t := by
  obtain ⟨hf, hr, hlong, hck⟩ := hv
  obtain ⟨region, r, hbs, hu, hl, rfl⟩ := regionGives_some_uncobs hf hr hlong
  exact execFcRecv_of_frame (tryParse_of_frameAt hf) (recvFrame_of_valid (s := s.withHdr h) hbs hu hl hck hd)

/-- `s` after FC.RECV took a valid frame, reporting the value `v` and the status `st`. What the delivery writes, slots
and DST, is already in `s`. -/
def received (h : HdrRegs) (u : Unstuffed) (v : Word) (st : Status) (s : State) : State :=
  { s with
    hdr := h, rx := rxOf h u, ring := consumed s (7 + h.len.toNat)
    res := { s.res with r0 := BitVec.ofNat 32 (7 + h.len.toNat), r1 := v }
    status := st }

section
variable {m : MetaFields} {p : List Byte} (hv : ValidFrameAt s h u) (hm : parseMeta h.flags u.content = (m, p))
include hv hm

theorem execFcRecv_no_room (hchk : flagChk h.flags = false) (hd : s.params.dstSize < opArg0 s + p.length) :
    execFcRecv s = .next (s.withStatus .outOfRange) := by
  refine execFcRecv_of_validFrameAt hv ?_
  simp only [recvDeliver, State.withHdr_hdr, hm, hchk, Bool.false_eq_true, if_false]
  exact if_pos hd.not_ge

theorem execFcRecv_delivers (hchk : flagChk h.flags = false) (hd : opArg0 s + p.length ≤ s.params.dstSize) :
    execFcRecv s = .next (received h u (BitVec.ofNat 32 p.length) .ok (s.withDst (s.dst.writeBytes (opArg0 s) p))) := by
  refine execFcRecv_of_validFrameAt hv ?_
  simp only [recvDeliver, State.withHdr_hdr, hm, hchk, Bool.false_eq_true, if_false, received, rxOf]
  exact if_neg (not_not.mpr hd)

/-- A chunk goes to the reassembler core, with CONN_ID and the frame's own fields (42 R137). -/
theorem execFcRecv_chunk_outOfRange (hchk : flagChk h.flags = true)
    (hr : crCore s s.connId m.pktid m.offset.toNat m.total.toNat p (opArg0 s) = .ok .outOfRange) :
    execFcRecv s = .next (s.withStatus .outOfRange) := by
  refine execFcRecv_of_validFrameAt hv ?_
  rw [← crCore_withHdr (h := h)] at hr
  simp only [recvDeliver, State.withHdr_hdr, hm, hchk, if_true, State.withHdr_connId, hr, ok_bind, State.raise_eq]

theorem execFcRecv_chunk_done {st : Status} {x : Nat} {slots : List Slot} {dst : Memory} (hchk : flagChk h.flags = true)
    (hr : crCore s s.connId m.pktid m.offset.toNat m.total.toNat p (opArg0 s) = .ok (.done st x slots dst)) :
    execFcRecv s =
      .next (received h u (if st = .assembled then m.total else 0) st ((s.withSlots slots).withDst dst)) := by
  refine execFcRecv_of_validFrameAt hv ?_
  rw [← crCore_withHdr (h := h)] at hr
  have hvalue : BitVec.ofNat 32 (if st = .assembled then m.total.toNat else 0) =
      if st = .assembled then m.total else 0 := by
    split
    · exact BitVec.ofNat_toNat 32 m.total ▸ BitVec.setWidth_eq _
    · rfl
  simp only [recvDeliver, State.withHdr_hdr, hm, hchk, if_true, State.withHdr_connId, hr, ok_bind, received, rxOf,
    ← hvalue]
  rfl

/-- The payload is shorter than its frame's region, whose length is 16 bits. -/
theorem payload_lt_of_validFrameAt : p.length < 65536 := by
  obtain ⟨-, ⟨region, -, hregion, hu⟩, hlong, -⟩ := hv
  have hcontent := unstuff_length hu
  have hsplit := congrArg List.length (metaBytes_parseMeta hlong)
  simp only [hm, List.length_append] at hsplit
  have hlen := h.len.isLt
  omega

end

/-- CR.RECV of the bytes `p` at SRC's start, with the operands of a frame's chunk (42 R137): the core's answer. -/
theorem execCrRecv_of_chunk {c ct : State} {conn : Half} {d pid off tot : Word} {p : List Byte} (hsrc : SrcHolds c 0 p)
    (hsize : p.length ≤ c.params.srcSize) (hp : p.length < 65536)
    (hargs : c.args = { a0 := 0, a1 := BitVec.ofNat 32 p.length, a2 := d, a3 := pid, a4 := off, a5 := tot,
                        a6 := conn.setWidth 32, a7 := 0 })
    (hr : execCrRecv c = .next ct) :
    (crCore c conn pid off.toNat tot.toNat p d.toNat = .ok .outOfRange ∧ ct = c.withStatus .outOfRange)
      ∨ ∃ st x slots dst, crCore c conn pid off.toNat tot.toNat p d.toNat = .ok (.done st x slots dst)
        ∧ ct = (((c.withSlots slots).withDst dst).withRes0 x).withStatus st := by
  have h0 : opArg0 c = 0 := by rw [opArg0, hargs]; rfl
  have h1 : opArg1 c = p.length := by
    rw [opArg1, hargs]
    exact (BitVec.toNat_ofNat ..).trans (Nat.mod_eq_of_lt (by omega))
  have hconn : opRecvConn c = conn := by
    rw [opRecvConn, hargs, ← BitVec.setWidth_eq_extractLsb' (by decide), BitVec.setWidth_setWidth_of_le _ (by decide),
      BitVec.setWidth_eq]
  have hr := execCrRecv_eq_next.mp hr
  rw [h0, h1, hconn, opPid, opOffset, opTotal, opArg2, hargs] at hr
  rcases hr with ⟨hin, -⟩ | ⟨-, data, hdata, r, hcore, hend⟩
  · exact absurd (by simpa using hsize) hin
  · obtain rfl : p = data := Option.some.inj ((srcHolds_readBytes hsrc rfl).symm.trans hdata)
    rcases hend with ⟨rfl, rfl⟩ | ⟨st, x, slots, dst, rfl, rfl⟩
    · exact .inl ⟨hcore, rfl⟩
    · exact .inr ⟨st, x, slots, dst, hcore, rfl⟩

end Sys2Proof.Machine
end

section
/-! A built frame received (42_frame_codec.md R140): FC.BUILD's OK, and a ring whose content is a built frame. -/

namespace Sys2Proof.Machine

open Sys2Proof.Claims

variable {s t : State} {q : List Byte}

/-! ## Parts of the ring's content (10 R39) -/

theorem RingContent.ringByte {b : Byte} {j : Nat} (hq : RingContent s q) (hb : q[j]? = some b) :
    ringByte s j = .ok b := by
  obtain ⟨hj, rfl⟩ := List.getElem?_eq_some_iff.mp hb
  obtain ⟨-, hbytes⟩ := ringBytes_eq_ok.mp hq
  simpa using hbytes j hj

theorem RingContent.ringBytes {i n : Nat} (hq : RingContent s q) (hn : i + n ≤ q.length) :
    ringBytes s i n = .ok ((q.drop i).take n) := by
  have hl : ((q.drop i).take n).length = n := by rw [List.length_take, List.length_drop]; omega
  refine ringBytes_eq_ok.mpr ⟨hl, fun j hj => hq.ringByte ?_⟩
  rw [List.getElem_take, List.getElem_drop]
  exact List.getElem?_eq_getElem (by omega)

theorem RingContent.length (hq : RingContent s q) : q.length = s.ring.cnt := ringBytes_length hq

/-- Bytes written to an empty ring that can hold them are its content. -/
theorem execRbWrite_of_empty {bs : List Byte} (ha : inSrc s (opArg0 s) (opArg1 s))
    (hsrc : s.src.readBytes (opArg0 s) (opArg1 s) = some bs) (hempty : s.ring.cnt = 0)
    (hcap : bs.length ≤ ringCap s.params) :
    ∃ v, execRbWrite s = .next v ∧ RingContent v bs ∧ v.params = s.params := by
  have hall : min (opArg1 s) (ringCap s.params - s.ring.cnt) = opArg1 s :=
    Nat.min_eq_left (by rwa [hempty, ← Memory.readBytes_length hsrc])
  have hnil : RingContent s [] := by rw [RingContent, hempty, Machine.ringBytes]
  exact ⟨_, execRbWrite_eq_next.mpr (.inr ⟨ha, bs, hall.symm ▸ hsrc, rfl⟩),
    (hnil.ringAppend (by rwa [hempty, Nat.zero_add])).congr rfl rfl, rfl⟩

/-! ## FC.BUILD's frame (42 R131) -/

/-- FC.BUILD reports OK only when the frame is not too long, and then it is in DST and RES0 is its length. -/
theorem execFcBuild_ok {p : List Byte} (hsrc : SrcHolds s s.args.a0.toNat p) (hlen : p.length = s.args.a1.toNat)
    (h : execFcBuild s = .next t) (hok : t.status = .ok) :
    dataLength s.tx.flags (txMeta s) p ≤ 65535
      ∧ t.dst = s.dst.writeBytes s.args.a2.toNat (frame s.tx.flags s.tx.id (txMeta s) p)
      ∧ t.res.r0.toNat = (frame s.tx.flags s.tx.id (txMeta s) p).length := by
  rcases execFcBuild_eq_next.mp h with ⟨-, rfl⟩ | ⟨-, p', hp', ⟨-, rfl⟩ | ⟨f, hf, ⟨-, rfl⟩ | ⟨-, rfl⟩⟩⟩
  · cases hok
  · cases hok
  · cases hok
  · obtain rfl : p = p' := Option.some.inj ((srcHolds_readBytes hsrc hlen).symm.trans hp')
    have hL : dataLength s.tx.flags (txMeta s) p ≤ 65535 := by
      by_contra hL
      cases hf.symm.trans (buildFrame_of_gt (Nat.lt_of_not_le hL) s.tx.id)
    obtain rfl : builtFrame s.tx.flags s.tx.id (txMeta s) p = f :=
      Option.some.inj ((buildFrame_of_le hL s.tx.id).symm.trans hf)
    have hlength := frame_length s.tx.flags s.tx.id (txMeta s) p
    have hword : (frame s.tx.flags s.tx.id (txMeta s) p).length < 2 ^ 32 := by omega
    exact ⟨hL, rfl, (BitVec.toNat_ofNat ..).trans (Nat.mod_eq_of_lt hword)⟩

/-- The header of a built frame, as the HDR registers hold it. -/
def builtHdr (flags : Byte) (id : Half) (L : Nat) : HdrRegs where
  flags := flags
  id := id
  len := BitVec.ofNat 16 L
  cksum := BitVec.ofNat 16 (hcs flags id (BitVec.ofNat 16 L))
  computed := BitVec.ofNat 16 (hcs flags id (BitVec.ofNat 16 L))

theorem builtHdr_len_toNat (flags : Byte) (id : Half) {L : Nat} (hL : L ≤ 65535) :
    (builtHdr flags id L).len.toNat = L :=
  (BitVec.toNat_ofNat ..).trans (Nat.mod_eq_of_lt (by omega))

/-- What a built frame's region un-stuffs to. -/
def builtContent (flags : Byte) (m : MetaFields) (p : List Byte) : Unstuffed where
  content := metaBytes flags m ++ p
  carried := f16 (metaBytes flags m ++ p)
  computed := f16 (metaBytes flags m ++ p)

section
variable (flags : Byte) (id : Half) (m : MetaFields) (p : List Byte)

theorem parseHdr_take_frame :
    parseHdr ((frame flags id m p).take 7) = builtHdr flags id (dataLength flags m p) := by
  rw [frame_eq_header_append, List.take_left' (headerBytes_length ..), parseHdr_headerBytes]
  rfl

theorem frame_drop_header : (frame flags id m p).drop 7 = stuff (metaBytes flags m ++ p) := by
  rw [frame_eq_header_append, List.drop_left' (headerBytes_length ..)]

theorem frame_getLast? : (frame flags id m p).getLast? = some 0#8 := by
  rw [frame_eq_header_append, stuff, ← List.append_assoc, List.getLast?_concat]

theorem dataLength_ge : 4 ≤ dataLength flags m p := by
  obtain ⟨hstuff, -⟩ := stuff_length (metaBytes flags m ++ p)
  exact (Nat.le_add_left ..).trans hstuff

end

/-- The RX registers that describe a built frame show what it was built from, the absent fields as 0. -/
theorem rxOf_built (flags : Byte) (id : Half) (L : Nat) (m : MetaFields) (p : List Byte) :
    rxOf (builtHdr flags id L) (builtContent flags m p) =
      { flags := flags, id := id, reqid := (presentFields flags m).reqid, pktid := (presentFields flags m).pktid
        offset := (presentFields flags m).offset, total := (presentFields flags m).total
        ulen := (presentFields flags m).ulen, len := BitVec.ofNat 32 p.length
        pcsCalc := BitVec.ofNat 16 (f16 (metaBytes flags m ++ p))
        pcsRcvd := BitVec.ofNat 16 (f16 (metaBytes flags m ++ p)) } := by
  simp only [rxOf, builtHdr, builtContent, parseMeta_metaBytes]

/-- A ring whose content is a built frame, and whose capacity is at least its length, has a valid frame at its front. -/
theorem validFrameAt_of_built {flags : Byte} {id : Half} {m : MetaFields} {p : List Byte}
    (hq : RingContent s (frame flags id m p)) (hL : dataLength flags m p ≤ 65535)
    (hcap : (frame flags id m p).length ≤ ringCap s.params) :
    ValidFrameAt s (builtHdr flags id (dataLength flags m p)) (builtContent flags m p) := by
  have hlen := builtHdr_len_toNat flags id hL
  have hlength := frame_length flags id m p
  have hcnt := hq.length
  have hleast := dataLength_ge flags m p
  have hheader : HeaderAt s (builtHdr flags id (dataLength flags m p)) :=
    headerAt_iff_parseHdr.mpr ⟨by simp only [hdrSize]; omega, _, hq.ringBytes (by simp only [hdrSize]; omega),
      (parseHdr_take_frame flags id m p).symm⟩
  have hlast : ringByte s (7 + dataLength flags m p - 1) = .ok 0#8 := by
    rw [← hlength]
    exact hq.ringByte (List.getLast?_eq_getElem? ▸ frame_getLast? flags id m p)
  have hframe : FrameAt s (builtHdr flags id (dataLength flags m p)) :=
    ⟨hheader, ⟨rfl, by omega, by omega⟩, by omega, hlen.symm ▸ hlast⟩
  refine ⟨hframe, (regionGives_iff_unstuff hframe).mpr ⟨_, hq.ringBytes (by simp only [hdrSize]; omega), ?_⟩, ?_, rfl⟩
  · rw [hlen, frame_drop_header, dataLength, ← List.dropLast_eq_take, unstuff_stuff]
    rfl
  · simp [builtHdr, builtContent]

end Sys2Proof.Machine
end

section
/-! Resynchronisation (42_frame_codec.md R138): how far a failing FC.RECV consumes, and the run of FC.RECV commands that
ends behind a corrupted frame. -/

namespace Sys2Proof.Machine

open Sys2Proof.Claims

variable {s t v w : State} {X Y q : List Byte} {k : Nat}

/-! ## The ring after its oldest bytes are consumed (40 R100) -/

theorem consumed_add (hr : v.ring = consumed s k) (hp : v.params = s.params) (n : Nat) :
    consumed v n = consumed s (k + n) := by
  simp only [consumed, hr, hp, Nat.mod_add_mod, Nat.add_assoc, Nat.sub_sub]

theorem RingContent.of_consumed (hq : RingContent s q) (hk : k ≤ q.length) (hr : v.ring = consumed s k)
    (hp : v.params = s.params) : RingContent v (q.drop k) := by
  obtain ⟨p, q', hpre, hq', rfl⟩ := hq.advance (hq.length ▸ hk)
  rw [List.drop_left' (ringBytes_length hpre)]
  exact hq'.congr hr hp

/-- The first 0x00 of the ring is no later than the last byte of a part of it that ends in 0x00. -/
theorem throughFirstZero_bounds (hk : ThroughFirstZero s k) (hq : RingContent s (X ++ Y)) (hX : X.getLast? = some 0#8) :
    1 ≤ k ∧ k ≤ X.length := by
  rw [List.getLast?_eq_getElem?] at hX
  obtain ⟨hlt, -⟩ := List.getElem?_eq_some_iff.mp hX
  have hzero : ringByte s (X.length - 1) = .ok 0#8 := hq.ringByte (by rwa [List.getElem?_append_left hlt])
  have hcnt := hq.length
  rw [List.length_append] at hcnt
  rcases hk with ⟨j, -, rfl, -, hfirst⟩ | ⟨-, hnone⟩
  · have hj : ¬ X.length - 1 < j := fun hlt => hfirst _ hlt hzero
    omega
  · exact absurd hzero (hnone _ (by omega))

/-! ## A failing FC.RECV (42 R135) -/

/-- The statuses of FC.RECV that resynchronise. -/
def Status.Resyncs (st : Status) : Prop := st = .hdrCorrupt ∨ st = .plMalformed ∨ st = .plChecksum

theorem recvDeliver_not_resyncs {s0 : State} {u : Unstuffed} (h : recvDeliver s0 s u = .ok t) : ¬ t.status.Resyncs := by
  rcases recvDeliver_cases h with ⟨-, -, rfl⟩ | ⟨-, -, rfl⟩ | ⟨-, r, hr, ⟨-, rfl⟩ | ⟨st, x, slots, dst, rfl, rfl⟩⟩
  · simp [Status.Resyncs]
  · simp [Status.Resyncs]
  · simp [Status.Resyncs]
  · rcases crCore_status hr with rfl | rfl | rfl | rfl <;> simp [Status.Resyncs]

/-- Whatever its reason, a failure consumes through the first 0x00. -/
theorem execFcRecv_resyncs_ring (hr : execFcRecv s = .next t) (hst : t.status.Resyncs) :
    ∃ k, ThroughFirstZero s k ∧ t.ring = consumed s k := by
  rcases execFcRecv_cases hr with ⟨p, hd, -, ⟨-, rfl⟩ | ⟨-, hfail⟩ | ⟨-, hframe⟩⟩
  · simp [Status.Resyncs] at hst
  · obtain ⟨k, hk, rfl⟩ := recvFail_eq_resynced hfail
    exact ⟨k, hk, rfl⟩
  · rcases recvFrame_cases hframe with ⟨region, -, ⟨-, hfail⟩ | ⟨r, -, -, ⟨-, hfail⟩ | ⟨-, hdeliver⟩⟩⟩
    · obtain ⟨k, hk, rfl⟩ := recvFail_eq_resynced hfail
      exact ⟨k, hk, rfl⟩
    · obtain ⟨k, hk, rfl⟩ := recvFail_eq_resynced hfail
      exact ⟨k, hk, rfl⟩
    · exact absurd hst (recvDeliver_not_resyncs hdeliver)

/-- `v` is `s` after one or more failing FC.RECV commands that consumed `k` bytes in all. -/
def FailsTo (s : State) (k : Nat) (v : State) : Prop :=
  v.status.Resyncs
    ∧ v = { s with ring := consumed s k, hdr := v.hdr, res := v.res, rx := v.rx, status := v.status }

theorem FailsTo.ring (h : FailsTo s k v) : v.ring = consumed s k := congrArg State.ring h.2
theorem FailsTo.params (h : FailsTo s k v) : v.params = s.params := by rw [h.2]
theorem FailsTo.args (h : FailsTo s k v) : v.args = s.args := by rw [h.2]
theorem FailsTo.dst (h : FailsTo s k v) : v.dst = s.dst := by rw [h.2]

theorem FailsTo.trans {n : Nat} (h : FailsTo s k v) (h' : FailsTo v n w) : FailsTo s (k + n) w := by
  refine ⟨h'.1, ?_⟩
  rw [← consumed_add h.ring h.params n]
  exact h'.2.trans (by rw [h.2])

/-- What stands at the front is no valid frame, nor the beginning of one: its header's checksum does not match, or the
frame it names is held whole. -/
def Rejected (s : State) : Prop :=
  ∀ h : HdrRegs, HeaderAt s h → h.cksum = h.computed →
    7 + h.len.toNat ≤ s.ring.cnt ∧ ∀ u : Unstuffed, ¬ ValidFrameAt s h u

theorem execFcRecv_of_rejected (hinv : s.Inv) (hheld : 7 ≤ s.ring.cnt) (hrej : Rejected s) :
    ∃ k v, ThroughFirstZero s k ∧ execFcRecv s = .next v ∧ FailsTo s k v := by
  obtain ⟨h, hh⟩ := exists_headerAt hinv.ring hheld
  by_cases hf : FrameAt s h
  · obtain ⟨-, hinvalid⟩ := hrej h hh hf.2.1.1
    obtain ⟨region, hbs⟩ := ringBytes_ok hinv.ring (i := hdrSize) (n := h.len.toNat - 1) (by
      obtain ⟨-, ⟨-, hleast, -⟩, hwhole, -⟩ := hf
      simp only [hdrSize]
      omega)
    have hr : RegionGives s h (unstuff region) := (regionGives_iff_unstuff hf).mpr ⟨region, hbs, rfl⟩
    cases hu : unstuff region with
    | none =>
      obtain ⟨k, hk, hrecv⟩ := execFcRecv_plMalformed hinv hf (.inl (hu ▸ hr))
      exact ⟨k, _, hk, hrecv, .inr (.inl rfl), rfl⟩
    | some u =>
      rw [hu] at hr
      by_cases hshort : u.content.length < metaLen h.flags
      · obtain ⟨k, hk, hrecv⟩ := execFcRecv_plMalformed hinv hf (.inr ⟨u, hr, hshort⟩)
        exact ⟨k, _, hk, hrecv, .inr (.inl rfl), rfl⟩
      · have hne : u.computed ≠ u.carried := fun heq => hinvalid u ⟨hf, hr, Nat.le_of_not_lt hshort, heq⟩
        obtain ⟨k, hk, hrecv⟩ := execFcRecv_plChecksum hinv hf hr (Nat.le_of_not_lt hshort) hne
        exact ⟨k, _, hk, hrecv, .inr (.inr rfl), rfl⟩
  · obtain ⟨k, hk, hrecv⟩ := execFcRecv_hdrCorrupt hinv hh (fun hg => (hrej h hh hg.1).1) hf
    exact ⟨k, _, hk, hrecv, .inl rfl, rfl⟩

/-! ## The run to the next frame (42 R138) -/

theorem matchingHeader_of_headerAt {h : HdrRegs} (hq : RingContent s q) (hh : HeaderAt s h)
    (hck : h.cksum = h.computed) : MatchingHeader q := by
  obtain ⟨b0, b1, b2, b3, b4, b5, b6, hr, rfl⟩ := hh
  obtain ⟨hheld, hbs⟩ := ringHolds_iff_ringBytes.mp ⟨hr, rfl⟩
  have hlen : 7 ≤ q.length := by simpa [hq.length] using hheld
  have hfront : q.take 7 = [b0, b1, b2, b3, b4, b5, b6] :=
    Except.ok.inj ((hq.ringBytes (i := 0) (by omega)).symm.trans hbs)
  have hsplit := List.take_append_drop 7 q
  rw [hfront] at hsplit
  refine ⟨hlen, ?_⟩
  rw [← hsplit]
  have hnum := congrArg BitVec.toNat hck
  rw [toNat_append_byte, BitVec.toNat_ofNat, Nat.mod_eq_of_lt (f16_lt _)] at hnum
  exact hnum

theorem rejected_of_no_match (hq : RingContent s q) (hno : ¬ MatchingHeader q) : Rejected s :=
  fun _ hh hck => absurd (matchingHeader_of_headerAt hq hh hck) hno

/-- From a ring that holds a rejected `X`, in which no later position starts a matching header, FC.RECV commands fail
until exactly `X` is consumed. -/
theorem exists_resync_run (hinv : s.Inv) (hq : RingContent s (X ++ Y)) (hX : X.getLast? = some 0#8)
    (hY : 7 ≤ Y.length) (hrej : Rejected s)
    (hlater : ∀ j, 0 < j → j < X.length → ¬ MatchingHeader ((X ++ Y).drop j)) :
    ∃ vs t, Receives s vs t ∧ t.ring = consumed s X.length
      ∧ ∀ v ∈ t :: vs, ∃ k, 1 ≤ k ∧ k ≤ X.length ∧ FailsTo s k v := by
  induction hn : X.length using Nat.strong_induction_on generalizing s X with
  | _ n ih =>
  subst hn
  have hheld : 7 ≤ s.ring.cnt := by
    rw [← hq.length, List.length_append]
    omega
  obtain ⟨k, v, hk, hrecv, hfail⟩ := execFcRecv_of_rejected hinv hheld hrej
  obtain ⟨h1, hle⟩ := throughFirstZero_bounds hk hq hX
  rcases hle.eq_or_lt with rfl | hlt
  · exact ⟨[v], v, .cons hrecv (.nil v), hfail.ring, by simpa using ⟨_, h1, hle, hfail⟩⟩
  · have hrest : (X ++ Y).drop k = X.drop k ++ Y := List.drop_append_of_le_length hle
    have hqv : RingContent v (X.drop k ++ Y) :=
      hrest ▸ hq.of_consumed (by rw [List.length_append]; omega) hfail.ring hfail.params
    have hrejv : Rejected v := rejected_of_no_match hqv (hrest ▸ hlater k h1 hlt)
    obtain ⟨vs, t, hrun, hring, hall⟩ := ih (X.drop k).length (by rw [List.length_drop]; omega)
      (exec_keeps_inv (i := .fcRecv) hinv hrecv) hqv (by rw [List.getLast?_drop, if_neg hlt.not_ge, hX]) hrejv
      (fun j h0 hj => by
        rw [List.length_drop] at hj
        rw [← hrest, List.drop_drop]
        exact hlater (k + j) (by omega) (by omega)) rfl
    rw [List.length_drop] at hring hall
    refine ⟨v :: vs, t, .cons hrecv hrun, ?_, fun w hw => ?_⟩
    · rw [hring, consumed_add hfail.ring hfail.params, Nat.add_sub_cancel' hle]
    · have hcases : w = v ∨ w ∈ t :: vs := by
        simp only [List.mem_cons] at hw ⊢
        tauto
      rcases hcases with rfl | hw
      · exact ⟨k, h1, hle, hfail⟩
      · obtain ⟨j, -, hj, hfailw⟩ := hall w hw
        exact ⟨k + j, by omega, by omega, hfail.trans hfailw⟩

end Sys2Proof.Machine
end

section
/-! The proofs of the frame codec chapter's statements (42_frame_codec.md). -/

namespace Sys2Proof.Proofs.FrameCodec

open Sys2Proof Sys2Proof.Machine Sys2Proof.Claims

/-- Settles O34: the checks in order, then BUILDFRAME's frame in DST. -/
theorem fcBuildWritesFrame : Obligations.FcBuildWritesFrame := by
  refine ⟨decode_fcBuild, fun s p => ?_⟩
  intro a n d m L
  have hlength : (frame s.tx.flags s.tx.id m p).length = 7 + L := frame_length ..
  rw [← hlength]
  refine ⟨fun h => ?_, fun ha hsrc hlen => ⟨execFcBuild_tooLong ha hsrc hlen, execFcBuild_no_room ha hsrc hlen,
    fun hL hd => ?_⟩⟩
  · exact execFcBuild_eq_next.mpr (.inl ⟨Nat.not_le.mpr h, rfl⟩)
  · have hbuild := execFcBuild_builds ha hsrc hlen hL hd
    exact ⟨_, hbuild, rfl, rfl, written_writeBytes ..⟩

/-- Settles O35: the checks in order, then the one frame without chunk fields in DST. -/
theorem fcSendOneFrame : Obligations.FcSendOneFrame := by
  refine ⟨decode_fcSend, fun s p => ⟨fun h => ?_, fun hchk hM1 hM => ⟨fun h => ?_, fun ha hsrc hlen hn => ?_⟩⟩⟩
  · exact execFcSend_eq_next.mpr (.inl ⟨h, rfl⟩)
  · exact execFcSend_eq_next.mpr (.inr ⟨sendArgs_legal hchk hM1 hM, .inl ⟨Nat.not_le.mpr h, rfl⟩⟩)
  · have hframes := sendFrames_of_le hM (hlen.trans_le hn)
    have hout : joinFrames (sendFrames s p) = some (frame s.tx.flags s.tx.id (wholeMeta s) p) := by
      rw [hframes, joinFrames_map_some]
      simp [builtFrame]
    refine ⟨execFcSend_no_room hchk hM1 hM ha hsrc hlen hout, fun hd => ?_⟩
    have hsend := execFcSend_sends hchk hM1 hM ha hsrc hlen hout hd
    rw [if_pos hn, sentPid, if_pos hn, hframes] at hsend
    exact ⟨_, hsend, rfl, written_writeBytes ..⟩

/-- Settles O36: the chunks' frames, one after the other, in DST, and the packetID they carry in PKT_CTR. -/
theorem fcSendChunks : Obligations.FcSendChunks := by
  intro s p a n d M pid q chunk out hchk hM1 hM ha hsrc hlen hn
  have hframes := sendFrames_of_gt hM (hn.trans_eq hlen.symm)
  have hchunk : ∀ j, (sentChunk s p j).bytes = chunk j := fun j => by
    simp only [sentChunk, builtFrame, sentChunkMeta, withChk_eq_or hchk, nextPid_eq_ite, hlen, BitVec.ofNat_toNat,
      BitVec.setWidth_eq, chunk, pid, M, n]
  have hout : joinFrames (sendFrames s p) = some out := by
    rw [hframes, joinFrames_map_some, List.map_map, hlen]
    simp only [Function.comp_def, hchunk]
    rfl
  refine ⟨execFcSend_no_room hchk hM1 hM ha hsrc hlen hout, fun hd => ?_⟩
  have hsend := execFcSend_sends hchk hM1 hM ha hsrc hlen hout hd
  rw [if_neg hn.not_ge, sentPid, if_neg hn.not_ge, nextPid_eq_ite, hframes, List.length_map, List.length_map,
    List.length_range, hlen] at hsend
  exact ⟨_, hsend, rfl, written_writeBytes ..⟩

/-- Settles O37: the header decides, then the number of bytes held, then the frame's last byte. -/
theorem fcTryparseChecksInOrder : Obligations.FcTryparseChecksInOrder := by
  refine ⟨decode_fcTryparse, fun s h b => ⟨fun hc => ?_, fun hh => ⟨fun hne => ?_, fun hck => ⟨fun hL => ?_,
    fun h4 hcap => ⟨fun hc => ?_, fun hc hb => ⟨fun hz => ?_, fun hz => ?_⟩⟩⟩⟩⟩⟩
  · exact execFcTryparse_eq_next.mpr ⟨_, _, tryParse_of_short hc, rfl⟩
  · exact execFcTryparse_eq_next.mpr ⟨_, _, tryParse_of_not_good hh fun hg => hne hg.1, rfl⟩
  · have hbad : ¬ HeaderGood s h := fun ⟨_, hleast, hmost⟩ => by omega
    exact execFcTryparse_eq_next.mpr ⟨_, _, tryParse_of_not_good hh hbad, rfl⟩
  · exact execFcTryparse_eq_next.mpr ⟨_, _, tryParse_of_incomplete hh ⟨hck, h4, hcap⟩ hc, rfl⟩
  · have hparse := tryParse_of_whole hh ⟨hck, h4, hcap⟩ hc hb
    rw [if_pos hz] at hparse
    exact execFcTryparse_eq_next.mpr ⟨_, _, hparse, rfl⟩
  · exact execFcTryparse_eq_next.mpr ⟨_, _, tryParse_of_frameAt ⟨hh, ⟨hck, h4, hcap⟩, hc, hz ▸ hb⟩, rfl⟩

/-- Settles O38: what TRYPARSE, the region and the payload checksum report, and the search for the first 0x00. -/
theorem fcRecvFailures : Obligations.FcRecvFailures := by
  intro s h hinv
  refine ⟨fun hc => execFcRecv_of_needMore (tryParse_of_short hc),
    fun hh hg hc => execFcRecv_of_needMore (tryParse_of_incomplete hh hg hc), execFcRecv_hdrCorrupt hinv,
    execFcRecv_plMalformed hinv, fun u hf hr hlong hne => ?_⟩
  obtain ⟨k, hk, hrecv⟩ := execFcRecv_plChecksum hinv hf hr hlong hne
  exact ⟨k, hk, hrecv⟩

/-- Settles O39: no room in DST, or the payload goes there and the frame is consumed. -/
theorem fcRecvDeliversPayload : Obligations.FcRecvDeliversPayload :=
  ⟨decode_fcRecv, fun _ _ _ _ _ hv hchk hm => ⟨fun hd => execFcRecv_no_room hv hm hchk hd,
    fun hd => ⟨_, execFcRecv_delivers hv hm hchk hd, rfl, written_writeBytes ..⟩⟩⟩

/-- Settles O40: CR.RECV of the chunk runs the same reassembler core on the same slots and DST. -/
theorem fcRecvHandsChunkToReassembler : Obligations.FcRecvHandsChunkToReassembler := by
  intro s c ct h u m p _ hv hchk hm hparams hslots hdst hsrc hsize hargs hcr
  have hmax : c.params.crMaxTotal = s.params.crMaxTotal := by rw [hparams]
  have hdstSize : c.params.dstSize = s.params.dstSize := by rw [hparams]
  have hcore := execCrRecv_of_chunk hsrc hsize (payload_lt_of_validFrameAt hv hm) hargs hcr
  rw [crCore_congr hmax hdstSize hslots hdst] at hcore
  rcases hcore with ⟨hr, rfl⟩ | ⟨st, x, slots, dst, hr, rfl⟩
  · exact ⟨fun _ => execFcRecv_chunk_outOfRange hv hm hchk hr, fun hne => absurd rfl hne⟩
  · refine ⟨fun he => ?_, fun _ => execFcRecv_chunk_done hv hm hchk hr⟩
    obtain rfl : st = .outOfRange := he
    simpa using crCore_status hr

/-- Settles O41: the ring's content is the built frame, whose header, region and metadata parse back as built. -/
theorem builtFrameRoundTrip : Obligations.BuiltFrameRoundTrip := by
  intro s t u p _ hsrc hlen hbuild hok huinv hempty hcap hcopy ha1 ha
  obtain ⟨hL, hdst, hr0⟩ := execFcBuild_ok hsrc hlen hbuild hok
  set bytes := frame s.tx.flags s.tx.id (txMeta s) p with hbytes
  rw [hr0] at hcap hcopy
  have husrc : SrcHolds u u.args.a0.toNat bytes :=
    ⟨huinv.src.1, fun i hi => by rw [hcopy i hi, hdst, Memory.read_writeBytes_of_lt _ _ _ i hi]⟩
  obtain ⟨v, hwrite, hcontent, hparams⟩ :=
    execRbWrite_of_empty ha (srcHolds_readBytes husrc (hr0.symm.trans (congrArg _ ha1.symm))) hempty hcap
  have hvalid := validFrameAt_of_built hcontent hL (hparams ▸ hcap)
  have hparse := execFcTryparse_eq_next.mpr ⟨.frame, _, tryParse_of_frameAt hvalid.1, rfl⟩
  have hwhole : 7 + (builtHdr s.tx.flags s.tx.id (dataLength s.tx.flags (txMeta s) p)).len.toNat = bytes.length := by
    rw [builtHdr_len_toNat _ _ hL, hbytes, frame_length]
  refine ⟨v, _, hwrite, hparse, rfl, ?_, rfl, rfl, ?_, rfl, fun x hx hchk hd => ?_⟩
  · show BitVec.ofNat 32 (7 + _) = _
    rw [hwhole, ← hr0, BitVec.ofNat_toNat, BitVec.setWidth_eq]
  · rw [hr0, ← hwhole]
    exact Nat.add_comm ..
  · have hring : x.ring = v.ring := by rw [hx]; rfl
    have hxparams : x.params = v.params := by rw [hx]; rfl
    have hrecv := execFcRecv_delivers ((validFrameAt_congr hring hxparams).mpr hvalid) (parseMeta_metaBytes ..) hchk hd
    have hcnt : x.ring.cnt - bytes.length = 0 := by rw [hring, ← hcontent.length, Nat.sub_self]
    have hn : BitVec.ofNat 32 p.length = s.args.a1 := by rw [hlen, BitVec.ofNat_toNat, BitVec.setWidth_eq]
    have hchunk : flagChk s.tx.flags = false := hchk
    refine ⟨_, hrecv, rfl, ?_, written_writeBytes .., rfl, rfl, ?_⟩
    · rwa [← hwhole] at hcnt
    · simp only [received, rxOf_built, presentFields, hchunk]
      exact ⟨hn, rfl, rfl, rfl, rfl, rfl⟩

/-- Settles O43: a failure consumes through the first 0x00, which is no later than X's last byte. -/
theorem resyncStaysInsideFrame : Obligations.ResyncStaysInsideFrame := by
  intro s t X Y hinv hX hr hcnt hrecv hstatus
  have hq : RingContent s (X ++ Y) := ringContent_iff.mpr ⟨hr, hcnt.symm⟩
  obtain ⟨k, hk, hring⟩ := execFcRecv_resyncs_ring hrecv hstatus
  obtain ⟨h1, hle⟩ := throughFirstZero_bounds hk hq hX
  obtain ⟨⟨hparams, -⟩, -⟩ := exec_writes hrecv
  have hqt := hq.of_consumed (by rw [List.length_append]; omega) hring hparams
  rw [List.drop_append_of_le_length hle] at hqt
  obtain ⟨hrt, hlt⟩ := ringContent_iff.mp hqt
  refine ⟨k, h1, hle, hrt, hlt.symm, ?_⟩
  rcases hle.eq_or_lt with rfl | hlt
  · exact .inl (List.drop_length ..)
  · exact .inr (by rw [List.getLast?_drop, if_neg hlt.not_ge, hX])

/-- Settles O53: the rejected bytes are consumed by failing commands that stop exactly behind them, and the frame that
is then in front is delivered. -/
theorem resyncDeliversNextFrame : Obligations.ResyncDeliversNextFrame := by
  intro s X Y h u m p hinv hX hr hcnt hvalid hm hrej hlater
  have hq : RingContent s (X ++ Y) := ringContent_iff.mpr ⟨hr, hcnt.symm⟩
  rw [List.length_append] at hcnt
  have hY : 7 ≤ Y.length := by
    obtain ⟨⟨-, -, hheld, -⟩, -⟩ := hvalid
    have hrest : 7 + h.len.toNat ≤ s.ring.cnt - X.length := hheld
    omega
  have hrejected : Rejected s := fun h' hh hck => by
    obtain ⟨hwhole, hinvalid⟩ := hrej h' hh hck
    exact ⟨by omega, hinvalid⟩
  obtain ⟨vs, t, hrun, hring, hall⟩ := exists_resync_run hinv hq hX hY hrejected hlater
  refine ⟨vs, t, hrun, hring, fun v hv => ?_, fun hchk hd => ?_⟩
  · obtain ⟨k, h1, hk, hstatus, hv⟩ := hall v hv
    exact ⟨hstatus, k, h1, hk, hv⟩
  · obtain ⟨k, -, -, hfail⟩ := hall t List.mem_cons_self
    have hvalid' : ValidFrameAt t h u :=
      (validFrameAt_congr (s := s.withRing (consumed s X.length)) hring hfail.params).mpr hvalid
    rw [← hfail.args, ← hfail.params] at hd
    have hrecv := execFcRecv_delivers hvalid' hm hchk hd
    refine ⟨_, hrecv, rfl, ?_, rfl, consumed_add hring hfail.params _⟩
    rw [← hfail.args, ← hfail.dst]
    exact written_writeBytes ..

end Sys2Proof.Proofs.FrameCodec
end

section
/-! The reassembler core outcome by outcome (43_chunk_reassembler.md R151): the slot that takes a chunk, what the core
answers for it, and CR.RECV around the core (R157). -/

namespace Sys2Proof.Machine

open Sys2Proof.Claims

variable {s t : State} {conn : Half} {pid : Word} {off tot d k : Nat} {data : List Byte} {sl : Slot}

/-! ## Lookup (10 R48) -/

theorem slotAt_of_getElem? {slots : List Slot} (h : slots[k]? = some sl) : slotAt slots k = sl := by
  rw [slotAt, h, Option.getD_some]

/-- The slot that holds a key is the one the lookup finds. -/
theorem findSlot_of_fillingAt (hs : SlotsInv s.params s.slots) (hf : FillingAt s k sl conn pid) :
    findSlot s.slots conn pid = some k := by
  obtain ⟨hk, hv, hconn, hpid⟩ := hf
  cases hfind : findSlot s.slots conn pid with
  | none => exact absurd ⟨hv, hconn, hpid⟩ (findSlot_eq_none.mp hfind sl (List.mem_of_getElem? hk))
  | some j =>
    obtain ⟨hj, hvj, hconnj, hpidj⟩ := findSlot_eq_some hfind
    by_contra hne
    have hdiff := hs.keysDiffer hj (List.getElem?_eq_some_iff.mp hk).1 fun hjk => hne (congrArg some hjk)
    rw [slotAt_of_getElem? hk] at hdiff
    exact hdiff ⟨hvj, hv, hconnj.trans hconn.symm, hpidj.trans hpid.symm⟩

theorem freeSlot_of_lowest {slots : List Slot} (hk : k < slots.length) (hfree : (slotAt slots k).valid = false)
    (hlow : ∀ j < k, (slotAt slots j).valid = true) : freeSlot slots = some k := by
  cases h : freeSlot slots with
  | none => exact absurd (freeSlot_eq_none.mp h _ (slotAt_mem hk)) (by simp [hfree])
  | some j =>
    obtain ⟨-, hvj, hbefore⟩ := freeSlot_eq_some h
    rcases Nat.lt_trichotomy j k with hjk | rfl | hkj
    · exact absurd (hlow j hjk) (by simp [hvj])
    · rfl
    · exact absurd (hbefore k hkj) (by simp [hfree])

theorem slotSet_set {slots : List Slot} (hk : k < slots.length) (sl : Slot) : SlotSet slots k sl (slots.set k sl) :=
  ⟨List.length_set, List.getElem?_set_self hk, fun _ hne => List.getElem?_set_ne hne.symm⟩

/-! ## The slot that takes a chunk (43 R151, R152) -/

/-- Slot `k`, as `sl`, is the one CRCORE records a chunk of the key in: it holds the key, or no slot does, and it is
the lowest free one, freshly taken. -/
def TakesChunk (s : State) (conn : Half) (pid : Word) (tot k : Nat) (sl : Slot) : Prop :=
  FillingAt s k sl conn pid
    ∨ (Absent s conn pid ∧ tot ≠ 0 ∧ tot ≤ s.params.crMaxTotal ∧ freeSlot s.slots = some k
      ∧ sl = Slot.fresh conn pid tot)

theorem TakesChunk.lt (h : TakesChunk s conn pid tot k sl) : k < s.slots.length := by
  rcases h with ⟨hk, -⟩ | ⟨-, -, -, hfree, -⟩
  · exact (List.getElem?_eq_some_iff.mp hk).1
  · exact (freeSlot_eq_some hfree).1

theorem TakesChunk.holds_key (h : TakesChunk s conn pid tot k sl) :
    sl.valid = true ∧ sl.conn = conn ∧ sl.pid = pid := by
  rcases h with ⟨-, hkey⟩ | ⟨-, -, -, -, rfl⟩
  · exact hkey
  · exact ⟨rfl, rfl, rfl⟩

theorem TakesChunk.slot_inv (h : TakesChunk s conn pid tot k sl) (hinv : s.Inv) : sl.Inv s.params := by
  rcases h with ⟨hk, -⟩ | ⟨-, h0, hmax, -, rfl⟩
  · exact hinv.slots.2.1 sl (List.mem_of_getElem? hk)
  · exact (Slot.fresh_inv hinv.params conn pid h0 hmax).1

/-- The slot that has recorded a chunk takes the next one. -/
theorem TakesChunk.of_record (h : TakesChunk s conn pid tot k sl) {rem : Nat}
    (ht : t.slots = s.slots.set k (sl.record off data rem)) :
    TakesChunk t conn pid tot k (sl.record off data rem) :=
  .inl ⟨by rw [ht, List.getElem?_set_self h.lt], h.holds_key⟩

/-- Once the slot no longer holds the key, no slot does. -/
theorem TakesChunk.absent_of_set (h : TakesChunk s conn pid tot k sl) (hinv : s.Inv) {sl' : Slot}
    (hv : sl'.valid = false) (ht : t.slots = s.slots.set k sl') : Absent t conn pid := by
  intro x hx hkey
  rw [ht] at hx
  obtain ⟨j, hj, rfl⟩ := List.getElem_of_mem hx
  rw [List.length_set] at hj
  rw [List.getElem_set] at hkey
  split at hkey
  · simp [hv] at hkey
  · rename_i hne
    rcases h with hf | ⟨habs, -⟩
    · obtain ⟨hk, hvk, hconn, hpid⟩ := hf
      have hdiff := hinv.slots.keysDiffer hj (List.getElem?_eq_some_iff.mp hk).1 (Ne.symm hne)
      rw [slotAt_of_getElem? hk, slotAt_of_lt hj] at hdiff
      exact hdiff ⟨hkey.1, hvk, hkey.2.1.trans hconn.symm, hkey.2.2.trans hpid.symm⟩
    · exact habs _ (List.getElem_mem hj) hkey

/-! ## The core's answers (43 R151) -/

theorem crAccept_no_room (hd : ¬ inDst s d tot) : crAccept s k sl 0 off tot data d = .ok .outOfRange :=
  if_pos ⟨rfl, hd⟩

theorem crAccept_assembles (hd : inDst s d tot) {bs : List Byte}
    (hbs : (sl.record off data 0).data.readBytes 0 tot = some bs) :
    crAccept s k sl 0 off tot data d =
      .ok (.done .assembled tot (s.slots.set k (sl.record off data 0).release) (s.dst.writeBytes d bs)) := by
  rw [crAccept, if_neg fun h => h.2 hd]
  simp only [if_true, Memory.fetch_eq_ok.mpr hbs, ok_bind]

theorem crAccept_accepts {rem : Nat} (hrem : rem ≠ 0) :
    crAccept s k sl rem off tot data d =
      .ok (.done .chunkAccepted rem (s.slots.set k (sl.record off data rem)) s.dst) := by
  rw [crAccept, if_neg fun h => hrem h.1]
  exact if_neg hrem

theorem Slot.accepts_iff {n : Nat} : sl.Accepts off n tot ↔
    ¬ (tot ≠ sl.total.toNat ∨ n = 0 ∨ off + n > tot ∨ fillOverlaps sl.fill off n = true) := by
  simp only [not_or, not_not, Bool.not_eq_true, Nat.not_lt, gt_iff_lt]
  exact ⟨fun ⟨h1, h2, h3, h4⟩ => ⟨h1, h2, h3, h4⟩, fun ⟨h1, h2, h3, h4⟩ => ⟨h1, h2, h3, h4⟩⟩

theorem crCore_of_violation (hs : SlotsInv s.params s.slots) (hf : FillingAt s k sl conn pid)
    (hbad : ¬ sl.Accepts off data.length tot) :
    crCore s conn pid off tot data d = .ok (.done .chunkViolation 0 (s.slots.set k sl.release) s.dst) := by
  simp only [crCore, findSlot_of_fillingAt hs hf, slotAt_of_getElem? hf.1]
  exact if_pos (not_not.mp fun h => hbad (Slot.accepts_iff.mpr h))

theorem crCore_of_absent_violation (habs : Absent s conn pid)
    (hbad : tot = 0 ∨ data.length = 0 ∨ off + data.length > tot) :
    crCore s conn pid off tot data d = .ok (.done .chunkViolation 0 s.slots s.dst) := by
  simp only [crCore, findSlot_eq_none.mpr habs]
  exact if_pos hbad

theorem crCore_of_absent_full (habs : Absent s conn pid)
    (hgood : ¬ (tot = 0 ∨ data.length = 0 ∨ off + data.length > tot))
    (hfull : tot > s.params.crMaxTotal ∨ freeSlot s.slots = none) :
    crCore s conn pid off tot data d = .ok (.done .allocFail 0 s.slots s.dst) := by
  simp only [crCore, findSlot_eq_none.mpr habs, if_neg hgood]
  rcases hfull with hmax | hnone
  · exact if_pos hmax
  · rw [hnone]
    exact ite_self _

/-- A chunk without violation goes to the slot that takes it. -/
theorem TakesChunk.crCore (h : TakesChunk s conn pid tot k sl) (hinv : s.Inv) (ha : sl.Accepts off data.length tot) :
    crCore s conn pid off tot data d = crAccept s k sl (sl.rem.toNat - data.length) off tot data d := by
  rcases h with hf | ⟨habs, h0, hmax, hfree, rfl⟩
  · simp only [Machine.crCore, findSlot_of_fillingAt hinv.slots hf, slotAt_of_getElem? hf.1]
    exact if_neg (Slot.accepts_iff.mp ha)
  · obtain ⟨-, -, hrem⟩ := Slot.fresh_inv hinv.params conn pid h0 hmax
    have hgood : ¬ (tot = 0 ∨ data.length = 0 ∨ off + data.length > tot) := by
      have := ha.nonzero
      have := ha.inside
      omega
    simp only [Machine.crCore, findSlot_eq_none.mpr habs, if_neg hgood, if_neg hmax.not_gt, hfree, hrem]

/-! ## The recorded bytes (43 R155, R156) -/

/-- The slot's filled bytes are exactly its written ones, so a recorded slot's are too (10 R47). -/
theorem Slot.record_keys {p : Params} (h : sl.Inv p) (hv : sl.valid = true) (rem : Nat) :
    (sl.record off data rem).data.map Prod.fst = fillRange sl.fill off data.length := by
  obtain ⟨-, ⟨hkeys, -⟩, -⟩ := h.2 hv
  rw [Slot.record_data, Memory.map_fst_writeBytes, hkeys]

/-- The chunk that leaves none missing makes the whole payload readable. -/
theorem Slot.exists_payload {p : Params} (h : sl.Inv p) (hv : sl.valid = true) (ha : sl.Accepts off data.length tot)
    (hlast : sl.rem.toNat - data.length = 0) :
    ∃ bs, (sl.record off data 0).data.readBytes 0 tot = some bs :=
  Memory.readBytes_isSome (Slot.record_fits h hv ha 0).1 fun i hi =>
    (Nat.zero_add i).symm ▸ Slot.record_full h hv ha hlast 0 i hi

/-! ## CR.RECV (43 R157) -/

/-- `s` after CR.RECV commits what the core answered. -/
def afterCore (s : State) : CrResult → State
  | .outOfRange => s.withStatus .outOfRange
  | .done st x slots dst => (((s.withSlots slots).withDst dst).withRes0 x).withStatus st

theorem opRecvConn_eq (s : State) : opRecvConn s = s.args.a6.setWidth 16 :=
  (BitVec.setWidth_eq_extractLsb' (by decide)).symm

theorem execCrRecv_of_core (hin : inSrc s (opArg0 s) (opArg1 s)) (hsrc : SrcHolds s (opArg0 s) data)
    (hlen : data.length = opArg1 s) {r : CrResult}
    (hr : crCore s (s.args.a6.setWidth 16) (opPid s) (opOffset s) (opTotal s) data (opArg2 s) = .ok r) :
    execCrRecv s = .next (afterCore s r) := by
  rw [← opRecvConn_eq] at hr
  refine execCrRecv_eq_next.mpr (.inr ⟨hin, data, srcHolds_readBytes hsrc hlen, r, hr, ?_⟩)
  cases r with
  | outOfRange => exact .inl ⟨rfl, rfl⟩
  | done st x slots dst => exact .inr ⟨st, x, slots, dst, rfl, rfl⟩

/-! ## An accepted chunk in CR.RECV (43 R155, R156) -/

section
variable (hin : inSrc s (opArg0 s) (opArg1 s)) (hsrc : SrcHolds s (opArg0 s) data) (hlen : data.length = opArg1 s)
  (hinv : s.Inv) (htake : TakesChunk s (s.args.a6.setWidth 16) (opPid s) (opTotal s) k sl)
  (ha : sl.Accepts (opOffset s) data.length (opTotal s))
include hin hsrc hlen hinv htake ha

theorem execCrRecv_of_takes {r : CrResult}
    (hr : crAccept s k sl (sl.rem.toNat - data.length) (opOffset s) (opTotal s) data (opArg2 s) = .ok r) :
    execCrRecv s = .next (afterCore s r) :=
  execCrRecv_of_core hin hsrc hlen ((htake.crCore hinv ha).trans hr)

theorem execCrRecv_no_room (hlast : data.length = sl.rem.toNat) (hd : ¬ inDst s (opArg2 s) (opTotal s)) :
    execCrRecv s = .next (s.withStatus .outOfRange) :=
  execCrRecv_of_takes (r := .outOfRange) hin hsrc hlen hinv htake ha
    (by rw [hlast, Nat.sub_self, crAccept_no_room hd])

theorem execCrRecv_assembles (hlast : data.length = sl.rem.toNat) (hd : inDst s (opArg2 s) (opTotal s)) {bs : List Byte}
    (hbs : (sl.record (opOffset s) data 0).data.readBytes 0 (opTotal s) = some bs) :
    execCrRecv s = .next { s with
      dst := s.dst.writeBytes (opArg2 s) bs
      slots := s.slots.set k (sl.record (opOffset s) data 0).release
      res := { s.res with r0 := s.args.a5 }
      status := .assembled } := by
  rw [execCrRecv_of_takes hin hsrc hlen hinv htake ha (by rw [hlast, Nat.sub_self, crAccept_assembles hd hbs]),
    afterCore, State.withRes0_toNat, BitVec.setWidth_eq]
  rfl

theorem execCrRecv_accepts (hmore : data.length ≠ sl.rem.toNat) :
    execCrRecv s = .next { s with
      slots := s.slots.set k (sl.record (opOffset s) data (sl.rem.toNat - data.length))
      res := { s.res with r0 := BitVec.ofNat 32 (sl.rem.toNat - data.length) }
      status := .chunkAccepted } := by
  have hle := ha.le_rem (htake.slot_inv hinv) htake.holds_key.1
  exact execCrRecv_of_takes hin hsrc hlen hinv htake ha (crAccept_accepts (by omega))

end

/-- A whole payload in one chunk is what the fresh slot holds. -/
theorem Slot.readBytes_record_fresh (conn : Half) (pid : Word) (hoff : off = 0) (htot : data.length = tot) :
    ((Slot.fresh conn pid tot).record off data 0).data.readBytes 0 tot = some data := by
  subst hoff htot
  exact (Memory.readBytes_eq_some (Memory.wf_writeBytes List.Pairwise.nil 0 data)).mpr
    ⟨rfl, Memory.read_writeBytes_of_lt [] 0 data⟩

end Sys2Proof.Machine
end

section
/-! Reassembly of a tiling (43_chunk_reassembler.md R164): between two chunks the slot holds what was offered so far,
and the chunks still to come are exactly what it misses. -/

namespace Sys2Proof.Machine

open Sys2Proof.Claims

variable {s t : State} {conn : Half} {pid : Word} {tot d k : Nat} {sl : Slot} {P : List Byte}
  {c : Nat × List Byte} {cs : List (Nat × List Byte)}

/-! ## One chunk offered (43 R157) -/

/-- `s` with the chunk's bytes in SRC and its operands in ARG0 to ARG6. -/
def offered (s : State) (conn : Half) (pid : Word) (tot d : Nat) (c : Nat × List Byte) : State :=
  { s with
    src := cellsFrom 0 c.2
    args := { s.args with a0 := 0, a1 := BitVec.ofNat 32 c.2.length, a2 := BitVec.ofNat 32 d, a3 := pid
                          a4 := BitVec.ofNat 32 c.1, a5 := BitVec.ofNat 32 tot, a6 := conn.setWidth 32 } }

theorem State.Inv.offered (h : s.Inv) (hsize : c.2.length ≤ s.params.srcSize) :
    (offered s conn pid tot d c).Inv :=
  ⟨h.params, h.ring,
    ⟨wf_cellsFrom 0 c.2, fun _ hx => (mem_cellsFrom hx).2.trans_le ((Nat.zero_add _).trans_le hsize)⟩, h.dst, h.slots⟩

/-- Operands below 2^32 reach the core as they are. -/
theorem offer_of_core (hinv : s.Inv) (hsize : c.2.length ≤ s.params.srcSize) (hd : d ≤ s.params.dstSize)
    (hoff : c.1 ≤ tot) (htot : tot ≤ 2 ^ 32 - 1) {r : CrResult} (hr : crCore s conn pid c.1 tot c.2 d = .ok r) :
    offer s conn pid tot d c = .next (afterCore (offered s conn pid tot d c) r) := by
  obtain ⟨⟨-, hsrcSize⟩, ⟨-, hdstSize⟩, -⟩ := wellFormed_bounds hinv.params
  have hopn : opArg1 (offered s conn pid tot d c) = c.2.length := toNat_ofNat_of_le hsize hsrcSize
  have hopd : opArg2 (offered s conn pid tot d c) = d := toNat_ofNat_of_le hd hdstSize
  have hopoff : opOffset (offered s conn pid tot d c) = c.1 := toNat_ofNat_of_le hoff htot
  have hoptot : opTotal (offered s conn pid tot d c) = tot := toNat_ofNat_of_le le_rfl htot
  have hconn : (offered s conn pid tot d c).args.a6.setWidth 16 = conn :=
    (BitVec.setWidth_setWidth_of_le _ (by decide)).trans (BitVec.setWidth_eq _)
  refine execCrRecv_of_core ?_ ⟨wf_cellsFrom 0 c.2, fun i hi => ?_⟩ hopn.symm ?_
  · rw [hopn]
    exact (Nat.zero_add _).trans_le hsize
  · show Memory.read (cellsFrom 0 c.2) (0 + i) = _
    rw [read_cellsFrom, if_pos (Nat.zero_le _)]
    simp [hi]
  · rw [hconn, hopoff, hoptot, hopd]
    exact (crCore_congr (s := s) rfl rfl rfl rfl conn pid c.1 tot c.2 d).trans hr

/-! ## What a slot misses of the payload -/

/-- The chunks `cs` are exactly what `sl` still misses of the payload `P`. -/
structure Misses (P : List Byte) (cs : List (Nat × List Byte)) (sl : Slot) : Prop where
  total    : P.length = sl.total.toNat
  missing  : sl.rem.toNat = (cs.map (fun c => c.2.length)).sum
  held     : ∀ j ∈ sl.fill, sl.data.read j = P[j]?
  apart    : ∀ c ∈ cs, ∀ j ∈ sl.fill, ¬ (c.1 ≤ j ∧ j < c.1 + c.2.length)
  nonempty : ∀ c ∈ cs, c.2 ≠ []
  inside   : ∀ c ∈ cs, c.1 + c.2.length ≤ P.length
  bytes    : ∀ c ∈ cs, c.2 = (P.drop c.1).take c.2.length
  disjoint : cs.Pairwise (fun x y => x.1 + x.2.length ≤ y.1 ∨ y.1 + y.2.length ≤ x.1)

/-- A freshly taken slot misses everything. -/
theorem misses_fresh (h : Tiles P cs) (hP : P.length ≤ 2 ^ 32 - 1) (conn : Half) (pid : Word) :
    Misses P cs (Slot.fresh conn pid P.length) where
  total    := (toNat_ofNat_of_le le_rfl hP).symm
  missing  := (toNat_ofNat_of_le le_rfl hP).trans h.whole.symm
  held     := fun _ hj => absurd hj List.not_mem_nil
  apart    := fun _ _ _ hj => absurd hj List.not_mem_nil
  nonempty := h.nonempty
  inside   := h.inside
  bytes    := h.bytes
  disjoint := h.disjoint

theorem Misses.accepts (h : Misses P (c :: cs) sl) : sl.Accepts c.1 c.2.length P.length :=
  ⟨h.total, fun h0 => h.nonempty c List.mem_cons_self (List.length_eq_zero_iff.mp h0), h.inside c List.mem_cons_self,
    fillOverlaps_eq_false.mpr (h.apart c List.mem_cons_self)⟩

theorem Misses.rem_sub (h : Misses P (c :: cs) sl) :
    sl.rem.toNat - c.2.length = (cs.map (fun c => c.2.length)).sum := by
  rw [h.missing, List.map_cons, List.sum_cons, Nat.add_sub_cancel_left]

/-- Every byte filled once the chunk is recorded is the payload's. -/
theorem Misses.read_record (h : Misses P (c :: cs) sl) (rem : Nat) {j : Nat}
    (hj : j ∈ fillRange sl.fill c.1 c.2.length) : (sl.record c.1 c.2 rem).data.read j = P[j]? := by
  rw [Slot.record_data, Memory.read_writeBytes]
  split
  · rename_i hin
    have hlt : j - c.1 < c.2.length := by omega
    rw [h.bytes c List.mem_cons_self, List.getElem?_take_of_lt hlt, List.getElem?_drop, Nat.add_sub_cancel' hin.1]
  · rename_i hout
    exact h.held j ((mem_fillRange.mp hj).resolve_right hout)

/-- Recording the next chunk leaves the rest missing. -/
theorem Misses.record (h : Misses P (c :: cs) sl) :
    Misses P cs (sl.record c.1 c.2 (sl.rem.toNat - c.2.length)) where
  total    := h.total
  missing  := by
    rw [← h.rem_sub]
    exact toNat_ofNat_of_le (Nat.sub_le ..) (Nat.le_pred_of_lt sl.rem.isLt)
  held     := fun _ hj => h.read_record _ hj
  apart    := fun x hx j hj hin => by
    rcases mem_fillRange.mp hj with hj | hj
    · exact h.apart x (List.mem_cons_of_mem c hx) j hj hin
    · have := (List.pairwise_cons.mp h.disjoint).1 x hx
      omega
  nonempty := fun x hx => h.nonempty x (List.mem_cons_of_mem c hx)
  inside   := fun x hx => h.inside x (List.mem_cons_of_mem c hx)
  bytes    := fun x hx => h.bytes x (List.mem_cons_of_mem c hx)
  disjoint := (List.pairwise_cons.mp h.disjoint).2

/-- The last chunk completes the payload. -/
theorem Misses.payload {p : Params} (h : Misses P [c] sl) (hi : sl.Inv p) (hv : sl.valid = true) :
    (sl.record c.1 c.2 0).data.readBytes 0 P.length = some P := by
  have hlast : sl.rem.toNat - c.2.length = 0 := h.rem_sub
  refine (Memory.readBytes_eq_some (Slot.record_fits hi hv h.accepts 0).1).mpr ⟨rfl, fun j hj => ?_⟩
  have hfilled := Slot.record_full hi hv h.accepts hlast 0 j hj
  rw [Memory.read_isSome, Slot.record_keys hi hv] at hfilled
  rw [Nat.zero_add, h.read_record 0 hfilled, List.getElem?_eq_getElem hj]

/-! ## The run (43 R164) -/

/-- A slot that misses chunks records the next one, whatever the core then answers. -/
theorem offer_of_misses (hinv : s.Inv) (htake : TakesChunk s conn pid P.length k sl) (hmiss : Misses P (c :: cs) sl)
    (hsize : c.2.length ≤ s.params.srcSize) (hd : d + P.length ≤ s.params.dstSize) {r : CrResult}
    (hr : crAccept s k sl (cs.map (fun c => c.2.length)).sum c.1 P.length c.2 d = .ok r) :
    offer s conn pid P.length d c = .next (afterCore (offered s conn pid P.length d c) r) := by
  rw [← hmiss.rem_sub, ← htake.crCore hinv hmiss.accepts] at hr
  have hinside := hmiss.accepts.inside
  have htotal := hmiss.total
  have := sl.total.isLt
  exact offer_of_core hinv hsize (by omega) (by omega) (by omega) hr

/-- With at least one chunk to come, the chunks that a slot misses reassemble the payload. -/
theorem exists_feed (hinv : s.Inv) (htake : TakesChunk s conn pid P.length k sl) (hmiss : Misses P (c :: cs) sl)
    (hsize : ∀ x ∈ c :: cs, x.2.length ≤ s.params.srcSize) (hd : d + P.length ≤ s.params.dstSize) :
    ∃ t, Feed conn pid P.length d (c :: cs) s (List.replicate cs.length .chunkAccepted ++ [.assembled]) t
      ∧ Written s.dst d P t.dst ∧ Absent t conn pid := by
  have hsize0 := hsize c List.mem_cons_self
  induction cs generalizing s sl c with
  | nil =>
    have hstep := offer_of_misses hinv htake hmiss hsize0 hd
      (crAccept_assembles hd (hmiss.payload (htake.slot_inv hinv) htake.holds_key.1))
    exact ⟨_, .cons hstep (.nil _), written_writeBytes .., htake.absent_of_set hinv (sl' := Slot.release _) rfl rfl⟩
  | cons c' cs ih =>
    have hrem : ((c' :: cs).map (fun c => c.2.length)).sum ≠ 0 := by
      have := List.length_pos_iff.mpr (hmiss.nonempty c' (by simp))
      rw [List.map_cons, List.sum_cons]
      omega
    have hstep := offer_of_misses hinv htake hmiss hsize0 hd (crAccept_accepts hrem)
    have hmiss' := hmiss.record
    rw [hmiss.rem_sub] at hmiss'
    obtain ⟨t, hfeed, hdst, habs⟩ := ih (exec_keeps_inv (hinv.offered hsize0) hstep) (htake.of_record rfl) hmiss'
      (fun x hx => hsize x (List.mem_cons_of_mem c hx)) hd (hsize c' (by simp))
    exact ⟨t, .cons hstep hfeed, hdst, habs⟩

end Sys2Proof.Machine
end

section
/-! Which slots each command of the reassembler changes (43_chunk_reassembler.md): a chunk none of another key (R150,
R154), a tick the valid ones (R158), CR.EVICTCONN those of one connection (R160). -/

namespace Sys2Proof.Machine

open Sys2Proof.Claims

variable {s t : State} {conn : Half} {pid : Word} {off tot d k : Nat} {data : List Byte} {sl : Slot}

/-! ## A chunk and the slots of other keys (43 R154) -/

theorem crAccept_slots {rem x : Nat} {st : Status} {slots : List Slot} {dst : Memory}
    (h : crAccept s k sl rem off tot data d = .ok (.done st x slots dst)) : ∃ sl', slots = s.slots.set k sl' := by
  rcases crAccept_cases h with ⟨-, -, h⟩ | ⟨-, -, bs, -, h⟩ | ⟨-, h⟩
  · cases h
  · cases h; exact ⟨_, rfl⟩
  · cases h; exact ⟨_, rfl⟩

/-- CRCORE changes at most the slot of the key, or a free slot. -/
theorem crCore_slots {x : Nat} {st : Status} {slots : List Slot} {dst : Memory}
    (h : crCore s conn pid off tot data d = .ok (.done st x slots dst)) :
    slots = s.slots
      ∨ ∃ k sl', (findSlot s.slots conn pid = some k ∨ freeSlot s.slots = some k) ∧ slots = s.slots.set k sl' := by
  rcases crCore_cases h with ⟨k, hk, -, h⟩ | ⟨k, hk, -, h⟩ | ⟨-, -, h⟩ | ⟨-, -, -, h⟩ | ⟨k, -, -, -, hk, h⟩
  · cases h; exact .inr ⟨k, _, .inl hk, rfl⟩
  · obtain ⟨sl', rfl⟩ := crAccept_slots h
    exact .inr ⟨k, sl', .inl hk, rfl⟩
  · cases h; exact .inl rfl
  · cases h; exact .inl rfl
  · obtain ⟨sl', rfl⟩ := crAccept_slots h
    exact .inr ⟨k, sl', .inr hk, rfl⟩

/-- CRCORE leaves a valid slot of another key as it was. -/
theorem crCore_keeps_other_key {x j : Nat} {st : Status} {slots : List Slot} {dst : Memory}
    (h : crCore s conn pid off tot data d = .ok (.done st x slots dst)) (hj : s.slots[j]? = some sl)
    (hv : sl.valid = true) (hkey : ¬ (sl.conn = conn ∧ sl.pid = pid)) : slots[j]? = some sl := by
  rcases crCore_slots h with rfl | ⟨k, sl', hk, rfl⟩
  · exact hj
  · have hne : k ≠ j := by
      rintro rfl
      rcases hk with hfind | hfree
      · obtain ⟨-, -, hkey'⟩ := findSlot_eq_some hfind
        rw [slotAt_of_getElem? hj] at hkey'
        exact hkey hkey'
      · obtain ⟨-, hinvalid, -⟩ := freeSlot_eq_some hfree
        rw [slotAt_of_getElem? hj, hv] at hinvalid
        cases hinvalid
    rw [List.getElem?_set_ne hne, hj]

theorem execCrRecv_keeps_other_key {j : Nat} (hr : execCrRecv s = .next t) (hj : s.slots[j]? = some sl)
    (hv : sl.valid = true) (hkey : ¬ (sl.conn = s.args.a6.setWidth 16 ∧ sl.pid = s.args.a3)) :
    t.slots[j]? = some sl := by
  rcases execCrRecv_eq_next.mp hr with ⟨-, rfl⟩ | ⟨-, data, -, r, hcore, ⟨-, rfl⟩ | ⟨st, x, slots, dst, rfl, rfl⟩⟩
  · exact hj
  · exact hj
  · rw [opRecvConn_eq] at hcore
    exact crCore_keeps_other_key hcore hj hv hkey

/-! ## FC.RECV and the slots (42 R135, R137) -/

theorem frameAt_of_tryParse {h : HdrRegs} (hr : tryParse s = .ok (.frame, h)) : FrameAt s h := by
  obtain ⟨hgood, hheld, hz, bs, hbs, hh⟩ := tryParse_frame_inv hr
  exact ⟨headerAt_iff_parseHdr.mpr ⟨(Nat.le_add_right ..).trans hheld, bs, hbs, hh⟩,
    ⟨hgood.cksum, hgood.least, hgood.most⟩, hheld, hz⟩

/-- A frame that passes every test of FC.RECV is a valid frame (30 R79). -/
theorem validFrameAt_of_checks {h : HdrRegs} {region r : List Byte} (hf : FrameAt s h)
    (hregion : ringBytes s hdrSize (h.len.toNat - 1) = .ok region) (hu : uncobs region = some r)
    (hl : 2 + metaLen h.flags ≤ r.length) (hck : (splitChecksum r).computed = (splitChecksum r).carried) :
    ValidFrameAt s h (splitChecksum r) :=
  ⟨hf, (regionGives_iff_unstuff hf).mpr ⟨region, hregion, unstuff_eq_some.mpr ⟨r, hu, by omega, rfl⟩⟩,
    by rw [splitChecksum_content_length]; omega, hck⟩

theorem recvFail_slots {code : Status} (hr : recvFail code s = .ok t) : t.slots = s.slots := by
  obtain ⟨found, k, -, rfl⟩ := recvFail_eq_ok.mp hr
  rfl

theorem recvDeliver_keeps_other_key {s0 : State} {u : Unstuffed} {j : Nat} (hr : recvDeliver s0 s u = .ok t)
    (h0 : s0.slots = s.slots) (hj : s.slots[j]? = some sl) (hv : sl.valid = true)
    (hkey : flagChk s.hdr.flags = true →
      ¬ (sl.conn = s.connId ∧ sl.pid = (parseMeta s.hdr.flags u.content).1.pktid)) : t.slots[j]? = some sl := by
  rcases recvDeliver_cases hr with ⟨-, -, rfl⟩ | ⟨-, -, rfl⟩ |
    ⟨hchk, r, hcore, ⟨-, rfl⟩ | ⟨st, x, slots, dst, rfl, rfl⟩⟩
  · rwa [recvDone_slots, State.withDst_slots]
  · rwa [State.withStatus_slots, h0]
  · rwa [State.withStatus_slots, h0]
  · rw [recvDone_slots, State.withDst_slots, State.withSlots_slots]
    exact crCore_keeps_other_key hcore hj hv (hkey hchk)

/-- FC.RECV changes slots only by handing the chunk of a valid frame to CRCORE. -/
theorem execFcRecv_keeps_other_key {j : Nat} (hr : execFcRecv s = .next t) (hj : s.slots[j]? = some sl)
    (hv : sl.valid = true)
    (hkey : ∀ h u, ValidFrameAt s h u → flagChk h.flags = true →
      ¬ (sl.conn = s.connId ∧ sl.pid = (parseMeta h.flags u.content).1.pktid)) : t.slots[j]? = some sl := by
  obtain ⟨p, h, hparse, ⟨-, rfl⟩ | ⟨-, hfail⟩ | ⟨rfl, hframe⟩⟩ := execFcRecv_cases hr
  · exact hj
  · have hslots := recvFail_slots hfail
    rwa [hslots]
  · obtain ⟨region, hregion, ⟨-, hfail⟩ | ⟨r, hu, hl, ⟨-, hfail⟩ | ⟨hck, hdeliver⟩⟩⟩ := recvFrame_cases hframe
    · have hslots := recvFail_slots hfail
      rwa [hslots]
    · have hslots := recvFail_slots hfail
      rwa [hslots]
    · rw [ringBytes_withHdr] at hregion
      have hvalid := validFrameAt_of_checks (frameAt_of_tryParse hparse) hregion hu hl hck
      exact recvDeliver_keeps_other_key (s := s.withHdr h) hdeliver rfl hj hv (hkey h _ hvalid)

/-! ## Slots that become invalid, counted (10 R33) -/

/-- A change that makes exactly the valid slots in `p` invalid lowers CR_USED by their number. -/
theorem countP_add_slotsUsed_map {p : Slot → Bool} {f : Slot → Slot} (hp : ∀ sl, p sl = true → sl.valid = true)
    (hf : ∀ sl, (f sl).valid = (sl.valid && !p sl)) (slots : List Slot) :
    slots.countP p + slotsUsed (slots.map f) = slotsUsed slots := by
  induction slots with
  | nil => rfl
  | cons sl slots ih =>
    simp only [slotsUsed, List.countP_map, List.countP_cons, Function.comp_apply, hf] at ih ⊢
    cases hpsl : p sl with
    | true => simp [hp sl hpsl]; omega
    | false => simp; omega

/-! ## A tick (43 R158) -/

theorem Slot.tick_of_invalid {T : Nat} (hv : sl.valid = false) : sl.tick T = sl := by
  rw [Slot.tick, if_neg (by simp [hv])]

theorem Slot.tick_of_valid {T : Nat} (hv : sl.valid = true) :
    sl.tick T = { sl with idle := BitVec.ofNat 32 (sl.idle.toNat + 1), valid := !decide (sl.idle.toNat + 1 ≥ T) } := by
  rw [Slot.tick, if_pos hv]

theorem Slot.valid_tick (T : Nat) (sl : Slot) : (sl.tick T).valid = (sl.valid && !sl.expires T) := by
  cases hv : sl.valid with
  | false => rw [Slot.tick_of_invalid hv, hv, Bool.false_and]
  | true => rw [Slot.tick_of_valid hv, Slot.expires, hv, Bool.true_and, Bool.true_and]

theorem Slot.valid_of_expires {T : Nat} (h : sl.expires T = true) : sl.valid = true := by
  rw [Slot.expires, Bool.and_eq_true] at h
  exact h.1

/-- In the timed variant a tick is every slot's own tick. -/
theorem tickSlots_slots_timed (ht : s.params.crTimed = true) :
    s.tickSlots.slots = s.slots.map (Slot.tick s.params.crIdleTicks) := by
  rw [State.tickSlots, if_pos ht]
  rfl

theorem tickSlots_untimed (ht : s.params.crTimed = false) : s.tickSlots = s := by
  rw [State.tickSlots, if_neg (by simp [ht])]

theorem tickEvicts_add_slotsUsed (s : State) : tickEvicts s + slotsUsed s.tickSlots.slots = slotsUsed s.slots := by
  cases ht : s.params.crTimed with
  | false => rw [tickSlots_untimed ht, tickEvicts, if_neg (by simp [ht]), Nat.zero_add]
  | true =>
    rw [tickSlots_slots_timed ht, tickEvicts, if_pos ht]
    exact countP_add_slotsUsed_map (fun _ => Slot.valid_of_expires) (Slot.valid_tick _) s.slots

/-- In either variant a tick gives the slots and CR_EVICTS, and nothing else. -/
theorem tickSlots_eq (s : State) :
    s.tickSlots = { s with
      slots := s.tickSlots.slots
      crEvicts := BitVec.ofNat 32 (s.crEvicts.toNat + tickEvicts s) } := by
  cases ht : s.params.crTimed with
  | false =>
    have hevicts : BitVec.ofNat 32 (s.crEvicts.toNat + tickEvicts s) = s.crEvicts := by
      rw [tickEvicts, if_neg (by simp [ht]), Nat.add_zero, BitVec.ofNat_toNat, BitVec.setWidth_eq]
    rw [hevicts, tickSlots_untimed ht]
  | true =>
    rw [State.tickSlots, if_pos ht]
    rfl

theorem tickSlots_withInputs (s : State) (l : List HostAction) :
    (s.withInputs l).tickSlots = s.tickSlots.withInputs l := by
  cases ht : s.params.crTimed with
  | false => rw [tickSlots_untimed ht, tickSlots_untimed (s := s.withInputs l) ht]
  | true =>
    rw [State.tickSlots, State.tickSlots, if_pos ht, if_pos (by exact ht)]
    rfl

/-- What a tick does to one valid slot of an FCU in its invariant: IDLE does not wrap. -/
theorem Slot.tick_idle_toNat {p : Params} (hp : p.wellFormed = true) (ht : p.crTimed = true) (h : sl.Inv p)
    (hv : sl.valid = true) : (sl.tick p.crIdleTicks).idle.toNat = sl.idle.toNat + 1 := by
  obtain ⟨-, -, hidle⟩ := h.2 hv
  rw [Slot.IdleOk, if_pos ht] at hidle
  rw [Slot.tick_of_valid hv]
  exact toNat_ofNat_of_le hidle (wellFormed_bounds hp).2.2.2.2.2

/-! ## Ticks in a row (43 R158, 70 R211) -/

theorem iterate_tickSlots_slots (ht : s.params.crTimed = true) (n : Nat) :
    (State.tickSlots^[n] s).slots = s.slots.map (Slot.tick s.params.crIdleTicks)^[n] := by
  induction n generalizing s with
  | zero => exact (List.map_id _).symm
  | succ n ih =>
    have hparams : s.tickSlots.params = s.params := by rw [tickSlots_eq]
    rw [Function.iterate_succ_apply, ih (by rw [hparams, ht]), hparams, tickSlots_slots_timed ht, List.map_map,
      Function.iterate_succ]

/-- A slot that has just taken a chunk is valid, with IDLE the number of ticks, as long as they are fewer than the
limit. -/
theorem Slot.iterate_tick {T : Nat} (hT : 1 ≤ T) (hT' : T ≤ 2 ^ 32 - 1) (hv : sl.valid = true) (h0 : sl.idle = 0)
    (n : Nat) :
    (((Slot.tick T)^[n] sl).valid = true ↔ n < T) ∧ (n < T → ((Slot.tick T)^[n] sl).idle.toNat = n) := by
  induction n with
  | zero => exact ⟨iff_of_true hv hT, fun _ => congrArg BitVec.toNat h0⟩
  | succ n ih =>
    obtain ⟨hvalid, hidle⟩ := ih
    rw [Function.iterate_succ_apply']
    by_cases hn : n < T
    · rw [Slot.tick_of_valid (hvalid.mpr hn), hidle hn]
      refine ⟨by simp, fun _ => toNat_ofNat_of_le hn hT'⟩
    · have hinvalid : ((Slot.tick T)^[n] sl).valid = false := Bool.eq_false_iff.mpr (mt hvalid.mp hn)
      rw [Slot.tick_of_invalid hinvalid, hinvalid]
      exact ⟨iff_of_false Bool.false_ne_true (by omega), fun h => absurd (Nat.lt_of_succ_lt h) hn⟩

/-! ## CR.EVICTCONN (43 R160) -/

theorem Slot.evict_eq (c : Half) (sl : Slot) :
    sl.evict c = if sl.valid = true ∧ sl.conn = c then { sl with valid := false } else sl := by
  simp only [Slot.evict, Slot.ofConn, Slot.release, Bool.and_eq_true, beq_iff_eq]

theorem Slot.valid_evict (c : Half) (sl : Slot) : (sl.evict c).valid = (sl.valid && !sl.ofConn c) := by
  rw [Slot.evict]
  cases h : sl.ofConn c with
  | false => simp
  | true => simp [Slot.release]

theorem Slot.valid_of_ofConn {c : Half} (h : sl.ofConn c = true) : sl.valid = true := by
  rw [Slot.ofConn, Bool.and_eq_true] at h
  exact h.1

theorem opEvictConn_eq (s : State) : opEvictConn s = s.args.a0.setWidth 16 :=
  (BitVec.setWidth_eq_extractLsb' (by decide)).symm

end Sys2Proof.Machine
end

section
/-! The proofs of the chunk reassembler chapter's statements (43_chunk_reassembler.md). -/

namespace Sys2Proof.Proofs.ChunkReassembler

open Sys2Proof Sys2Proof.Machine Sys2Proof.Claims

/-- Settles O51: a fresh slot misses exactly the tiling's chunks, and offering what a slot misses completes it. -/
theorem reassemblyIsComplete : Obligations.ReassemblyIsComplete := by
  intro s conn pid d P cs hinv h1 hmax hd htiles hsize habs hfree
  obtain ⟨k, hk⟩ : ∃ k, freeSlot s.slots = some k := by
    rw [← Option.ne_none_iff_exists', Ne, freeSlot_eq_none]
    obtain ⟨sl, hsl, hv⟩ := hfree
    exact fun hall => absurd (hall sl hsl) (by simp [hv])
  have htake : TakesChunk s conn pid P.length k (Slot.fresh conn pid P.length) :=
    .inr ⟨habs, by omega, hmax, hk, rfl⟩
  obtain ⟨-, -, -, ⟨-, hmaxTotal⟩, -⟩ := wellFormed_bounds hinv.params
  have hmiss := misses_fresh htiles (hmax.trans hmaxTotal) conn pid
  cases cs with
  | nil =>
    have : 0 = P.length := htiles.whole
    omega
  | cons c cs => exact exists_feed hinv htake hmiss hsize hd

/-- Settles O44: a violation or a full table changes no slot, and any other chunk is recorded in the lowest free slot,
freshly taken. -/
theorem crRecvOnAbsentKey : Obligations.CrRecvOnAbsentKey := by
  refine ⟨decode_crRecv, fun s data hinv => ?_⟩
  intro a n d pid off tot conn
  refine ⟨fun h => execCrRecv_eq_next.mpr (.inl ⟨Nat.not_le.mpr h, rfl⟩), fun hin hsrc hlen habs => ?_⟩
  rw [← hlen]
  refine ⟨fun hbad => execCrRecv_of_core hin hsrc hlen (crCore_of_absent_violation habs hbad), fun h0 hn hoff => ?_⟩
  have hgood : ¬ (tot = 0 ∨ data.length = 0 ∨ off + data.length > tot) := by omega
  refine ⟨fun hfull => ?_, fun k hmax hk hfree hlow => ?_⟩
  · exact execCrRecv_of_core hin hsrc hlen (crCore_of_absent_full habs hgood (hfull.imp_right freeSlot_eq_none.mpr))
  · have htake : TakesChunk s conn pid tot k (Slot.fresh conn pid tot) :=
      .inr ⟨habs, h0, hmax, freeSlot_of_lowest hk hfree hlow, rfl⟩
    have ha : (Slot.fresh conn pid tot).Accepts off data.length tot := Slot.fresh_accepts hinv.params hmax hgood
    obtain ⟨-, -, hrem⟩ := Slot.fresh_inv hinv.params conn pid h0 hmax
    refine ⟨fun hwhole hd => ?_, fun hwhole hd => ?_, fun hpart => ?_⟩
    · exact execCrRecv_no_room hin hsrc hlen hinv htake ha (hwhole.trans hrem.symm) hd.not_ge
    · have hbs := Slot.readBytes_record_fresh (off := off) conn pid (by omega) hwhole
      exact ⟨_, _, execCrRecv_assembles hin hsrc hlen hinv htake ha (hwhole.trans hrem.symm) hd hbs, rfl,
        written_writeBytes .., slotSet_set hk _, rfl⟩
    · have hrecv := execCrRecv_accepts hin hsrc hlen hinv htake ha (by omega)
      rw [hrem] at hrecv
      refine ⟨_, _, hrecv, rfl, slotSet_set hk _, rfl, rfl, rfl, ?_, rfl, rfl, fun j => ?_, fun i hi => ?_,
        fun j hj => ?_⟩
      · exact (BitVec.ofNat_toNat ..).trans (BitVec.setWidth_eq _)
      · exact mem_fillRange.trans (or_iff_right List.not_mem_nil)
      · exact Memory.read_writeBytes_of_lt [] off data i hi
      · exact Memory.read_writeBytes_outside [] off data j (by omega)

/-- Settles O45: a violation releases the entry, and any other chunk is recorded in it. -/
theorem crRecvOnOpenEntry : Obligations.CrRecvOnOpenEntry := by
  intro s data k sl hinv a n d off tot hin hsrc hlen hf
  obtain ⟨hk, hv, -⟩ := id hf
  have hklt : k < s.slots.length := (List.getElem?_eq_some_iff.mp hk).1
  rw [← hlen]
  refine ⟨fun hbad => ?_, fun htot hn hoff hapart => ?_⟩
  · have hbad' : ¬ sl.Accepts off data.length tot := fun ha => by
      rcases hbad with h | h | h | ⟨j, hj, h⟩
      · exact h (BitVec.eq_of_toNat_eq ha.total)
      · exact ha.nonzero h
      · exact h.not_ge ha.inside
      · exact fillOverlaps_eq_false.mp ha.fresh j hj h
    exact ⟨_, execCrRecv_of_core hin hsrc hlen (crCore_of_violation hinv.slots hf hbad'), rfl, slotSet_set hklt _⟩
  · have ha : sl.Accepts off data.length tot :=
      ⟨congrArg BitVec.toNat htot, hn, hoff, fillOverlaps_eq_false.mpr hapart⟩
    have htake : TakesChunk s (s.args.a6.setWidth 16) s.args.a3 tot k sl := .inl hf
    have hslot := htake.slot_inv hinv
    refine ⟨fun hlast hd => execCrRecv_no_room hin hsrc hlen hinv htake ha hlast hd.not_ge, fun hlast hd => ?_,
      fun hmore => ?_⟩
    · obtain ⟨bs, hbs⟩ := Slot.exists_payload hslot hv ha (Nat.sub_eq_zero_of_le hlast.ge)
      obtain ⟨hbl, hread⟩ := (Memory.readBytes_eq_some (Slot.record_fits hslot hv ha 0).1).mp hbs
      refine ⟨_, _, execCrRecv_assembles hin hsrc hlen hinv htake ha hlast hd hbs, rfl, fun j hj => ?_, fun x hx => ?_,
        slotSet_set hklt _, rfl⟩
      · rw [Memory.read_writeBytes_of_lt _ _ _ j (hj.trans_eq hbl.symm), ← hread, Nat.zero_add]
        exact Memory.read_writeBytes ..
      · exact Memory.read_writeBytes_outside _ _ _ _ (hbl.symm ▸ hx)
    · exact ⟨_, _, execCrRecv_accepts hin hsrc hlen hinv htake ha hmore, rfl, slotSet_set hklt _, rfl,
        fun j => mem_fillRange, fun j => Memory.read_writeBytes ..⟩

/-- Settles O46: CRCORE changes the slot of the key or a free slot, and FC.RECV changes slots only through CRCORE. -/
theorem otherConnectionsUntouched : Obligations.OtherConnectionsUntouched := by
  intro s t j sl hj hv
  refine ⟨fun hr hkey => execCrRecv_keeps_other_key hr hj hv hkey,
    fun hr hkey => execFcRecv_keeps_other_key hr hj hv hkey⟩

/-- Settles O47: a tick as an event and as CR.TICK is `State.tickSlots`, which is every slot's own tick. -/
theorem tickAgesAndEvicts : Obligations.TickAgesAndEvicts := by
  refine ⟨decode_crTick, fun s rest hinv => ⟨s.tickSlots.slots, tickEvicts s, ?_, fun k sl hk => ?_,
    tickEvicts_add_slotsUsed s, ?_, fun hin => ?_⟩⟩
  · rw [(tickSlots_slots_inv hinv.params hinv.slots).1, hinv.slots.1]
  · cases ht : s.params.crTimed with
    | false => exact ⟨sl, by rw [tickSlots_untimed ht, hk], fun _ => rfl, fun h => absurd h Bool.false_ne_true⟩
    | true =>
      refine ⟨sl.tick s.params.crIdleTicks, by rw [tickSlots_slots_timed ht, List.getElem?_map, hk, Option.map_some],
        fun h => Slot.tick_of_invalid (h.resolve_left Bool.false_ne_true.symm), fun _ hv => ⟨?_, ?_, ?_⟩⟩
      · rw [Slot.tick_of_valid hv]
      · exact Slot.tick_idle_toNat hinv.params ht (hinv.slots.2.1 sl (List.mem_of_getElem? hk)) hv
      · simp [Slot.tick_of_valid hv]
  · refine (execCrTick_eq s).trans ?_
    rw [tickSlots_eq]
    rfl
  · rw [step_of_inputs hin]
    show Host.Outcome.next (s.withInputs rest).tickSlots = _
    rw [tickSlots_withInputs, tickSlots_eq]
    rfl

/-- Settles O48: after `n` ticks the slot is its own `n` ticks older. -/
theorem evictedOnTheLastIdleTick : Obligations.EvictedOnTheLastIdleTick := by
  intro s k n sl hinv ht hk hv hidle
  obtain ⟨-, -, -, -, hT, hT'⟩ := wellFormed_bounds hinv.params
  refine ⟨_, by rw [iterate_tickSlots_slots ht, List.getElem?_map, hk, Option.map_some], ?_⟩
  exact (Slot.iterate_tick hT hT' hv hidle n).1

/-- Settles O49: CR.EVICTCONN is the eviction of every slot on its own. -/
theorem evictconnReleasesConnection : Obligations.EvictconnReleasesConnection := by
  refine ⟨decode_crEvictconn, fun s => ?_⟩
  intro c
  refine ⟨s.slots.map (Slot.evict c), s.slots.countP (Slot.ofConn c), ?_, List.length_map _,
    countP_add_slotsUsed_map (fun _ => Slot.valid_of_ofConn) (Slot.valid_evict c) s.slots, fun k sl hk => ?_⟩
  · have hc : opEvictConn s = c := opEvictConn_eq s
    exact hc ▸ execCrEvictconn_eq s
  · rw [List.getElem?_map, hk, Option.map_some, Slot.evict_eq]

end Sys2Proof.Proofs.ChunkReassembler
end

section
/-! The proof of the control chapter's statement (44_control.md). -/

namespace Sys2Proof.Proofs.Control

open Sys2Proof Sys2Proof.Machine Sys2Proof.Claims

/-- Settles O19: NOP is one write of STATUS, which leaves every other field as it was. -/
theorem nopOnlyReportsOk : Obligations.NopOnlyReportsOk := ⟨decode_nop, execNop_eq⟩

end Sys2Proof.Proofs.Control
end

section
/-! How a command ends (60_exceptions.md R181, R185, R187): in a status its row lists, and a refusal is one write of STATUS. -/

namespace Sys2Proof.Machine

open Sys2Proof.Claims

/-- The statuses with which a legal command refuses to act (60 R187). -/
def refusals : List Status := [.illegalArg, .tooLong, .outOfRange]

/-- Command `i` ended in `t`: in a status listed for it (60 R181), and by one write of STATUS if that is a refusal
(60 R187). -/
def EndsAsListed (i : Instr) (s t : State) : Prop :=
  t.status ∈ outcomes i ∧ (t.status ∈ refusals → t = s.withStatus t.status)

section
variable {i : Instr} {s s0 t : State} {x : Status}

/-- An end that writes STATUS alone may be a refusal. -/
@[simp] theorem endsAsListed_raise : EndsAsListed i s (s.withStatus x) ↔ x ∈ outcomes i :=
  and_iff_left fun _ => rfl

/-- An end that writes more must not be a refusal. -/
@[simp] theorem endsAsListed_withStatus (hx : x ∉ refusals) : EndsAsListed i s (t.withStatus x) ↔ x ∈ outcomes i :=
  and_iff_left fun h => absurd h hx

/-! ## The reassembler core (43 R151) -/

/-- A status that CRCORE gives with new slots is no refusal, and both commands that run the core list it. -/
theorem crCore_status_listed {conn : Half} {pid : Word} {off tot : Nat} {data : List Byte} {d : Nat} {v : Nat}
    {slots : List Slot} {dst : Memory} (h : crCore s conn pid off tot data d = .ok (.done x v slots dst)) :
    x ∉ refusals ∧ x ∈ outcomes .crRecv ∧ x ∈ outcomes .fcRecv := by
  rcases crCore_status h with rfl | rfl | rfl | rfl <;> decide

/-! ## FC.RECV (42 R135) -/

theorem recvFail_ends (hx : x ∉ refusals) (hl : x ∈ outcomes .fcRecv) (hr : recvFail x s = .ok t) :
    EndsAsListed .fcRecv s0 t := by
  obtain ⟨found, k, -, rfl⟩ := recvFail_eq_ok.mp hr
  exact (endsAsListed_withStatus hx).mpr hl

theorem recvDeliver_ends {u : Unstuffed} (hr : recvDeliver s0 s u = .ok t) : EndsAsListed .fcRecv s0 t := by
  rcases recvDeliver_cases hr with ⟨-, -, rfl⟩ | ⟨-, -, rfl⟩ | ⟨-, r, hcore, ⟨-, rfl⟩ | ⟨st, v, slots, dst, rfl, rfl⟩⟩
  · exact (endsAsListed_withStatus (by decide)).mpr (by decide)
  · exact endsAsListed_raise.mpr (by decide)
  · exact endsAsListed_raise.mpr (by decide)
  · obtain ⟨hx, -, hl⟩ := crCore_status_listed hcore
    exact (endsAsListed_withStatus hx).mpr hl

theorem recvFrame_ends (hr : recvFrame s0 s = .ok t) : EndsAsListed .fcRecv s0 t := by
  obtain ⟨region, -, ⟨-, hf⟩ | ⟨r, -, -, ⟨-, hf⟩ | ⟨-, hd⟩⟩⟩ := recvFrame_cases hr
  · exact recvFail_ends (by decide) (by decide) hf
  · exact recvFail_ends (by decide) (by decide) hf
  · exact recvDeliver_ends hd

theorem execFcRecv_ends (hr : execFcRecv s = .next t) : EndsAsListed .fcRecv s t := by
  obtain ⟨p, hd, -, ⟨-, rfl⟩ | ⟨-, hf⟩ | ⟨-, hf⟩⟩ := execFcRecv_cases hr
  · exact (endsAsListed_withStatus (by decide)).mpr (by decide)
  · exact recvFail_ends (by decide) (by decide) hf
  · exact recvFrame_ends hf

/-! ## Every command -/

/-- The check order (60 R185): a check that fails raises its status from the state the command started in. -/
theorem exec_ends {i : Instr} (hr : exec i s = .next t) : EndsAsListed i s t := by
  cases i with
  | nop => cases hr; simp [outcomes]
  | rbWrite => rcases execRbWrite_eq_next.mp hr with ⟨-, rfl⟩ | ⟨-, bs, -, rfl⟩ <;> simp [outcomes, refusals]
  | rbRead =>
    rcases execRbRead_eq_next.mp hr with ⟨-, rfl⟩ | ⟨-, -, rfl⟩ | ⟨-, -, bs, -, rfl⟩ <;> simp [outcomes, refusals]
  | rbPeek =>
    rcases execRbPeek_eq_next.mp hr with ⟨-, rfl⟩ | ⟨-, -, rfl⟩ | ⟨-, -, bs, -, rfl⟩ <;> simp [outcomes, refusals]
  | rbPeekb => rcases execRbPeekb_eq_next.mp hr with ⟨-, rfl⟩ | ⟨-, b, -, rfl⟩ <;> simp [outcomes, refusals]
  | rbPeekhdr => rcases execRbPeekhdr_eq_next.mp hr with ⟨-, rfl⟩ | ⟨-, bs, -, rfl⟩ <;> simp [outcomes, refusals]
  | rbSkipuntil v =>
    obtain ⟨found, k, -, rfl⟩ := execRbSkipuntil_eq_next.mp hr
    cases found <;> simp [outcomes, refusals]
  | rbClear => cases hr; simp [outcomes, refusals]
  | pcEncode =>
    rcases execPcEncode_eq_next.mp hr with ⟨-, rfl⟩ | ⟨-, c, -, ⟨-, rfl⟩ | ⟨-, rfl⟩⟩ <;> simp [outcomes, refusals]
  | pcDecode =>
    rcases execPcDecode_eq_next.mp hr with ⟨-, rfl⟩ | ⟨-, -, region, -, ⟨-, rfl⟩ | ⟨u, -, rfl⟩⟩
    · simp [outcomes]
    · simp [outcomes, refusals]
    · split <;> simp [outcomes, refusals]
  | pcHcs => cases hr; simp [outcomes, refusals]
  | fcBuild =>
    rcases execFcBuild_eq_next.mp hr with ⟨-, rfl⟩ | ⟨-, p, -, ⟨-, rfl⟩ | ⟨f, -, ⟨-, rfl⟩ | ⟨-, rfl⟩⟩⟩ <;>
      simp [outcomes, refusals]
  | fcSend =>
    rcases execFcSend_eq_next.mp hr with ⟨-, rfl⟩ | ⟨-, ⟨-, rfl⟩ | ⟨-, p, -, out, -, ⟨-, rfl⟩ | ⟨-, rfl⟩⟩⟩ <;>
      simp [outcomes, refusals]
  | fcTryparse =>
    obtain ⟨p, hd, -, rfl⟩ := execFcTryparse_eq_next.mp hr
    cases p <;> simp [outcomes, refusals, Parse.status]
  | fcRecv => exact execFcRecv_ends hr
  | crRecv =>
    rcases execCrRecv_eq_next.mp hr with ⟨-, rfl⟩ | ⟨-, data, -, r, hcore, ⟨-, rfl⟩ | ⟨st, x, slots, dst, rfl, rfl⟩⟩
    · simp [outcomes]
    · simp [outcomes]
    · obtain ⟨hx, hl, -⟩ := crCore_status_listed hcore
      exact (endsAsListed_withStatus hx).mpr hl
  | crTick => cases hr; simp [outcomes, refusals]
  | crEvictconn => cases hr; simp [outcomes, refusals]
end

end Sys2Proof.Machine
end

section
/-! What no command reads (60_exceptions.md R195, 30_encoding.md R70): two runs of one command from states that differ there
take the same branches and have the same effect. -/

namespace Sys2Proof.Machine

open Sys2Proof.Claims

/-- What no command reads, besides STATUS: CMD, CR_EVICTS, the host's last read value, ARG7, and the RES, HDR and RX
registers. -/
structure Unread where
  cmd      : Word
  crEvicts : Word
  readData : Word
  arg7     : Word
  res      : Results
  hdr      : HdrRegs
  rx       : RxRegs

/-- `s` with other values in the part that no command reads. -/
def State.withUnread (o : Unread) (s : State) : State :=
  { s with cmd := o.cmd, crEvicts := o.crEvicts, readData := o.readData, args := { s.args with a7 := o.arg7 }
           res := o.res, hdr := o.hdr, rx := o.rx }

/-- From `s` to `t` and from `s.withUnread o` to `t'` the effect is the same: a part that is read ends equal, and a part
that is not read is written alike or left alone. -/
structure SameEffect (s : State) (o : Unread) (t t' : State) : Prop where
  params   : t'.params = t.params
  status   : t'.status = t.status
  ring     : t'.ring = t.ring
  src      : t'.src = t.src
  dst      : t'.dst = t.dst
  slots    : t'.slots = t.slots
  pktCtr   : t'.pktCtr = t.pktCtr
  freeCtr  : t'.freeCtr = t.freeCtr
  res0     : SameOrKept s.res.r0 t.res.r0 o.res.r0 t'.res.r0
  res1     : SameOrKept s.res.r1 t.res.r1 o.res.r1 t'.res.r1
  res2     : SameOrKept s.res.r2 t.res.r2 o.res.r2 t'.res.r2
  res3     : SameOrKept s.res.r3 t.res.r3 o.res.r3 t'.res.r3
  hdr      : SameOrKept s.hdr t.hdr o.hdr t'.hdr
  rxFrame  : SameOrKept (rxFrame s.rx) (rxFrame t.rx) (rxFrame o.rx) (rxFrame t'.rx)
  pcsCalc  : SameOrKept s.rx.pcsCalc t.rx.pcsCalc o.rx.pcsCalc t'.rx.pcsCalc
  pcsRcvd  : SameOrKept s.rx.pcsRcvd t.rx.pcsRcvd o.rx.pcsRcvd t'.rx.pcsRcvd
  crEvicts : t'.crEvicts - o.crEvicts = t.crEvicts - s.crEvicts

variable {s t t' : State} {o : Unread}

/-! ## One operation at a time: the same write in both runs -/

namespace SameEffect

theorem refl (s : State) (o : Unread) : SameEffect s o s (s.withUnread o) where
  params := rfl
  status := rfl
  ring := rfl
  src := rfl
  dst := rfl
  slots := rfl
  pktCtr := rfl
  freeCtr := rfl
  res0 := .inr ⟨rfl, rfl⟩
  res1 := .inr ⟨rfl, rfl⟩
  res2 := .inr ⟨rfl, rfl⟩
  res3 := .inr ⟨rfl, rfl⟩
  hdr := .inr ⟨rfl, rfl⟩
  rxFrame := .inr ⟨rfl, rfl⟩
  pcsCalc := .inr ⟨rfl, rfl⟩
  pcsRcvd := .inr ⟨rfl, rfl⟩
  crEvicts := by simp [State.withUnread]

variable (h : SameEffect s o t t')
include h

theorem withStatus (x : Status) : SameEffect s o (t.withStatus x) (t'.withStatus x) := { h with status := rfl }
theorem withRes0 (n : Nat) : SameEffect s o (t.withRes0 n) (t'.withRes0 n) := { h with res0 := .inl rfl }
theorem withRes1 (n : Nat) : SameEffect s o (t.withRes1 n) (t'.withRes1 n) := { h with res1 := .inl rfl }
theorem withRes2 (n : Nat) : SameEffect s o (t.withRes2 n) (t'.withRes2 n) := { h with res2 := .inl rfl }
theorem withHdr (x : HdrRegs) : SameEffect s o (t.withHdr x) (t'.withHdr x) := { h with hdr := .inl rfl }
theorem withRx (x : RxRegs) : SameEffect s o (t.withRx x) (t'.withRx x) :=
  { h with rxFrame := .inl rfl, pcsCalc := .inl rfl, pcsRcvd := .inl rfl }
theorem withRing (x : Ring) : SameEffect s o (t.withRing x) (t'.withRing x) := { h with ring := rfl }
theorem withDst (x : Memory) : SameEffect s o (t.withDst x) (t'.withDst x) := { h with dst := rfl }
theorem withSlots (x : List Slot) : SameEffect s o (t.withSlots x) (t'.withSlots x) := { h with slots := rfl }
theorem withPktCtr (x : Word) : SameEffect s o (t.withPktCtr x) (t'.withPktCtr x) := { h with pktCtr := rfl }
theorem withFreeCtr (n : Nat) : SameEffect s o (t.withFreeCtr n) (t'.withFreeCtr n) := { h with freeCtr := rfl }

/-- The two payload checksums are written by themselves: the rest of the RX registers is left as it was (10 R31). -/
theorem withChecksums (computed carried : Half) :
    SameEffect s o (t.withRx { t.rx with pcsCalc := computed, pcsRcvd := carried })
      (t'.withRx { t'.rx with pcsCalc := computed, pcsRcvd := carried }) :=
  { h with pcsCalc := .inl rfl, pcsRcvd := .inl rfl }

theorem advance (k : Nat) : SameEffect s o (t.advance k) (t'.advance k) := by
  unfold State.advance
  rw [h.ring, h.params]
  exact h.withRing _

theorem ringAppend (bs : List Byte) : SameEffect s o (t.ringAppend bs) (t'.ringAppend bs) := by
  unfold State.ringAppend
  rw [h.ring, h.params]
  exact h.withRing _

end SameEffect

/-- What a tick adds to CR_EVICTS does not depend on the count so far (43 R158). -/
theorem sameEffect_tickSlots (s : State) (o : Unread) : SameEffect s o s.tickSlots (s.withUnread o).tickSlots := by
  cases ht : s.params.crTimed with
  | false =>
    rw [tickSlots_untimed ht, tickSlots_untimed (s := s.withUnread o) ht]
    exact .refl s o
  | true =>
    have hgrows : ∀ v : Word, BitVec.ofNat 32 (v.toNat + tickEvicts s) - v = BitVec.ofNat 32 (tickEvicts s) :=
      fun v => by rw [BitVec.ofNat_add, BitVec.ofNat_toNat, BitVec.setWidth_eq, add_sub_cancel_left]
    rw [State.tickSlots, State.tickSlots, if_pos ht, if_pos (by exact ht)]
    exact { SameEffect.refl s o with slots := rfl, crEvicts := (hgrows o.crEvicts).trans (hgrows s.crEvicts).symm }

/-! ## Whole computations, branch by branch -/

/-- Where the run `r` from `s` gives a state, the run `r'` from `s.withUnread o` gives one with the same effect. -/
def SameRun (s : State) (o : Unread) (r r' : Except Fault State) : Prop :=
  ∀ t, r = .ok t → ∃ t', r' = .ok t' ∧ SameEffect s o t t'

namespace SameRun

theorem ok (h : SameEffect s o t t') : SameRun s o (.ok t) (.ok t') := by
  rintro _ ⟨⟩
  exact ⟨t', rfl, h⟩

theorem raise (s : State) (o : Unread) (x : Status) : SameRun s o (s.raise x) ((s.withUnread o).raise x) :=
  ok ((SameEffect.refl s o).withStatus x)

/-- Both runs pass or fail the same check. -/
theorem ite {c : Prop} [Decidable c] {a a' b b' : Except Fault State} (ha : SameRun s o a a') (hb : SameRun s o b b') :
    SameRun s o (if c then a else b) (if c then a' else b') := by
  split
  · exact ha
  · exact hb

/-- Both runs go on with what the same read gives. -/
theorem bind {α : Type} {m : Except Fault α} {f f' : α → Except Fault State} (h : ∀ x, SameRun s o (f x) (f' x)) :
    SameRun s o (m >>= f) (m >>= f') := by
  cases m with
  | ok x => exact h x
  | error e => exact fun _ hr => nomatch hr

end SameRun

/-! ## What a run reads is the same (10 R39, 40 R110, 43 R151) -/

theorem ringBytes_withUnread (i n : Nat) : ringBytes (s.withUnread o) i n = ringBytes s i n :=
  ringBytes_congr (s := s) (t := s.withUnread o) rfl rfl i n

theorem scan_withUnread (skip : Nat) (v : Byte) : scan (s.withUnread o) skip v = scan s skip v :=
  scan_congr (s := s) (t := s.withUnread o) rfl rfl skip v

theorem crCore_withUnread (conn : Half) (pid : Word) (off tot : Nat) (data : List Byte) (d : Nat) :
    crCore (s.withUnread o) conn pid off tot data d = crCore s conn pid off tot data d :=
  crCore_congr (s := s) (t := s.withUnread o) rfl rfl rfl rfl ..

/-- The HDR registers are TRYPARSE's answer for a ring that is too short only (42 R133). -/
theorem tryParse_withUnread (hc : ¬ s.ring.cnt < hdrSize) : tryParse (s.withUnread o) = tryParse s := by
  rw [tryParse, tryParse, if_neg hc, if_neg (by exact hc), ringBytes_withUnread]
  rfl

/-! ## FC.RECV (42 R135), from where TRYPARSE has left the same HDR registers in both runs -/

theorem recvFail_sameRun (code : Status) (he : SameEffect s o t t') :
    SameRun s o (recvFail code t) (recvFail code t') := by
  rw [recvFail, recvFail, scan_congr he.ring he.params]
  exact .bind fun (_, k) => .ok ((((he.advance k).withRes0 k).withRes1 0).withStatus code)

theorem recvDone_sameEffect (he : SameEffect s o t t') (hh : t'.hdr = t.hdr) (m : MetaFields) (plen : Nat) (u : Unstuffed)
    (v : Nat) (st : Status) : SameEffect s o (recvDone t m plen u v st) (recvDone t' m plen u v st) := by
  unfold recvDone
  rw [hh]
  exact ((((he.withRx _).advance _).withRes0 _).withRes1 v).withStatus st

section
variable (s o) (h : HdrRegs)

theorem recvDeliver_sameRun (u : Unstuffed) :
    SameRun s o (recvDeliver s (s.withHdr h) u) (recvDeliver (s.withUnread o) ((s.withUnread o).withHdr h) u) := by
  have he : SameEffect s o (s.withHdr h) ((s.withUnread o).withHdr h) := (SameEffect.refl s o).withHdr h
  simp only [recvDeliver, crCore_withHdr, crCore_withUnread]
  refine .ite (.bind fun r => ?_) (.ite (.raise s o _) (.ok ?_))
  · cases r with
    | outOfRange => exact .raise s o _
    | done st v slots dst => exact .ok (recvDone_sameEffect ((he.withSlots slots).withDst dst) rfl ..)
  · exact recvDone_sameEffect (he.withDst _) rfl ..

theorem recvFrame_sameRun :
    SameRun s o (recvFrame s (s.withHdr h)) (recvFrame (s.withUnread o) ((s.withUnread o).withHdr h)) := by
  have he : SameEffect s o (s.withHdr h) ((s.withUnread o).withHdr h) := (SameEffect.refl s o).withHdr h
  simp only [recvFrame, ringBytes_withHdr, ringBytes_withUnread]
  refine .bind fun region => ?_
  cases uncobs region with
  | none => exact recvFail_sameRun _ he
  | some r =>
    exact .ite (recvFail_sameRun _ he)
      (.ite (recvFail_sameRun _ (he.withChecksums _ _)) (recvDeliver_sameRun s o h _))

end

/-! ## Every command -/

/-- Where the command's outcome `x` from `s` is a next state, its outcome `x'` from `s.withUnread o` is one with the same
effect. -/
def SameOutcome (s : State) (o : Unread) (x x' : Host.Outcome State Fault Refusal) : Prop :=
  ∀ t, x = .next t → ∃ t', x' = .next t' ∧ SameEffect s o t t'

theorem SameOutcome.commit {r r' : Except Fault State} (h : SameRun s o r r') : SameOutcome s o (commit r) (commit r') := by
  intro t ht
  obtain ⟨t', rfl, he⟩ := h t (commit_eq_next.mp ht)
  exact ⟨t', rfl, he⟩

section
variable (s : State) (o : Unread)

/-- The HDR registers may differ after TRYPARSE only where it leaves them alone. -/
theorem execFcTryparse_sameOutcome : SameOutcome s o (execFcTryparse s) (execFcTryparse (s.withUnread o)) := by
  have he := SameEffect.refl s o
  refine .commit ?_
  by_cases hc : s.ring.cnt < hdrSize
  · rw [tryParse_of_short hc, tryParse_of_short (s := s.withUnread o) hc]
    exact .ok (he.withStatus _)
  · rw [tryParse_withUnread hc]
    refine .bind fun (p, h) => .ok (SameEffect.withStatus ?_ _)
    split
    · exact (he.withHdr h).withRes0 _
    · exact he.withHdr h

theorem execFcRecv_sameOutcome : SameOutcome s o (execFcRecv s) (execFcRecv (s.withUnread o)) := by
  have he := SameEffect.refl s o
  refine .commit ?_
  by_cases hc : s.ring.cnt < hdrSize
  · rw [tryParse_of_short hc, tryParse_of_short (s := s.withUnread o) hc]
    exact .ok (((he.withRes0 0).withRes1 0).withStatus _)
  · rw [tryParse_withUnread hc]
    refine .bind fun (p, h) => ?_
    cases p with
    | needMore => exact .ok ((((he.withHdr h).withRes0 0).withRes1 0).withStatus _)
    | hdrCorrupt => exact recvFail_sameRun _ (he.withHdr h)
    | frame => exact recvFrame_sameRun s o h

theorem execCrRecv_sameOutcome : SameOutcome s o (execCrRecv s) (execCrRecv (s.withUnread o)) := by
  simp only [execCrRecv, crCore_withUnread]
  refine .commit (.ite (.raise s o _) (.bind fun data => .bind fun r => ?_))
  cases r with
  | outOfRange => exact .raise s o _
  | done st v slots dst =>
    exact .ok (((((SameEffect.refl s o).withSlots slots).withDst dst).withRes0 v).withStatus st)

/-- A command reads nothing of `Unread`: each of its checks and reads gives the same in both runs, and each of its writes
is the same write. -/
theorem exec_sameOutcome (i : Instr) : SameOutcome s o (exec i s) (exec i (s.withUnread o)) := by
  have he := SameEffect.refl s o
  cases i with
  | nop => exact .commit (.ok (he.withStatus _))
  | rbWrite => exact .commit (.ite (.raise s o _) (.bind fun bs => .ok (((he.ringAppend bs).withRes0 _).withStatus _)))
  | rbRead =>
    simp only [exec, execRbRead, ringBytes_withUnread]
    exact .commit (.ite (.raise s o _) (.ite (.ok ((he.withRes0 0).withStatus _))
      (.bind fun bs => .ok ((((he.withDst _).advance _).withRes0 _).withStatus _))))
  | rbPeek =>
    simp only [exec, execRbPeek, ringBytes_withUnread]
    exact .commit (.ite (.raise s o _) (.ite (.ok ((he.withRes0 0).withStatus _))
      (.bind fun bs => .ok (((he.withDst _).withRes0 _).withStatus _))))
  | rbPeekb =>
    exact .commit (.ite (.ok ((he.withRes0 0).withStatus _)) (.bind fun b => .ok ((he.withRes0 _).withStatus _)))
  | rbPeekhdr =>
    simp only [exec, execRbPeekhdr, ringBytes_withUnread]
    exact .commit (.ite (.ok (he.withStatus _)) (.bind fun bs => .ok ((he.withHdr _).withStatus _)))
  | rbSkipuntil v =>
    simp only [exec, execRbSkipuntil, scan_withUnread]
    exact .commit (.bind fun (_, k) => .ok ((((he.advance k).withRes0 k).withRes1 _).withStatus _))
  | rbClear => exact .commit (.ok ((he.withRing _).withStatus _))
  | pcEncode =>
    exact .commit (.ite (.raise s o _) (.bind fun c => .ite (.raise s o _)
      (.ok ((((he.withDst _).withRes0 _).withRes1 _).withStatus _))))
  | pcDecode =>
    refine .commit (.ite (.raise s o _) (.bind fun region => ?_))
    cases unstuff region with
    | none => exact .ok ((((he.withDst _).withFreeCtr _).withRes0 0).withStatus _)
    | some u => exact .ok (((((he.withDst _).withRes0 _).withRes1 _).withRes2 _).withStatus _)
  | pcHcs => exact .commit (.ok ((he.withRes0 _).withStatus _))
  | fcBuild =>
    refine .commit (.ite (.raise s o _) (.bind fun p => ?_))
    have hframe : buildFrame (s.withUnread o).tx.flags (s.withUnread o).tx.id (txMeta (s.withUnread o)) p =
        buildFrame s.tx.flags s.tx.id (txMeta s) p := rfl
    simp only [hframe]
    cases buildFrame s.tx.flags s.tx.id (txMeta s) p with
    | none => exact .raise s o _
    | some f =>
      exact .ite (.raise s o _) (.ok (((((he.withDst _).withRes0 _).withRes1 _).withRes2 _).withStatus _))
  | fcSend =>
    refine .commit (.ite (.raise s o _) (.ite (.raise s o _) (.bind fun p => ?_)))
    have hframes : sendFrames (s.withUnread o) p = sendFrames s p := rfl
    simp only [hframes]
    cases joinFrames (sendFrames s p) with
    | none => exact .raise s o _
    | some out =>
      exact .ite (.raise s o _)
        (.ok ((((((he.withDst _).withPktCtr _).withRes0 _).withRes1 _).withRes2 _).withStatus _))
  | fcTryparse => exact execFcTryparse_sameOutcome s o
  | fcRecv => exact execFcRecv_sameOutcome s o
  | crRecv => exact execCrRecv_sameOutcome s o
  | crTick => exact .commit (.ok (((sameEffect_tickSlots s o).withRes0 _).withStatus _))
  | crEvictconn => exact .commit (.ok (((he.withSlots _).withRes0 _).withStatus _))

end

end Sys2Proof.Machine
end

section
/-! The proofs of the exceptions chapter's statements (60_exceptions.md). -/

namespace Sys2Proof.Proofs.Exceptions

open Sys2Proof Sys2Proof.Machine Sys2Proof.Claims

/-- Settles O13: a refusal is one write of STATUS. -/
theorem refusedCommandsCommitOnlyStatus : Obligations.RefusedCommandsCommitOnlyStatus := by
  intro i s t hr hstatus
  obtain ⟨-, hrefusal⟩ := exec_ends hr
  exact hrefusal (by simpa [refusals] using hstatus)

/-- Settles O17: every end of every command is one its row lists; FC.SEND's frames always fit (`execFcSend_eq_next`). -/
theorem commandOutcomes : Obligations.CommandOutcomes := fun _ _ _ hr => (exec_ends hr).1

/-- Settles O16: the other state is `s.withUnread o`, and the run from it takes the same branches. -/
theorem observationRegistersNotRead : Obligations.ObservationRegistersNotRead := by
  intro i s t cmd ev rd a7 res hdr rx hr
  obtain ⟨t', hr', he⟩ := exec_sameOutcome s ⟨cmd, ev, rd, a7, res, hdr, rx⟩ i t hr
  exact ⟨t', hr', he.status, he.ring, he.src, he.dst, he.slots, he.pktCtr, he.freeCtr, he.res0, he.res1, he.res2, he.res3,
    he.hdr, he.rxFrame, he.pcsCalc, he.pcsRcvd, he.crEvicts⟩

end Sys2Proof.Proofs.Exceptions
end

section
/-! That FC.RECV gets on (70_reset_and_hazards.md R210): how far a failure consumes (42 R135), and a full ring, which always
loses bytes unless its frame has no room in DST. -/

namespace Sys2Proof.Machine

open Sys2Proof.Claims

variable {s s0 t : State} {k : Nat}

/-! ## Through the first 0x00 (40 R110) -/

theorem throughFirstZero_pos (hk : ThroughFirstZero s k) (hheld : 0 < s.ring.cnt) : 0 < k := by
  rcases hk with ⟨j, -, rfl, -, -⟩ | ⟨rfl, -⟩
  · exact j.succ_pos
  · exact hheld

/-- No byte after a 0x00 that is held is counted. -/
theorem throughFirstZero_le {j : Nat} (hk : ThroughFirstZero s k) (hj : j < s.ring.cnt) (hz : ringByte s j = .ok 0#8) :
    k ≤ j + 1 := by
  rcases hk with ⟨i, -, rfl, -, hfirst⟩ | ⟨-, hnone⟩
  · have hi : ¬ j < i := fun hlt => hfirst j hlt hz
    omega
  · exact absurd hz (hnone j hj)

/-! ## Too few bytes for a header (42 R133) -/

theorem execFcRecv_status_of_short (hc : s.ring.cnt < 7) (hr : execFcRecv s = .next t) : t.status = .needMore := by
  cases (execFcRecv_of_needMore (tryParse_of_short hc)).symm.trans hr
  rfl

/-! ## What ends a pass over a ring that is not empty (42 R135) -/

/-- `t` does not ask for more bytes, and its ring holds fewer than `n` unless it reports OUT_OF_RANGE. -/
def Advances (n : Nat) (t : State) : Prop :=
  t.status ≠ .needMore ∧ (t.status ≠ .outOfRange → t.ring.cnt < n)

theorem advances_outOfRange (n : Nat) (s : State) : Advances n (s.withStatus .outOfRange) :=
  ⟨nofun, fun hne => absurd rfl hne⟩

theorem recvFail_advances {n : Nat} {code : Status} (hr : recvFail code s = .ok t) (hcode : code ≠ .needMore)
    (hn : s.ring.cnt = n) (hheld : 0 < n) : Advances n t := by
  subst hn
  obtain ⟨k, hk, rfl⟩ := recvFail_eq_resynced hr
  exact ⟨hcode, fun _ => Nat.sub_lt hheld (throughFirstZero_pos hk hheld)⟩

/-- A frame that is taken is at least its header. -/
theorem recvDone_advances {n plen v : Nat} {m : MetaFields} {u : Unstuffed} {st : Status} (hst : st ≠ .needMore)
    (hn : s.ring.cnt = n) (hheld : 0 < n) : Advances n (recvDone s m plen u v st) :=
  ⟨hst, fun _ => by simp only [recvDone_ring, State.advance_ring, hdrSize]; omega⟩

theorem recvDeliver_advances {u : Unstuffed} (hr : recvDeliver s0 s u = .ok t) (hheld : 0 < s.ring.cnt) :
    Advances s.ring.cnt t := by
  rcases recvDeliver_cases hr with ⟨-, -, rfl⟩ | ⟨-, -, rfl⟩ | ⟨-, r, hcore, ⟨-, rfl⟩ | ⟨st, x, slots, dst, rfl, rfl⟩⟩
  · exact recvDone_advances (by decide) rfl hheld
  · exact advances_outOfRange ..
  · exact advances_outOfRange ..
  · have hst : st ≠ .needMore := by rcases crCore_status hcore with rfl | rfl | rfl | rfl <;> decide
    exact recvDone_advances hst rfl hheld

theorem recvFrame_advances (hr : recvFrame s0 s = .ok t) (hheld : 0 < s.ring.cnt) : Advances s.ring.cnt t := by
  obtain ⟨region, -, ⟨-, hfail⟩ | ⟨r, -, -, ⟨-, hfail⟩ | ⟨-, hdeliver⟩⟩⟩ := recvFrame_cases hr
  · exact recvFail_advances hfail (by decide) rfl hheld
  · exact recvFail_advances hfail (by decide) rfl hheld
  · exact recvDeliver_advances hdeliver hheld

/-! ## A full ring (70 R210) -/

/-- TRYPARSE waits for no more than the ring can hold: a header that names a longer frame does not pass (42 R133). -/
theorem tryParse_needMore_room {h : HdrRegs} (hheld : 7 ≤ s.ring.cnt) (hr : tryParse s = .ok (.needMore, h)) :
    s.ring.cnt < ringCap s.params := by
  rcases tryParse_cases hr with ⟨hshort, -⟩ | ⟨-, -, -, -, ⟨-, hp⟩ | ⟨hgood, hpart, -⟩ | ⟨-, -, b, -, ⟨-, hp⟩ | ⟨-, hp⟩⟩⟩
  · exact absurd hheld hshort.not_ge
  · cases hp
  · exact hpart.trans_le hgood.most
  · cases hp
  · cases hp

theorem execFcRecv_advances_of_full (hfull : s.ring.cnt = ringCap s.params) (hheld : 7 ≤ s.ring.cnt)
    (hr : execFcRecv s = .next t) : Advances s.ring.cnt t := by
  have hpos : 0 < s.ring.cnt := Nat.lt_of_lt_of_le (by decide) hheld
  obtain ⟨p, h, hparse, ⟨rfl, -⟩ | ⟨-, hfail⟩ | ⟨-, hframe⟩⟩ := execFcRecv_cases hr
  · exact absurd hfull (tryParse_needMore_room hheld hparse).ne
  · exact recvFail_advances hfail (by decide) rfl hpos
  · exact recvFrame_advances (s := s.withHdr h) hframe hpos

end Sys2Proof.Machine
end

section
/-! The proofs of the reset and hazards chapter's statements (70_reset_and_hazards.md). -/

namespace Sys2Proof.Proofs.ResetAndHazards

open Sys2Proof Sys2Proof.Machine Sys2Proof.Claims

/-- Settles O5: a step with no action to perform answers the state it was given. -/
theorem stepWaitsWithoutInput : Obligations.StepWaitsWithoutInput := by
  intro s hinputs
  rw [step, performNext, hinputs]

/-- Settles O42: a full ring leaves TRYPARSE nothing to wait for, and a failure consumes through the first 0x00. -/
theorem recvMakesProgress : Obligations.RecvMakesProgress := by
  intro s t hinv hr
  refine ⟨fun hfull hcap => execFcRecv_advances_of_full hfull (hfull ▸ hcap) hr, fun hst => ?_, fun hcap => ?_⟩
  · have hheld : 7 ≤ s.ring.cnt := by
      by_contra hshort
      have hmore := execFcRecv_status_of_short (Nat.lt_of_not_le hshort) hr
      simp [hmore] at hst
    obtain ⟨k, hk, hring⟩ := execFcRecv_resyncs_ring hr hst
    have hpos := throughFirstZero_pos hk (by omega)
    have hcnt : t.ring.cnt = s.ring.cnt - k := congrArg Ring.cnt hring
    refine ⟨hheld, by omega, fun j hj hz => ?_⟩
    have hle := throughFirstZero_le hk hj hz
    omega
  · obtain ⟨-, -, hle, -⟩ := hinv.ring
    exact execFcRecv_status_of_short (hle.trans_lt hcap) hr

end Sys2Proof.Proofs.ResetAndHazards
end
